-- ==== Sys2Proof/Word.lean ====
section
/-! DEFINITION. The fixed-width words of the engine (00_scope.md R9, R13): a byte of a buffer, a 32-bit weight or
declared length, a 64-bit checksum. Table indices, symbols, bit positions, lengths and distances are naturals (R9). -/

namespace Sys2Proof

/-- One byte of `IN` or `OUT`, or one option register (10_state.md R26). -/
abbrev Byte := BitVec 8

/-- A `u32`: the declared length (R25) and an entry's `order_value` (R28). Arithmetic on it wraps (R13). -/
abbrev Word32 := BitVec 32

/-- A `u64`: the header's checksum (R25) and the checksum computed over the output (R191). -/
abbrev Word64 := BitVec 64

end Sys2Proof
end

