-- ==== Sys2Proof/Config.lean ====
section
/-! DEFINITION. The configuration parameters of 00_scope.md R8 that an implementation fixes. The defaults stand in
`Machine/Params.lean`. The fourth parameter, MAX_OUTPUT, is given by the host at each Start (60_exceptions.md R226) and
is the field `maxOutput` of the state. Log entry 3. -/

namespace Sys2Proof

/-- `FIELD_ORDER` (R8, 20_memory.md R52): how a preamble field wider than 8 bits is assembled from the stream. -/
inductive FieldOrder where
  /-- `MSB_FIRST`: one field, its first bit the most significant. -/
  | msbFirst
  /-- `LSB_BYTE_FIRST`: consecutive 8-bit reads, the first byte the least significant. -/
  | lsbByteFirst
  deriving DecidableEq, Repr

/-- `OPTION_OFFSETS` (R8, 30_encoding.md R76): the byte offset in `IN` of each option field, in the order of R8. -/
structure OptionOffsets where
  raw : Nat
  min : Nat
  ub : Nat
  lbc : Nat
  base : Nat
  deriving DecidableEq, Repr

/-- The parameters that stay the same over every run of one engine (R8). -/
structure Config where
  optionOffsets : OptionOffsets
  /-- `BITSTREAM_START` (30_encoding.md R78). -/
  bitstreamStart : Nat
  fieldOrder : FieldOrder
  deriving DecidableEq, Repr

end Sys2Proof
end

