-- ==== Sys2Proof/Machine/Params.lean ====
section
/-! DEFINITION. The constants of the format and the default configuration (00_scope.md R8, 30_encoding.md R70, R71,
44_decode_loop.md R191). -/

namespace Sys2Proof.Machine

/-- The defaults of 00_scope.md R8 (D3, D4, D6; log entry 14). -/
def defaultConfig : Config :=
  { optionOffsets := { raw := 0x31, min := 0x32, ub := 0x33, lbc := 0x34, base := 0x35 }
    bitstreamStart := 0x37
    fieldOrder := .msbFirst }

/-- The 16 bytes "LenZuCompressor" and NUL (30_encoding.md R71). PRESUMED: R71 takes the ASCII codes from general
knowledge (G1; log entry 12). -/
def magic : List Byte :=
  [0x4C, 0x65, 0x6E, 0x5A, 0x75, 0x43, 0x6F, 0x6D, 0x70, 0x72, 0x65, 0x73, 0x73, 0x6F, 0x72, 0x00]

/-- A shorter buffer is not a LenZu stream (30_encoding.md R77). -/
def minStreamLength : Nat := 0x37

/-- Offset of the declared length (30_encoding.md R73). -/
def declenOffset : Nat := 0x20

/-- Offset of the checksum's high half (30_encoding.md R74). -/
def csumHighOffset : Nat := 0x24

/-- Offset of the checksum's low half (30_encoding.md R74). -/
def csumLowOffset : Nat := 0x28

/-- `LUT[i & 3]` of the checksum (44_decode_loop.md R191). -/
def checksumFactor (i : Nat) : Word64 :=
  match i % 4 with
  | 0 => 0xE9
  | 1 => 0x115
  | 2 => 0x137
  | _ => 0x1B1

end Sys2Proof.Machine
end

