-- ==== Sys2Proof/Machine/State.lean ====
section
/-! DEFINITION. The engine's state, the tuple of 10_state.md R20, as plain data; the ways a step can stop; and the
state right after power-on reset (10_state.md R43, 70_reset_and_hazards.md R240). -/

namespace Sys2Proof.Machine

/-- `phase` (10_state.md R21). -/
inductive Phase where
  | idle
  | readHeader
  | readOptions
  | buildTable
  | decodeLoop
  | verifyChecksum
  | done
  | failed
  deriving DecidableEq, Repr

/-- The fault kinds 1 to 9 of 60_exceptions.md R210. Kind 0, `None`, is the register `fault` holding no kind. -/
inductive FaultKind where
  | headerInvalid
  | optionsOutOfRange
  | truncatedStream
  | corruptHuffmanCode
  | checksumMismatch
  | allocationRefused
  | tableIndexOutOfRange
  | backrefOutOfRange
  | outputOverrun
  deriving DecidableEq, Repr

/-- What a `raise` carries: the last column of 60_exceptions.md R210, one constructor per check. Its kind is
`FaultInfo.kind` (Machine/Flags.lean). -/
inductive FaultInfo where
  /-- `L < 0x37` (41_header_options.md R121). -/
  | headerShort (len : Nat)
  /-- The first magic byte that differs (R121). -/
  | headerMagic (offset : Nat)
  /-- The five option bytes (R125). -/
  | options (raw min ub lbc base : Byte)
  /-- A read of `width` bits at position `p` with fewer left (40_bitcursor.md R103, R105). -/
  | bits (p width : Nat)
  /-- A symbol decode with `start <= F` (43_symbol_decoder.md R170). -/
  | degenerate (start : Nat)
  /-- No child of `node` has the bit read (43_symbol_decoder.md R172). -/
  | noMatch (node : Nat) (bit : Bool)
  /-- The computed and the header's checksum (44_decode_loop.md R192). -/
  | checksum (computed expected : Word64)
  /-- The declared length above the budget (41_header_options.md R121). -/
  | budget (declen : Word32)
  /-- The index, or the entry count of an identity preamble (42_table_builder.md R144). -/
  | tableIndex (index : Nat)
  /-- The output position and the distance (44_decode_loop.md R186). -/
  | backref (pos dist : Nat)
  /-- The output position, the length and the declared length (44_decode_loop.md R189). -/
  | overrun (pos count : Nat) (declen : Word32)
  deriving DecidableEq, Repr

/-- The registers that hold no value until their phase writes them (10_state.md R32, 70_reset_and_hazards.md R244). -/
inductive RegName where
  | declen
  | hdrCsum
  | optRaw
  | optMin
  | optUb
  | optLbc
  | optBase
  | hbc
  | firstReal
  | byteWidth
  | tableSize
  | etf
  | indexed
  | start
  deriving DecidableEq, Repr

/-- The stops of the MODEL, none of which the spec's runs reach (the invariant of Safety.lean excludes them all). A
fault of the engine is no stop: it is a next state in phase `failed` (60_exceptions.md R214). -/
inductive Fault where
  /-- Raised by a read of a register that holds no value: 70_reset_and_hazards.md R244, "It must fault, not supply a
  value"; 93_implementation_defined.md I8, "never supplied as a value". Safe. -/
  | unwritten (r : RegName)
  /-- Raised by a read of `IN` at an address the buffer does not have: 00_scope.md R12, "defined only for a < L".
  Safe. -/
  | absentInput (address : Nat)
  /-- Raised by a read of `OUT` at an address that is not below `pos` or holds no byte: 00_scope.md R12, "defined only
  for a < pos". Safe. -/
  | absentOutput (address : Nat)
  deriving DecidableEq, Repr

/-- Why an instruction is refused. -/
inductive Refusal where
  /-- Raised by an arm of `exec` for an instruction without a meaning. No arm raises it: both instructions have
  theirs. Safe. -/
  | notModelled (mnemonic : String)
  deriving DecidableEq, Repr

/-- Why a computation of the engine does not go on: a fault of the engine (60_exceptions.md R214) or a stop of the
model. -/
inductive Stop where
  | raised (info : FaultInfo)
  | halted (fault : Fault)
  deriving DecidableEq, Repr

/-- `cur` (10_state.md R24): the next unread bit of `IN`; bit 7 of a byte is its first bit (00_scope.md R10). -/
structure Cursor where
  byteOffset : Nat
  bitIndex : Fin 8
  deriving DecidableEq, Repr

/-- One entry of `TABLE` (10_state.md R28). -/
structure Entry where
  /-- `ov`: the weight; 0 means an unused slot. -/
  orderValue : Word32
  /-- `cl`: the child that bit 1 selects. -/
  childLow : Option Nat
  /-- `ch`: the child that bit 0 selects. -/
  childHigh : Option Nat
  /-- `bv`: the bit that selects this entry from its parent. -/
  bitValue : Option Bool
  deriving DecidableEq, Repr

/-- An entry no step has written: `ov = 0`, the rest unset (10_state.md R43, D25). -/
def freshEntry : Entry :=
  { orderValue := 0, childLow := none, childHigh := none, bitValue := none }

/-- `TABLE` (10_state.md R28): the entries that differ from the fresh one, by strictly rising index. -/
abbrev Arena := List (Nat × Entry)

/-- A byte space (`IN` or `OUT`, 10_state.md R33): the bytes that exist, by strictly rising address. -/
abbrev Memory := List Host.Cell

/-- The engine's state (10_state.md R20). A register that R32 calls unwritten is `none` until its phase writes it. -/
structure State where
  /-- The parameters of 00_scope.md R8, arguments of every step; no step writes them. -/
  cfg : Config
  /-- MAX_OUTPUT (R8, 60_exceptions.md R226): the budget given at Start, `none` when unbounded. -/
  maxOutput : Option Nat
  /-- R21. -/
  phase : Phase
  /-- R22. -/
  fault : Option FaultKind
  /-- The diagnostic info beside `fault` (60_exceptions.md R214); no step reads it. -/
  faultInfo : Option FaultInfo
  /-- `IN` (R33). -/
  input : Memory
  /-- `L` (R20). -/
  inLen : Nat
  /-- `declen` (R25). -/
  declen : Option Word32
  /-- `hdr_csum` (R25). -/
  hdrCsum : Option Word64
  /-- `opt_raw` (R26). -/
  optRaw : Option Byte
  /-- `opt_min` (R26). -/
  optMin : Option Byte
  /-- `opt_ub` (R26). -/
  optUb : Option Byte
  /-- `opt_lbc` (R26). -/
  optLbc : Option Byte
  /-- `opt_base` (R26). -/
  optBase : Option Byte
  /-- `hbc` (R26). -/
  hbc : Option Nat
  /-- `F`, firstRealEntry (R26). -/
  firstReal : Option Nat
  /-- `bw` (R26). -/
  byteWidth : Option Nat
  /-- `tableSize` (R26). -/
  tableSize : Option Nat
  /-- `etf` (R27). -/
  etf : Option Nat
  /-- `indexed` (R27). -/
  indexed : Option Bool
  /-- `TABLE` (R28). -/
  table : Arena
  /-- `start` (R29). -/
  start : Option Nat
  /-- `cur` (R24). -/
  cur : Cursor
  /-- `OUT` (R33). -/
  out : Memory
  /-- `pos` (R30). -/
  pos : Nat
  deriving DecidableEq, Repr

/-- Power-on reset (70_reset_and_hazards.md R240, 10_state.md R43): phase `Idle`, no fault, every register unwritten;
`cur` and `pos` at the values R32's list gives, the buffers and the arena empty (log entry 2). -/
def State.reset : State :=
  { cfg := defaultConfig
    maxOutput := none
    phase := .idle
    fault := none
    faultInfo := none
    input := []
    inLen := 0
    declen := none
    hdrCsum := none
    optRaw := none
    optMin := none
    optUb := none
    optLbc := none
    optBase := none
    hbc := none
    firstReal := none
    byteWidth := none
    tableSize := none
    etf := none
    indexed := none
    table := []
    start := none
    cur := { byteOffset := defaultConfig.bitstreamStart, bitIndex := 7 }
    out := []
    pos := 0 }

end Sys2Proof.Machine
end

