-- ==== Sys2Proof/Machine/Memory.lean ====
section
/-! DEFINITION. The operations on the byte spaces `IN` and `OUT` and on the arena `TABLE` (10_state.md R28, R33;
00_scope.md R12). Both are lists in one canonical form, kept by every operation (Laws/Memory.lean). -/

namespace Sys2Proof.Machine

/-- The byte at an address; `none` where no byte exists: an unlisted address reads as no value (log entry 11). -/
def Memory.read : Memory → Nat → Option Byte
  | [], _ => none
  | (k, v) :: m, a => if k = a then some v else Memory.read m a

/-- `MemWrite(·, a, 1, v)` (00_scope.md R12): the byte `v` at `a`, in its place by address. No byte equals what an
unlisted address reads as, so a write removes no entry. -/
def Memory.write : Memory → Nat → Byte → Memory
  | [], a, v => [(a, v)]
  | (k, w) :: m, a, v =>
    if a < k then (a, v) :: (k, w) :: m
    else if a = k then (a, v) :: m
    else (k, w) :: Memory.write m a v

/-- Addresses strictly rising, the first at or above `lo`. -/
def Memory.risingFrom : Nat → Memory → Bool
  | _, [] => true
  | lo, (k, _) :: m => decide (lo ≤ k) && Memory.risingFrom (k + 1) m

/-- The canonical form: addresses strictly rising. -/
def Memory.wf (m : Memory) : Bool :=
  Memory.risingFrom 0 m

/-- The space holds exactly the bytes `0 .. n-1`. -/
abbrev Memory.Covers (m : Memory) (n : Nat) : Prop :=
  m.map Prod.fst = List.range n

/-- The cells of consecutive bytes from an address on. -/
def Memory.ofBytesFrom : Nat → List Byte → Memory
  | _, [] => []
  | a, b :: bs => (a, b) :: Memory.ofBytesFrom (a + 1) bs

/-- A buffer of the given bytes from address 0. -/
def Memory.ofBytes (bs : List Byte) : Memory :=
  Memory.ofBytesFrom 0 bs

/-- The bytes `a .. a+n-1`, or the first of these addresses that holds none. -/
def Memory.readRange (m : Memory) : Nat → Nat → Except Nat (List Byte)
  | _, 0 => .ok []
  | a, n + 1 =>
    match m.read a with
    | none => .error a
    | some b =>
      match Memory.readRange m (a + 1) n with
      | .error e => .error e
      | .ok bs => .ok (b :: bs)

/-- Entry `i` of the arena; one that is not listed is fresh (10_state.md R43, log entry 10). -/
def Arena.get : Arena → Nat → Entry
  | [], _ => freshEntry
  | (k, e) :: t, i => if k = i then e else Arena.get t i

/-- The arena with the entry `e`, which is not the fresh one, in its place at index `i`. -/
def Arena.insert : Arena → Nat → Entry → Arena
  | [], i, e => [(i, e)]
  | (k, w) :: t, i, e =>
    if i < k then (i, e) :: (k, w) :: t
    else if i = k then (i, e) :: t
    else (k, w) :: Arena.insert t i e

/-- The arena with entry `i` replaced; a fresh entry is not listed. -/
def Arena.set (t : Arena) (i : Nat) (e : Entry) : Arena :=
  if e = freshEntry then t.filter (fun c => c.1 ≠ i) else Arena.insert t i e

/-- Indices strictly rising from `lo` on, no entry fresh. -/
def Arena.risingFrom : Nat → Arena → Bool
  | _, [] => true
  | lo, (k, e) :: t => decide (lo ≤ k) && decide (e ≠ freshEntry) && Arena.risingFrom (k + 1) t

/-- The canonical form: indices strictly rising, no entry equal to the fresh one. -/
def Arena.wf (t : Arena) : Bool :=
  Arena.risingFrom 0 t

/-- `ov[i]` (00_scope.md R12). -/
def Arena.ov (t : Arena) (i : Nat) : Word32 :=
  (Arena.get t i).orderValue

/-- `cl[i]` (R12). -/
def Arena.cl (t : Arena) (i : Nat) : Option Nat :=
  (Arena.get t i).childLow

/-- `ch[i]` (R12). -/
def Arena.ch (t : Arena) (i : Nat) : Option Nat :=
  (Arena.get t i).childHigh

/-- `bv[i]` (R12). -/
def Arena.bv (t : Arena) (i : Nat) : Option Bool :=
  (Arena.get t i).bitValue

/-- `ov[i] <- w`. -/
def Arena.setOv (t : Arena) (i : Nat) (w : Word32) : Arena :=
  Arena.set t i { Arena.get t i with orderValue := w }

/-- `bv[i] <- b`. -/
def Arena.setBv (t : Arena) (i : Nat) (b : Bool) : Arena :=
  Arena.set t i { Arena.get t i with bitValue := some b }

/-- `ov[i] <- w; cl[i] <- lo; ch[i] <- hi`: the three fields a merge writes in the new node (42_table_builder.md
R147). -/
def Arena.setNode (t : Arena) (i : Nat) (w : Word32) (lo hi : Nat) : Arena :=
  Arena.set t i { Arena.get t i with orderValue := w, childLow := some lo, childHigh := some hi }

end Sys2Proof.Machine
end

