-- ==== Sys2Proof/Machine/BitCursor.lean ====
section
/-! DEFINITION. The bit cursor's operations (40_bitcursor.md R100 to R108), over a buffer and a bit position. The
cursor `(byte_offset, bit_index)` and the position `p` are the same number (00_scope.md R11). -/

namespace Sys2Proof.Machine

/-- `p = 8 * byte_offset + (7 - bit_index)` (00_scope.md R11). -/
def Cursor.position (c : Cursor) : Nat :=
  8 * c.byteOffset + (7 - c.bitIndex.val)

/-- `byte_offset = p div 8`, `bit_index = 7 - (p mod 8)` (00_scope.md R11). -/
def Cursor.ofPosition (p : Nat) : Cursor :=
  { byteOffset := p / 8, bitIndex := ⟨7 - p % 8, by omega⟩ }

/-- What the cursor reads: `IN` and `L` (10_state.md R33). -/
structure Source where
  memory : Memory
  len : Nat
  deriving DecidableEq, Repr

/-- A computation that reads bits: its state is the position `p`, kept where it stops (60_exceptions.md R214). -/
abbrev BitReader := EStateM Stop Nat

/-- `bit(p) = (IN[p div 8] >> (7 - (p mod 8))) & 1` (00_scope.md R11); `none` where `IN` holds no such byte. -/
def Source.bit (src : Source) (p : Nat) : Option Bool :=
  match src.memory.read (p / 8) with
  | none => none
  | some b => some (b.getLsbD (7 - p % 8))

/-- The count of bits not yet read, `8L - p` (40_bitcursor.md R100). -/
def Source.remaining (src : Source) (p : Nat) : Nat :=
  8 * src.len - p

/-- `Exhausted()` (40_bitcursor.md R108): no unread bit remains. -/
def Source.exhausted (src : Source) (p : Nat) : Bool :=
  src.remaining p == 0

/-- The buffer has all its bytes: one at every address below its length, and no other (10_state.md R33). -/
abbrev Source.Complete (src : Source) : Prop :=
  src.memory.Covers src.len

/-- The bits from position `p` on are these, all of them before the end of the buffer. -/
def Source.Holds (src : Source) (p : Nat) (bits : List Bool) : Prop :=
  p + bits.length ≤ 8 * src.len ∧ ∀ k < bits.length, src.bit (p + k) = bits[k]?

/-- The loop of `ReadBits` (40_bitcursor.md R102): `n` bits from `p` on appended to `v`, the first the most significant;
or the address of a byte that `IN` does not hold. -/
def Source.gather (src : Source) : Nat → Nat → Nat → Except Nat Nat
  | _, 0, v => .ok v
  | p, n + 1, v =>
    match src.bit p with
    | none => .error (p / 8)
    | some b => src.gather (p + 1) n ((v <<< 1) ||| b.toNat)

/-- `ReadBits(n)` (40_bitcursor.md R102 to R104). The end of `IN` is checked before any bit is consumed. -/
def readBits (src : Source) (n : Nat) : BitReader Nat := fun p =>
  if n = 0 then .ok 0 p
  else if 8 * src.len < p + n then .error (.raised (.bits p n)) p
  else
    match src.gather p n 0 with
    | .error a => .error (.halted (.absentInput a)) p
    | .ok v => .ok v (p + n)

/-- `PeekBit()` (40_bitcursor.md R105): the next bit, the position unchanged. -/
def peekBit (src : Source) : BitReader Bool := fun p =>
  if 8 * src.len < p + 1 then .error (.raised (.bits p 1)) p
  else
    match src.bit p with
    | none => .error (.halted (.absentInput (p / 8))) p
    | some b => .ok b p

/-- `ConsumeBit()`, which is `ReadBits(1)` (40_bitcursor.md R106). -/
def consumeBit (src : Source) : BitReader Bool := do
  let v ← readBits src 1
  return v != 0

/-- The widths a preamble field can have (40_bitcursor.md R107). -/
inductive FieldWidth where
  | w8
  | w16
  | w32
  deriving DecidableEq, Repr

/-- The count of bits of a field. -/
def FieldWidth.bits : FieldWidth → Nat
  | .w8 => 8
  | .w16 => 16
  | .w32 => 32

/-- The loop of `ReadField` under `LSB_BYTE_FIRST` (40_bitcursor.md R107): byte `k` of the field shifted to its place.
-/
def readBytesLow (src : Source) : Nat → Nat → Nat → BitReader Nat
  | _, 0, v => return v
  | k, n + 1, v => do
    let b ← readBits src 8
    readBytesLow src (k + 1) n (v ||| (b <<< (8 * k)))

/-- `ReadField(n)` (40_bitcursor.md R107). -/
def readField (src : Source) (order : FieldOrder) (w : FieldWidth) : BitReader Nat :=
  match w, order with
  | .w8, _ => readBits src 8
  | .w16, .msbFirst => readBits src 16
  | .w32, .msbFirst => do
    let hi ← readBits src 16
    let lo ← readBits src 16
    return (hi <<< 16) ||| lo
  | .w16, .lsbByteFirst => readBytesLow src 0 2 0
  | .w32, .lsbByteFirst => readBytesLow src 0 4 0

end Sys2Proof.Machine
end

