-- ==== Sys2Proof/Machine/SymbolDecoder.lean ====
section
/-! DEFINITION. The Huffman symbol decoder (43_symbol_decoder.md R170 to R174) and the codewords of a table
(30_encoding.md R87), over the registers it reads: the arena, `start` and `F`. -/

namespace Sys2Proof.Machine

/-- What `DecodeSymbol` reads beside the stream (43_symbol_decoder.md R171): `TABLE`, `start`, `F`. One table serves
every decode of a run (R174). -/
structure CodeTable where
  arena : Arena
  start : Nat
  firstReal : Nat
  deriving DecidableEq, Repr

/-- `bv[c] == b` for a child link `c`; an unset link or an unset bit value matches no bit. -/
def CodeTable.childMatches (t : CodeTable) (c : Option Nat) (b : Bool) : Bool :=
  match c with
  | none => false
  | some i => t.arena.bv i == some b

/-- The child of `node` that the bit `b` selects: `cl[node]` if its bit value is `b`, else `ch[node]` if its bit value
is, else none (43_symbol_decoder.md R171, R172). -/
def CodeTable.child (t : CodeTable) (node : Nat) (b : Bool) : Option Nat :=
  if t.childMatches (t.arena.cl node) b then t.arena.cl node
  else if t.childMatches (t.arena.ch node) b then t.arena.ch node
  else none

/-- The loop of `DecodeSymbol` (43_symbol_decoder.md R171) with at most `n` bits to read: a terminal is the result; an
internal node takes one bit. `n` is the count of unread bits, so with none left the read faults as `ReadBits(1)` does
(log entry 9). -/
def CodeTable.walk (t : CodeTable) (src : Source) : Nat → Nat → BitReader Nat
  | 0, node => fun p =>
    if node < t.firstReal then .ok node p else .error (.raised (.bits p 1)) p
  | n + 1, node =>
    if node < t.firstReal then return node
    else do
      let b ← consumeBit src
      match t.child node b with
      | some next => t.walk src n next
      | none => throw (.raised (.noMatch node b))

/-- `DecodeSymbol()` (43_symbol_decoder.md R170, R171). A degenerate table faults and consumes no bit. -/
def CodeTable.decodeSymbol (t : CodeTable) (src : Source) : BitReader Nat := fun p =>
  if t.start ≤ t.firstReal then .error (.raised (.degenerate t.start)) p
  else t.walk src (src.remaining p) (t.start - 1) p

/-- The bit that selects a child and the rest of the path below it. -/
def consBit (b : Option Bool) (rest : Option (List Bool)) : Option (List Bool) :=
  match b, rest with
  | some b, some w => some (b :: w)
  | _, _ => none

/-- The `bv` values on a path of at most `n` links from `node` down to the terminal `v` (30_encoding.md R87). -/
def CodeTable.pathTo (t : CodeTable) (v : Nat) : Nat → Nat → Option (List Bool)
  | 0, node => if node < t.firstReal ∧ node = v then some [] else none
  | n + 1, node =>
    if node < t.firstReal then (if node = v then some [] else none)
    else
      let low :=
        match t.arena.cl node with
        | none => none
        | some c => consBit (t.arena.bv c) (t.pathTo v n c)
      match low with
      | some w => some w
      | none =>
        match t.arena.ch node with
        | none => none
        | some c => consBit (t.arena.bv c) (t.pathTo v n c)

/-- The codeword of the terminal `v` (30_encoding.md R87): the `bv` values from the root `start - 1` down to it; none
for a terminal the root does not reach. A path has at most `start - F` links, one for each internal node. -/
def CodeTable.codeword (t : CodeTable) (v : Nat) : Option (List Bool) :=
  if t.start ≤ t.firstReal then none
  else t.pathTo v (t.start - t.firstReal) (t.start - 1)

/-- The table TB-1 of 95_test_vectors.md: eight terminals of weight 1, `code(X)` the 3-bit value `7 - X`. It stands for
the loaded stream in the host's check interface (log entry 5). -/
def referenceTable : CodeTable :=
  { arena :=
      [ (0, { orderValue := 1, childLow := none, childHigh := none, bitValue := some true }),
        (1, { orderValue := 1, childLow := none, childHigh := none, bitValue := some false }),
        (2, { orderValue := 1, childLow := none, childHigh := none, bitValue := some true }),
        (3, { orderValue := 1, childLow := none, childHigh := none, bitValue := some false }),
        (4, { orderValue := 1, childLow := none, childHigh := none, bitValue := some true }),
        (5, { orderValue := 1, childLow := none, childHigh := none, bitValue := some false }),
        (6, { orderValue := 1, childLow := none, childHigh := none, bitValue := some true }),
        (7, { orderValue := 1, childLow := none, childHigh := none, bitValue := some false }),
        (8, { orderValue := 2, childLow := some 0, childHigh := some 1, bitValue := some true }),
        (9, { orderValue := 2, childLow := some 2, childHigh := some 3, bitValue := some false }),
        (10, { orderValue := 2, childLow := some 4, childHigh := some 5, bitValue := some true }),
        (11, { orderValue := 2, childLow := some 6, childHigh := some 7, bitValue := some false }),
        (12, { orderValue := 4, childLow := some 8, childHigh := some 9, bitValue := some true }),
        (13, { orderValue := 4, childLow := some 10, childHigh := some 11, bitValue := some false }),
        (14, { orderValue := 8, childLow := some 12, childHigh := some 13, bitValue := none }) ]
    start := 15
    firstReal := 8 }

end Sys2Proof.Machine
end

