-- ==== Sys2Proof/Syntax.lean ====
section
/-! DEFINITION. The instructions of the stream, one constructor per row of spec/opcode_table.json (30_encoding.md R95),
with the operands of the assembler syntax (R93). -/

namespace Sys2Proof

/-- An instruction of the stream (30_encoding.md R83 to R86). Symbols and fields are unsigned naturals (R88). -/
inductive Instr where
  /-- `LIT X, b0, ..., bX` (R85): the length symbol and the literal bytes, first to last. A well-formed one has `x + 1`
  bytes; one with fewer is a run that the end of `IN` cuts off (log entry 8). -/
  | lit (x : Nat) (bytes : List Byte)
  /-- `BREF X, high, low` (R86): the length symbol, the high distance symbol and the low distance bits. -/
  | bref (x : Nat) (high : Nat) (low : Nat)
  deriving DecidableEq, Repr

end Sys2Proof
end

