-- ==== Sys2Proof/WellFormed.lean ====
section
/-! DEFINITION. When an instruction has an encoding in a stream with a given table and `opt_lbc` (30_encoding.md R85
to R88). -/

namespace Sys2Proof

open Sys2Proof.Machine

/-- A symbol is a terminal index (30_encoding.md R88) that has a codeword (R87). -/
def symbolWellFormed (t : CodeTable) (x : Nat) : Bool :=
  decide (x < t.firstReal) && (t.codeword x).isSome

/-- `LIT` has `X + 1` bytes (R85); a `BREF`'s `low` fits in `opt_lbc` bits (R88); every symbol has a codeword. -/
def Instr.wellFormed (t : CodeTable) (lbc : Nat) : Instr → Bool
  | .lit x bytes => symbolWellFormed t x && bytes.length == x + 1
  | .bref x high low => symbolWellFormed t x && symbolWellFormed t high && decide (low < 2 ^ lbc)

end Sys2Proof
end

