-- ==== Sys2Proof/Decode.lean ====
section
/-! DEFINITION. The instruction decoder (30_encoding.md R84 to R89; 44_decode_loop.md R181, R182, R185), total on any
buffer and position and refusing with the fault the spec names, and after it the encoder (R85 to R87). -/

namespace Sys2Proof

open Sys2Proof.Machine

/-- The literal bytes at `p`, each `ReadBits(8)` (20_memory.md R53), first to last: `n` of them, or as many whole ones
as `IN` still has. The position does not move: `LIT` consumes each byte as it writes it (44_decode_loop.md R183,
R184; log entry 8). -/
def literalBytes (src : Source) : Nat → Nat → Except Stop (List Byte)
  | 0, _ => .ok []
  | n + 1, p =>
    match readBits src 8 p with
    | .ok v p' =>
      match literalBytes src n p' with
      | .ok bs => .ok (BitVec.ofNat 8 v :: bs)
      | .error e => .error e
    | .error (.raised _) _ => .ok []
    | .error (.halted f) _ => .error (.halted f)

/-- A `LIT`'s bytes in front of the position, which stays. -/
def decodeLiterals (src : Source) (x : Nat) : BitReader Instr := fun p =>
  match literalBytes src (x + 1) p with
  | .ok bs => .ok (.lit x bs) p
  | .error e => .error e p

/-- One instruction at the position: the selector peeked and consumed (44_decode_loop.md R181), the length symbol
(R182), then for `LIT` its bytes, or for `BREF` the high distance symbol and `opt_lbc` low bits (R185). The position
ends after the selector, the codewords and the low bits. -/
def decodeInstr (t : CodeTable) (lbc : Nat) (src : Source) : BitReader Instr := do
  let sel ← peekBit src
  let _ ← consumeBit src
  let x ← t.decodeSymbol src
  if sel then do
    let high ← t.decodeSymbol src
    let low ← readBits src lbc
    return .bref x high low
  else
    decodeLiterals src x

/-- The `n` low bits of `v`, the most significant first (20_memory.md R51). -/
def natBits : Nat → Nat → List Bool
  | 0, _ => []
  | n + 1, v => v.testBit n :: natBits n v

/-- The bits of consecutive bytes, each the most significant first (R51). -/
def bytesBits : List Byte → List Bool
  | [] => []
  | b :: bs => natBits 8 b.toNat ++ bytesBits bs

/-- The selector, the codewords and the low bits of an instruction (30_encoding.md R85, R86); none where a symbol has no
codeword (R87). -/
def encodeHead (t : CodeTable) (lbc : Nat) : Instr → Option (List Bool)
  | .lit x _ =>
    match t.codeword x with
    | none => none
    | some cx => some (false :: cx)
  | .bref x high low =>
    match t.codeword x, t.codeword high with
    | some cx, some ch => some (true :: (cx ++ (ch ++ natBits lbc low)))
    | _, _ => none

/-- The literal bytes that follow the head (30_encoding.md R85); a `BREF` has none. -/
def encodeTail : Instr → List Bool
  | .lit _ bytes => bytesBits bytes
  | .bref _ _ _ => []

/-- The bits of an instruction, first to last (30_encoding.md R85, R86). -/
def encode (t : CodeTable) (lbc : Nat) (i : Instr) : Option (List Bool) :=
  match encodeHead t lbc i with
  | none => none
  | some h => some (h ++ encodeTail i)

/-- The byte whose bits are the first eight of a list, the first the most significant; missing bits are 0. -/
def byteOfBits (bs : List Bool) : Byte :=
  BitVec.ofNat 8 ((List.range 8).foldl (fun v k => (v <<< 1) ||| (bs.getD k false).toNat) 0)

/-- At most `n` bytes of a bit list, eight bits each, the last padded with zeros. -/
def packBits : Nat → List Bool → List Byte
  | 0, _ => []
  | n + 1, bs => if bs.isEmpty then [] else byteOfBits (bs.take 8) :: packBits n (bs.drop 8)

/-- The longest instruction over `referenceTable` is `LIT` with `X = 7`: 1 + 3 + 64 bits, 9 bytes; one more is zero. -/
def referenceInstrBytes : Nat := 10

/-- The bytes of a table word (log entry 6): bit `k` of `w` is the instruction's bit `k`, first to last, since the
table's bit 0 is the first bit of the instruction, its selector (30_encoding.md R95); every further bit is 0. -/
def tableWordBytes (nbits w : Nat) : List Byte :=
  let bits := (List.range nbits).map (fun k => w.testBit k)
  packBits (nbits + referenceInstrBytes) (bits ++ List.replicate (8 * referenceInstrBytes) false)

/-- What the decoder reads from a table word, over TB-1 and `opt_lbc = 0` (log entry 5). -/
def decodeTableWord (nbits w : Nat) : Option Instr :=
  let bytes := tableWordBytes nbits w
  match decodeInstr referenceTable 0 { memory := Memory.ofBytes bytes, len := bytes.length } 0 with
  | .ok i _ => some i
  | .error _ _ => none

end Sys2Proof
end

