-- ==== Sys2Proof/Machine/Flags.lean ====
section
/-! DEFINITION. The engine has no condition codes (10_state.md R31). Its flag-like state is the host-visible status:
the phase and the fault (R21, R22, 60_exceptions.md R210). -/

namespace Sys2Proof.Machine

/-- The kind of a fault that carries this info (60_exceptions.md R210). -/
def FaultInfo.kind : FaultInfo → FaultKind
  | .headerShort _ => .headerInvalid
  | .headerMagic _ => .headerInvalid
  | .options _ _ _ _ _ => .optionsOutOfRange
  | .bits _ _ => .truncatedStream
  | .degenerate _ => .corruptHuffmanCode
  | .noMatch _ _ => .corruptHuffmanCode
  | .checksum _ _ => .checksumMismatch
  | .budget _ => .allocationRefused
  | .tableIndex _ => .tableIndexOutOfRange
  | .backref _ _ => .backrefOutOfRange
  | .overrun _ _ _ => .outputOverrun

/-- The numeric code of the register `fault` (60_exceptions.md R210, D20). -/
def faultCode : Option FaultKind → Nat
  | none => 0
  | some .headerInvalid => 1
  | some .optionsOutOfRange => 2
  | some .truncatedStream => 3
  | some .corruptHuffmanCode => 4
  | some .checksumMismatch => 5
  | some .allocationRefused => 6
  | some .tableIndexOutOfRange => 7
  | some .backrefOutOfRange => 8
  | some .outputOverrun => 9

/-- The final phases: no step leaves them (10_state.md R21). -/
def Phase.isFinal : Phase → Bool
  | .done => true
  | .failed => true
  | _ => false

/-- The phases in which the engine accepts Start (60_exceptions.md R226). -/
def Phase.acceptsStart : Phase → Bool
  | .idle => true
  | .done => true
  | .failed => true
  | _ => false

/-- The place of a phase in the chain of 10_state.md R21, `Failed` last. -/
def Phase.rank : Phase → Nat
  | .idle => 0
  | .readHeader => 1
  | .readOptions => 2
  | .buildTable => 3
  | .decodeLoop => 4
  | .verifyChecksum => 5
  | .done => 6
  | .failed => 7

end Sys2Proof.Machine
end

