-- ==== Sys2Proof/Machine/Ops.lean ====
section
/-! DEFINITION. The shared operations of the steps: reads of registers and buffers, bit reads that move `cur`, writes to
`OUT`, taking a fault (60_exceptions.md R214), and Start, the only way out of one (R215, R226). -/

namespace Sys2Proof.Machine

/-- A computation of a step. Where it stops, the state is as it stood at the check (60_exceptions.md R212, R214). -/
abbrev Engine := EStateM Stop State

/-- `raise K(info)` (00_scope.md R12). -/
def raise {α : Type} (info : FaultInfo) : Engine α := fun s =>
  .error (.raised info) s

/-- Fault entry (60_exceptions.md R214): `fault <- K; phase <- Failed`, the info recorded beside the kind. It saves no
address, switches no mode and pushes nothing; every other register keeps its value. -/
def State.takeFault (s : State) (info : FaultInfo) : State :=
  { s with phase := .failed, fault := some info.kind, faultInfo := some info }

/-- The outcome of a step: a fault of the engine is a next state in `Failed`; a stop of the model is a fault of the
model. -/
def settle {α : Type} : EStateM.Result Stop State α → Host.Outcome State Fault Refusal
  | .ok _ s => .next s
  | .error (.raised info) s => .next (s.takeFault info)
  | .error (.halted f) _ => .fault f

/-- A read of a register; one that holds no value stops the model (70_reset_and_hazards.md R244). -/
def readReg {α : Type} (r : RegName) (get : State → Option α) : Engine α := fun s =>
  match get s with
  | some v => .ok v s
  | none => .error (.halted (.unwritten r)) s

def readDeclen : Engine Word32 := readReg .declen State.declen
def readHdrCsum : Engine Word64 := readReg .hdrCsum State.hdrCsum
def readOptLbc : Engine Byte := readReg .optLbc State.optLbc
def readOptBase : Engine Byte := readReg .optBase State.optBase
def readFirstReal : Engine Nat := readReg .firstReal State.firstReal
def readByteWidth : Engine Nat := readReg .byteWidth State.byteWidth
def readStart : Engine Nat := readReg .start State.start

/-- A step's writes to registers, as one update of the state. -/
def update (f : State → State) : Engine Unit := fun s =>
  .ok () (f s)

/-- `IN` and `L` as the cursor reads them. -/
def State.source (s : State) : Source :=
  { memory := s.input, len := s.inLen }

/-- The bit position of `cur`. -/
def State.position (s : State) : Nat :=
  s.cur.position

/-- `cur <- p` (00_scope.md R12). -/
def State.moveTo (s : State) (p : Nat) : State :=
  { s with cur := Cursor.ofPosition p }

/-- A bit-reading operation run at `cur`, which moves with it (40_bitcursor.md R109). -/
def readStream {α : Type} (r : Source → BitReader α) : Engine α := fun s =>
  match r s.source s.position with
  | .ok a p => .ok a (s.moveTo p)
  | .error e p => .error e (s.moveTo p)

/-- `MemRead(IN, a, 1)`, defined only for `a < L` (00_scope.md R12). -/
def memReadIn (a : Nat) : Engine Byte := fun s =>
  if a < s.inLen then
    match s.input.read a with
    | some b => .ok b s
    | none => .error (.halted (.absentInput a)) s
  else .error (.halted (.absentInput a)) s

/-- `MemRead(OUT, a, 1)`, defined only for `a < pos` (00_scope.md R12). -/
def memReadOut (a : Nat) : Engine Byte := fun s =>
  if a < s.pos then
    match s.out.read a with
    | some b => .ok b s
    | none => .error (.halted (.absentOutput a)) s
  else .error (.halted (.absentOutput a)) s

/-- `MemWrite(OUT, pos, 1, b); pos <- pos + 1` (10_state.md R30), the only write to `OUT`. -/
def State.pushByte (s : State) (b : Byte) : State :=
  { s with out := s.out.write s.pos b, pos := s.pos + 1 }

/-- `TABLE` replaced. -/
def State.withTable (s : State) (t : Arena) : State :=
  { s with table := t }

/-- `phase <- p`. -/
def State.withPhase (s : State) (p : Phase) : State :=
  { s with phase := p }

/-- The little-endian number of four bytes, lowest address first (20_memory.md R50). -/
def le32 (b0 b1 b2 b3 : Byte) : Word32 :=
  BitVec.ofNat 32 (b0.toNat + 256 * b1.toNat + 65536 * b2.toNat + 16777216 * b3.toNat)

/-- `LE32(IN[a..a+3])` (20_memory.md R50). -/
def readLE32 (a : Nat) : Engine Word32 := do
  let b0 ← memReadIn a
  let b1 ← memReadIn (a + 1)
  let b2 ← memReadIn (a + 2)
  let b3 ← memReadIn (a + 3)
  return le32 b0 b1 b2 b3

/-- The state a Start makes of the engine's parameters, the host's bytes and its budget (10_state.md R43,
70_reset_and_hazards.md R241): every register at its value of R43, the phase `ReadHeader`. Nothing of an earlier run is
in it (R44). -/
def startState (cfg : Config) (bytes : List Byte) (maxOutput : Option Nat) : State :=
  { State.reset with
    cfg := cfg
    maxOutput := maxOutput
    phase := .readHeader
    input := Memory.ofBytes bytes
    inLen := bytes.length
    cur := { byteOffset := cfg.bitstreamStart, bitIndex := 7 } }

/-- Start (60_exceptions.md R226): accepted in `Idle`, `Done` and `Failed`, without effect in any other phase (D37). It
is the only move out of `Failed` (R215). -/
def State.hostStart (s : State) (bytes : List Byte) (maxOutput : Option Nat) : State :=
  if s.phase.acceptsStart then startState s.cfg bytes maxOutput else s

end Sys2Proof.Machine
end

