-- ==== Sys2Proof/Machine/Checksum.lean ====
section
/-! DEFINITION. The checksum and the step `VerifyChecksum` (44_decode_loop.md R191, R192). -/

namespace Sys2Proof.Machine

/-- One byte of the checksum (44_decode_loop.md R191): `csum <- ((csum + B[i]) * LUT[i & 3]) mod 2^64`. -/
def checksumByte (csum : Word64) (i : Nat) (b : Byte) : Word64 :=
  (csum + b.setWidth 64) * checksumFactor i

/-- The checksum loop from byte `i` on. -/
def checksumFrom : Word64 → Nat → List Byte → Word64
  | csum, _, [] => csum
  | csum, i, b :: bs => checksumFrom (checksumByte csum i b) (i + 1) bs

/-- `Checksum(B)` (44_decode_loop.md R191). -/
def checksum (bs : List Byte) : Word64 :=
  checksumFrom 0 0 bs

/-- `OUT[0 .. pos-1]` (44_decode_loop.md R192). -/
def readProduced : Engine (List Byte) := fun s =>
  match s.out.readRange 0 s.pos with
  | .ok bs => .ok bs s
  | .error a => .error (.halted (.absentOutput a)) s

/-- The `VerifyChecksum` step (44_decode_loop.md R192): over the bytes produced, also when the input ended early. -/
def verifyChecksum : Engine Unit := do
  let bs ← readProduced
  let expected ← readHdrCsum
  if checksum bs = expected then update (fun s => s.withPhase .done)
  else raise (.checksum (checksum bs) expected)

end Sys2Proof.Machine
end

