-- ==== Sys2Proof/Machine/Operands.lean ====
section
/-! DEFINITION. Operand assembly (30_encoding.md R88), all unsigned, and the pseudo-instructions that expand to the two
instructions (R94). -/

namespace Sys2Proof.Machine

/-- The count of bytes of a `LIT`, `X + 1` (30_encoding.md R88). -/
def literalLength (x : Nat) : Nat :=
  x + 1

/-- The count of bytes of a `BREF`, `X + opt_base` (30_encoding.md R88). -/
def backrefCount (x : Nat) (base : Byte) : Nat :=
  x + base.toNat

/-- `((high << opt_lbc) | low) + opt_base`, the addition last (44_decode_loop.md R188, C5). -/
def backrefDistance (high low : Nat) (lbc base : Byte) : Nat :=
  ((high <<< lbc.toNat) ||| low) + base.toNat

/-- `LITERAL b0, ..., bk` (30_encoding.md R94): `LIT k, b0, ..., bk`; it needs at least one byte. -/
def pseudoLiteral (bytes : List Byte) : Option Instr :=
  if bytes.isEmpty then none else some (.lit (bytes.length - 1) bytes)

/-- `COPY count, dist` (30_encoding.md R94), for `count` and `dist` not below `opt_base`. -/
def pseudoCopy (count dist : Nat) (lbc base : Byte) : Option Instr :=
  if base.toNat ≤ count ∧ base.toNat ≤ dist then
    some (.bref (count - base.toNat) ((dist - base.toNat) >>> lbc.toNat) ((dist - base.toNat) % 2 ^ lbc.toNat))
  else none

end Sys2Proof.Machine
end

