-- ==== Sys2Proof/Machine/Backref.lean ====
section
/-! DEFINITION. The meaning of `BREF` (44_decode_loop.md R185 to R189). -/

namespace Sys2Proof.Machine

/-- The copy of `n` bytes, one at a time in increasing address order: each byte is read at `pos - dist` after the
previous one is written (44_decode_loop.md R187, 20_memory.md R60, 70_reset_and_hazards.md R251). -/
def copyBytes (dist : Nat) : Nat → Engine Unit
  | 0 => return ()
  | n + 1 => do
    let s ← get
    let b ← memReadOut (s.pos - dist)
    update (fun s => s.pushByte b)
    copyBytes dist n

/-- `BREF X, high, low` after its fields (44_decode_loop.md R185): `BackrefOutOfRange` is checked, then `OutputOverrun`,
then the copy runs (R188). -/
def backrefCopy (x high low : Nat) : Engine Unit := do
  let base ← readOptBase
  let lbc ← readOptLbc
  let s ← get
  if s.pos < backrefDistance high low lbc base then raise (.backref s.pos (backrefDistance high low lbc base))
  else do
    let declen ← readDeclen
    if declen.toNat < s.pos + backrefCount x base then raise (.overrun s.pos (backrefCount x base) declen)
    else copyBytes (backrefDistance high low lbc base) (backrefCount x base)

/-- The meaning of `BREF` (44_decode_loop.md R185), with `cur` after its last field. -/
def execBref (x high low : Nat) (s : State) : Host.Outcome State Fault Refusal :=
  settle (backrefCopy x high low s)

end Sys2Proof.Machine
end

