-- ==== Sys2Proof/Machine/Literal.lean ====
section
/-! DEFINITION. The meaning of `LIT` (44_decode_loop.md R183, R184, R189). -/

namespace Sys2Proof.Machine

/-- One literal byte (44_decode_loop.md R183): the cursor moves past its eight bits and the byte is written at `pos`. -/
def State.putLiteral (s : State) (b : Byte) : State :=
  (s.moveTo (s.position + 8)).pushByte b

/-- The loop of `LIT` (44_decode_loop.md R183, R184): `n` bytes, each written where it is read. A run that the end of
`IN` cuts off faults `TruncatedStream` at the first byte it lacks. -/
def putLiterals : Nat → List Byte → Engine Unit
  | 0, _ => return ()
  | _ + 1, [] => fun s => raise (.bits s.position 8) s
  | n + 1, b :: bs => do
    update (fun s => s.putLiteral b)
    putLiterals n bs

/-- `LIT X, b0 .. bX` after its symbol (44_decode_loop.md R183): the overrun check comes before any byte is read (R188,
R189). -/
def literalRun (x : Nat) (bytes : List Byte) : Engine Unit := do
  let declen ← readDeclen
  let s ← get
  if declen.toNat < s.pos + literalLength x then raise (.overrun s.pos (literalLength x) declen)
  else putLiterals (literalLength x) bytes

/-- The meaning of `LIT` (44_decode_loop.md R183), with `cur` at its first literal byte. -/
def execLit (x : Nat) (bytes : List Byte) (s : State) : Host.Outcome State Fault Refusal :=
  settle (literalRun x bytes s)

end Sys2Proof.Machine
end

