-- ==== Sys2Proof/Machine/Dispatch.lean ====
section
/-! DEFINITION. `exec`: one arm per instruction (30_encoding.md R95). -/

namespace Sys2Proof.Machine

def exec (i : Instr) (s : State) : Host.Outcome State Fault Refusal :=
  match i with
  -- 44_decode_loop.md R183
  | .lit x bytes => Sys2Proof.Machine.execLit x bytes s
  -- 44_decode_loop.md R185
  | .bref x high low => Sys2Proof.Machine.execBref x high low s

end Sys2Proof.Machine
end

