-- ==== Sys2Proof/Machine/DecodeLoop.lean ====
section
/-! DEFINITION. The step of phase `DecodeLoop` (44_decode_loop.md R180 to R182, R190): the exit test, or one instruction
fetched at `cur` and executed. -/

namespace Sys2Proof.Machine

/-- `pos == declen or Exhausted()` (44_decode_loop.md R180). -/
def loopExit : Engine Bool := do
  let declen ← readDeclen
  let s ← get
  return s.pos == declen.toNat || s.source.exhausted s.position

/-- The count of a `BREF`'s low bits, `opt_lbc` (44_decode_loop.md R185). With `opt_lbc` unwritten no low bit is read: a
`LIT` has none, and a `BREF` stops at its own read of `opt_lbc` (`backrefCopy`; log entry 19). -/
def State.lowWidth (s : State) : Nat :=
  match s.optLbc with
  | some lbc => lbc.toNat
  | none => 0

/-- One instruction read at `cur` with the run's one table (43_symbol_decoder.md R174). `cur` ends after the selector,
the codewords and the low bits. -/
def fetch : Engine Instr := do
  let start ← readStart
  let f ← readFirstReal
  let s ← get
  readStream (decodeInstr { arena := s.table, start := start, firstReal := f } s.lowWidth)

/-- The instruction at `cur` executed, or the fault its decoding raised. -/
def runInstr (s : State) : Host.Outcome State Fault Refusal :=
  match fetch s with
  | .ok i t => exec i t
  | .error e t => settle (.error e t : EStateM.Result Stop State Instr)

/-- The step of phase `DecodeLoop` (44_decode_loop.md R180): the step that leaves the loop executes no instruction. -/
def decodeLoopStep (s : State) : Host.Outcome State Fault Refusal :=
  match loopExit s with
  | .ok true t => .next (t.withPhase .verifyChecksum)
  | .ok false t => runInstr t
  | .error e t => settle (.error e t : EStateM.Result Stop State Bool)

end Sys2Proof.Machine
end

