-- ==== Sys2Proof/Machine/Header.lean ====
section
/-! DEFINITION. The steps `ReadHeader` and `ReadOptions` (41_header_options.md R120 to R128). -/

namespace Sys2Proof.Machine

/-- The magic bytes compared in address order from `a` on, each once (41_header_options.md R121, R122). -/
def checkMagic : Nat → List Byte → Engine Unit
  | _, [] => return ()
  | a, m :: ms => do
    let b ← memReadIn a
    if b ≠ m then raise (.headerMagic a) else checkMagic (a + 1) ms

/-- `MAX_OUTPUT != unbounded and declen > MAX_OUTPUT` (41_header_options.md R121, R123). -/
def overBudget (maxOutput : Option Nat) (declen : Word32) : Bool :=
  match maxOutput with
  | none => false
  | some m => decide (m < declen.toNat)

/-- The header registers written (10_state.md R25). -/
def State.withHeader (s : State) (declen : Word32) (csum : Word64) : State :=
  { s with declen := some declen, hdrCsum := some csum }

/-- The `ReadHeader` step (41_header_options.md R121): the length, the magic, the two header registers, the budget. -/
def readHeader : Engine Unit := do
  let s ← get
  if s.inLen < minStreamLength then raise (.headerShort s.inLen)
  else do
    checkMagic 0 magic
    let declen ← readLE32 declenOffset
    let hi ← readLE32 csumHighOffset
    let lo ← readLE32 csumLowOffset
    update (fun s => s.withHeader declen (hi ++ lo))
    if overBudget s.maxOutput declen then raise (.budget declen)
    else update (fun s => s.withPhase .readOptions)

/-- `OptionsValid` (41_header_options.md R126), a plain conjunction on the raw bytes; no value is adjusted (R128). -/
def optionsValid (raw min ub lbc base : Byte) : Bool :=
  decide (3 ≤ raw.toNat ∧ raw.toNat ≤ 15)
    && decide (3 ≤ min.toNat ∧ min.toNat ≤ 15)
    && decide (min.toNat ≤ ub.toNat ∧ ub.toNat ≤ 15)
    && decide (lbc.toNat < ub.toNat)
    && decide (2 ≤ base.toNat ∧ base.toNat ≤ 8)
    && decide (ub.toNat - lbc.toNat ≤ max raw.toNat min.toNat)

/-- `hbc = max(raw, min)` (00_scope.md R7, 41_header_options.md R127). -/
def huffBitCount (raw min : Byte) : Nat :=
  max raw.toNat min.toNat

/-- `bw = ceil(hbc / 8)` (00_scope.md R7). -/
def byteWidthOf (hbc : Nat) : Nat :=
  (hbc + 7) / 8

/-- `tableSize = F * (F + 1) / 2` (00_scope.md R7). -/
def tableSizeOf (f : Nat) : Nat :=
  f * (f + 1) / 2

/-- The option registers written (10_state.md R26). -/
def State.withOptions (s : State) (raw min ub lbc base : Byte) : State :=
  { s with optRaw := some raw, optMin := some min, optUb := some ub, optLbc := some lbc, optBase := some base }

/-- The derived registers written (10_state.md R26, 41_header_options.md R125). -/
def State.withDerived (s : State) (hbc : Nat) : State :=
  { s with
    hbc := some hbc
    firstReal := some (2 ^ hbc)
    byteWidth := some (byteWidthOf hbc)
    tableSize := some (tableSizeOf (2 ^ hbc)) }

/-- The `ReadOptions` step (41_header_options.md R125). -/
def readOptions : Engine Unit := do
  let s ← get
  let raw ← memReadIn s.cfg.optionOffsets.raw
  let min ← memReadIn s.cfg.optionOffsets.min
  let ub ← memReadIn s.cfg.optionOffsets.ub
  let lbc ← memReadIn s.cfg.optionOffsets.lbc
  let base ← memReadIn s.cfg.optionOffsets.base
  update (fun s => s.withOptions raw min ub lbc base)
  if optionsValid raw min ub lbc base then
    update (fun s => (s.withDerived (huffBitCount raw min)).withPhase .buildTable)
  else raise (.options raw min ub lbc base)

end Sys2Proof.Machine
end

