-- ==== Sys2Proof/Machine/TableBuilder.lean ====
section
/-! DEFINITION. The Huffman-tree builder (42_table_builder.md R140 to R151): the fill stage, then the merge stage. -/

namespace Sys2Proof.Machine

/-- A slot is eligible when its weight is not 0 and its bit value is unset (42_table_builder.md R146); the scan itself
covers the slots below `current`. -/
def Arena.eligible (t : Arena) (i : Nat) : Bool :=
  t.ov i != 0 && t.bv i == none

/-- The scan's choice at slot `i` (42_table_builder.md R149): strict comparisons, so the first found wins a tie. -/
def scanSlot (t : Arena) (best : Option Nat × Option Nat) (i : Nat) : Option Nat × Option Nat :=
  if t.eligible i then
    match best with
    | (none, _) => (some i, none)
    | (some a, second) =>
      if t.ov i < t.ov a then (some i, some a)
      else
        match second with
        | none => (some a, some i)
        | some b => if t.ov i < t.ov b then (some a, some i) else (some a, some b)
  else best

/-- `TwoSmallest(current)` (42_table_builder.md R149): one left-to-right scan of the slots below `current`. -/
def twoSmallest (t : Arena) (current : Nat) : Option Nat × Option Nat :=
  (List.range current).foldl (scanSlot t) (none, none)

/-- One merge (42_table_builder.md R147, R148): `a` gets bit 1, `b` bit 0, and the node `current` their sum modulo 2^32
and the two links. -/
def mergeNode (t : Arena) (current a b : Nat) : Arena :=
  ((t.setBv a true).setBv b false).setNode current (t.ov a + t.ov b) a b

/-- The merge loop (42_table_builder.md R147) for at most `n` rounds. A round that merges leaves at least one eligible
slot fewer, and `F` slots at most are eligible at first (10_state.md R34), so `F + 1` rounds always end it (log
entry 9). -/
def mergeLoop (firstReal : Nat) : Nat → Arena → Nat → Arena × Nat
  | 0, t, current => (t, current)
  | n + 1, t, current =>
    match twoSmallest t current with
    | (some a, some b) => mergeLoop firstReal n (mergeNode t current a b) (current + 1)
    | (some a, none) => (if current ≤ firstReal then t.setBv a true else t, current)
    | (none, _) => (t, current)

/-- The merge stage from `current = F` (42_table_builder.md R147, R150): the arena and `start`. -/
def mergeStage (firstReal : Nat) (t : Arena) : Arena × Nat :=
  mergeLoop firstReal (firstReal + 1) t firstReal

/-- The width of the entry count and of an index, `bw * 8` bits with `bw` 1 or 2 (30_encoding.md R79, R80). -/
def indexWidth (bw : Nat) : FieldWidth :=
  if bw = 1 then .w8 else .w16

/-- `ReadField` at `cur` (40_bitcursor.md R107). -/
def readPreamble (w : FieldWidth) : Engine Nat := fun s =>
  readStream (fun src => readField src s.cfg.fieldOrder w) s

/-- The index of entry `k`: read in the indexed form, `k` in the identity form (42_table_builder.md R143). -/
def readIndex (indexed : Bool) (bw k : Nat) : Engine Nat :=
  if indexed then readPreamble (indexWidth bw) else return k

/-- `ov[idx] <- w` (42_table_builder.md R143); a later entry for a slot replaces an earlier one (R145). -/
def State.storeWeight (s : State) (idx w : Nat) : State :=
  s.withTable (s.table.setOv idx (BitVec.ofNat 32 w))

/-- The fill loop (42_table_builder.md R143) for the entries `k .. k+n-1`. An index out of range faults before its
weight is read (R144). -/
def fillLoop (firstReal bw : Nat) (indexed : Bool) : Nat → Nat → Engine Unit
  | _, 0 => return ()
  | k, n + 1 => do
    let idx ← readIndex indexed bw k
    if firstReal ≤ idx then raise (.tableIndex idx)
    else do
      let w ← readPreamble .w32
      update (fun s => s.storeWeight idx w)
      fillLoop firstReal bw indexed (k + 1) n

/-- A count of 0 stands for `F` (42_table_builder.md R141). -/
def entriesToFill (firstReal raw : Nat) : Nat :=
  if raw = 0 then firstReal else raw

/-- `indexed <- not (F*4 < (bw+4)*etf)` (42_table_builder.md R142, 30_encoding.md R81). -/
def isIndexed (firstReal bw etf : Nat) : Bool :=
  !decide (firstReal * 4 < (bw + 4) * etf)

/-- The preamble registers written (10_state.md R27). -/
def State.withPreamble (s : State) (etf : Nat) (indexed : Bool) : State :=
  { s with etf := some etf, indexed := some indexed }

/-- The merge stage over the filled arena, then phase `DecodeLoop` (42_table_builder.md R147, R150, R151). -/
def State.mergeTable (s : State) (firstReal : Nat) : State :=
  { s with
    table := (mergeStage firstReal s.table).1
    start := some (mergeStage firstReal s.table).2
    phase := .decodeLoop }

/-- The `BuildTable` step (42_table_builder.md R140). It runs even when `declen` is 0. -/
def buildTable : Engine Unit := do
  let bw ← readByteWidth
  let raw ← readPreamble (indexWidth bw)
  let f ← readFirstReal
  let etf := entriesToFill f raw
  let indexed := isIndexed f bw etf
  update (fun s => s.withPreamble etf indexed)
  if indexed = false ∧ f < etf then raise (.tableIndex etf)
  else do
    fillLoop f bw indexed 0 etf
    update (fun s => s.mergeTable f)

end Sys2Proof.Machine
end

