-- ==== Sys2Proof/Machine/Loader.lean ====
section
/-! DEFINITION. A stream's bytes from the parts of the assembler syntax (30_encoding.md R70, R79, R80, R93), and the
state in which the first instruction of the reference stream (table TB-1 of 95_test_vectors.md) is next. It stands for
the host's load of a program and the three steps after Start (log entry 5). -/

namespace Sys2Proof.Machine

/-- A 32-bit number's bytes, the least significant first (20_memory.md R50). -/
def le32Bytes (w : Word32) : List Byte :=
  [w.setWidth 8, (w >>> 8).setWidth 8, (w >>> 16).setWidth 8, (w >>> 24).setWidth 8]

/-- `.header` (30_encoding.md R93): bytes 0x00 to 0x2F of R70, the tail and the reserved bytes zero. -/
def headerBytes (declen : Word32) (csum : Word64) : List Byte :=
  magic ++ List.replicate 16 (0 : Byte) ++ le32Bytes declen ++ le32Bytes ((csum >>> 32).setWidth 32) ++
    le32Bytes (csum.setWidth 32) ++ List.replicate 4 (0 : Byte)

/-- `.options` (30_encoding.md R93): bytes 0x30 to 0x36 of R70 at the default offsets (R76). -/
def optionBytes (raw min ub lbc base : Byte) : List Byte :=
  [0, raw, min, ub, lbc, base, 0]

/-- The bits of a preamble field of `n` bytes (40_bitcursor.md R107): under `MSB_FIRST` the most significant bit first,
under `LSB_BYTE_FIRST` the least significant byte first. -/
def fieldBits (order : FieldOrder) (n v : Nat) : List Bool :=
  match order with
  | .msbFirst => natBits (8 * n) v
  | .lsbByteFirst => (List.range n).flatMap fun k => natBits 8 (v >>> (8 * k))

/-- The bits of one preamble entry (30_encoding.md R80): the index in the indexed form, then the weight. -/
def entryBits (order : FieldOrder) (bw : Nat) (index : Option Nat) (weight : Word32) : List Bool :=
  match index with
  | none => fieldBits order 4 weight.toNat
  | some i => fieldBits order bw i ++ fieldBits order 4 weight.toNat

/-- The bits of a table preamble (30_encoding.md R79, R80): the count as given, then the entries. -/
def preambleBits (order : FieldOrder) (bw count : Nat) (entries : List (Option Nat × Word32)) : List Bool :=
  fieldBits order bw count ++ entries.flatMap fun e => entryBits order bw e.1 e.2

/-- A whole stream (30_encoding.md R70, R78), the last byte padded with zeros. -/
def streamBytes (declen : Word32) (csum : Word64) (options : List Byte) (bits : List Bool) : List Byte :=
  headerBytes declen csum ++ options ++ packBits bits.length bits

/-- The identity preamble of TB-1: a count of 0, then eight weights of 1. -/
def referencePreamble : List Bool :=
  preambleBits .msbFirst 1 0 (List.replicate 8 (none, 1))

/-- The stream before the first instruction: the largest declared length, checksum 0, the options of program P1 and the
preamble of TB-1. -/
def referencePreface : List Byte :=
  headerBytes 0xFFFFFFFF 0 ++ optionBytes 3 3 3 0 2 ++ packBits 33 referencePreamble

/-- The state in which the bytes of an instruction stand next in a stream with table TB-1: `IN`, `L`, every register
the steps `ReadHeader`, `ReadOptions` and `BuildTable` write, `cur` and the phase. The parameters, the budget, `OUT`
and `pos` stay. -/
def State.loadInstr (s : State) (bytes : List Byte) : State :=
  { s with
    phase := .decodeLoop
    fault := none
    faultInfo := none
    input := Memory.ofBytes (referencePreface ++ bytes)
    inLen := (referencePreface ++ bytes).length
    declen := some 0xFFFFFFFF
    hdrCsum := some 0
    optRaw := some 3
    optMin := some 3
    optUb := some 3
    optLbc := some 0
    optBase := some 2
    hbc := some 3
    firstReal := some 8
    byteWidth := some 1
    tableSize := some 36
    etf := some 8
    indexed := some false
    table := referenceTable.arena
    start := some referenceTable.start
    cur := { byteOffset := 0x58, bitIndex := 7 } }

end Sys2Proof.Machine
end

