-- ==== Sys2Proof/Machine/Step.lean ====
section
/-! DEFINITION. One step of the phase machine (00_scope.md R14, 10_state.md R21), and the host's placing of an
instruction where the next step fetches. -/

namespace Sys2Proof.Machine

/-- One atomic transition (00_scope.md R14). In `Idle` the engine does nothing until a Start (70_reset_and_hazards.md
R240), and no step leaves `Done` or `Failed` (10_state.md R21, 60_exceptions.md R215): the state stays (log entry 4). -/
def step (s : State) : Host.Outcome State Fault Refusal :=
  match s.phase with
  | .idle => .next s
  | .readHeader => settle (readHeader s)
  | .readOptions => settle (readOptions s)
  | .buildTable => settle (buildTable s)
  | .decodeLoop => decodeLoopStep s
  | .verifyChecksum => settle (verifyChecksum s)
  | .done => .next s
  | .failed => .next s

/-- The state whose next step fetches and runs the instruction of a table word (log entries 5 and 6). -/
def State.withFetchWord (s : State) (nbits w : Nat) : State :=
  s.loadInstr (tableWordBytes nbits w)

end Sys2Proof.Machine
end

