-- ==== Sys2Proof/Machine/HostInterface.lean ====
section
/-! DEFINITION. What the host may read (60_exceptions.md R227, 10_state.md R32). Start is `State.hostStart`
(Machine/Ops.lean). Reading changes nothing. -/

namespace Sys2Proof.Machine

/-- The registers of 10_state.md R32, by name. -/
structure HostView where
  phase : Phase
  fault : Nat
  declen : Option Word32
  hdrCsum : Option Word64
  optRaw : Option Byte
  optMin : Option Byte
  optUb : Option Byte
  optLbc : Option Byte
  optBase : Option Byte
  hbc : Option Nat
  firstReal : Option Nat
  byteWidth : Option Nat
  tableSize : Option Nat
  etf : Option Nat
  indexed : Option Bool
  start : Option Nat
  cur : Cursor
  pos : Nat
  deriving DecidableEq, Repr

/-- A status read, allowed at any time (60_exceptions.md R227); the fault as its code (R210). DESIGN CHOICE: a register
that is still unwritten reads as no value, `none`, and the host's read of it is no fault (log entry 20). DESIGN CHOICE:
in phase `Failed` the read shows the registers as they were left at the check (log entry 21). -/
def State.hostView (s : State) : HostView :=
  { phase := s.phase
    fault := faultCode s.fault
    declen := s.declen
    hdrCsum := s.hdrCsum
    optRaw := s.optRaw
    optMin := s.optMin
    optUb := s.optUb
    optLbc := s.optLbc
    optBase := s.optBase
    hbc := s.hbc
    firstReal := s.firstReal
    byteWidth := s.byteWidth
    tableSize := s.tableSize
    etf := s.etf
    indexed := s.indexed
    start := s.start
    cur := s.cur
    pos := s.pos }

/-- The `Ok` result: `OUT[0 .. pos-1]` in phase `Done`, nothing in any other phase (60_exceptions.md R227, 20_memory.md
R66, 44_decode_loop.md R193). -/
def State.result (s : State) : Option (List Byte) :=
  if s.phase = .done then
    match s.out.readRange 0 s.pos with
    | .ok bs => some bs
    | .error _ => none
  else none

/-- The `Err` result: the fault kind in phase `Failed` (60_exceptions.md R227). -/
def State.faultResult (s : State) : Option FaultKind :=
  if s.phase = .failed then s.fault else none

end Sys2Proof.Machine
end

