-- ==== Sys2Proof/Safety.lean ====
section
/-! DEFINITION. What the statements speak of: complete buffers, the tree a table holds, the canonical form, and the
invariant of a run, which says what each phase may rely on (70_reset_and_hazards.md R244). -/

namespace Sys2Proof.Machine

/-- `IN` holds exactly the bytes `0 .. L-1` (10_state.md R33, 70_reset_and_hazards.md R242). -/
abbrev State.InputComplete (s : State) : Prop :=
  s.source.Complete

/-- `OUT` holds exactly the bytes `0 .. pos-1` (10_state.md R30, 20_memory.md R59, D26). -/
abbrev State.OutputExact (s : State) : Prop :=
  s.out.Covers s.pos

/-- Byte `a` of `IN` as a number. -/
def State.inputByte (s : State) (a : Nat) : Nat :=
  match s.input.read a with
  | some b => b.toNat
  | none => 0

/-- `LE32(IN[a..a+3])` as a number (20_memory.md R50). -/
def State.inputLE32 (s : State) (a : Nat) : Nat :=
  s.inputByte a + 256 * s.inputByte (a + 1) + 65536 * s.inputByte (a + 2) + 16777216 * s.inputByte (a + 3)

/-- `c` is a child of the node `n`. -/
def CodeTable.IsChild (t : CodeTable) (n c : Nat) : Prop :=
  t.arena.cl n = some c ∨ t.arena.ch n = some c

/-- The internal nodes `F .. start-1` form a full tree (42_table_builder.md R147): both children of a node have lower
indices, the low one bit value 1 and the high one bit value 0; and, since a slot gets a bit value at most once, no slot
is the child of two nodes. -/
structure CodeTable.Tree (t : CodeTable) : Prop where
  links : ∀ n, t.firstReal ≤ n → n < t.start → ∃ lo hi, t.arena.cl n = some lo ∧ t.arena.ch n = some hi ∧ lo < n ∧
    hi < n ∧ t.arena.bv lo = some true ∧ t.arena.bv hi = some false
  parent : ∀ n m c, t.firstReal ≤ n → n < t.start → t.firstReal ≤ m → m < t.start → t.IsChild n c → t.IsChild m c →
    n = m

/-- Every memory and the arena have their canonical form. -/
def State.Canonical (s : State) : Prop :=
  Memory.wf s.input = true ∧ Memory.wf s.out = true ∧ Arena.wf s.table = true

/-- The option offsets lie in the bytes that `ReadHeader` checked (41_header_options.md R125). -/
def offsetsInHeader (c : Config) : Prop :=
  c.optionOffsets.raw < minStreamLength ∧ c.optionOffsets.min < minStreamLength ∧
    c.optionOffsets.ub < minStreamLength ∧ c.optionOffsets.lbc < minStreamLength ∧
    c.optionOffsets.base < minStreamLength

/-- The phases before the table is built, in which the run is as Start left it (42_table_builder.md R140). -/
def Phase.beforeTable : Phase → Bool
  | .readHeader => true
  | .readOptions => true
  | .buildTable => true
  | _ => false

/-- The phases after `ReadHeader`, the failed one apart. -/
def Phase.afterHeader : Phase → Bool
  | .readOptions => true
  | .buildTable => true
  | .decodeLoop => true
  | .verifyChecksum => true
  | .done => true
  | _ => false

/-- The phases after `ReadOptions`, the failed one apart. -/
def Phase.afterOptions : Phase → Bool
  | .buildTable => true
  | .decodeLoop => true
  | .verifyChecksum => true
  | .done => true
  | _ => false

/-- The phases after `BuildTable`, the failed one apart. -/
def Phase.afterTable : Phase → Bool
  | .decodeLoop => true
  | .verifyChecksum => true
  | .done => true
  | _ => false

/-- No table, no output and the cursor at the stream's start (10_state.md R43). -/
def State.Unbuilt (s : State) : Prop :=
  s.table = [] ∧ s.pos = 0 ∧ s.cur = { byteOffset := s.cfg.bitstreamStart, bitIndex := 7 }

/-- The header registers hold values (10_state.md R25) and `pos` is at most `declen` (R30). -/
def State.HeaderWritten (s : State) : Prop :=
  ∃ d c, s.declen = some d ∧ s.hdrCsum = some c ∧ s.pos ≤ d.toNat

/-- The option registers hold valid values and the derived ones theirs (10_state.md R26). -/
def State.OptionsWritten (s : State) : Prop :=
  ∃ raw min ub lbc base, s.optRaw = some raw ∧ s.optMin = some min ∧ s.optUb = some ub ∧ s.optLbc = some lbc ∧
    s.optBase = some base ∧ optionsValid raw min ub lbc base = true ∧
    s.hbc = some (huffBitCount raw min) ∧ s.firstReal = some (2 ^ huffBitCount raw min) ∧
    s.byteWidth = some (byteWidthOf (huffBitCount raw min)) ∧
    s.tableSize = some (tableSizeOf (2 ^ huffBitCount raw min))

/-- The preamble registers and `start` hold values (10_state.md R27, R29), the table is a tree, and no entry from
`2F - 1` on was written (R34). -/
def State.TableWritten (s : State) : Prop :=
  ∃ f e x st, s.firstReal = some f ∧ s.etf = some e ∧ s.indexed = some x ∧ s.start = some st ∧ e < 2 ^ 16 ∧
    f ≤ st ∧ st ≤ 2 * f - 1 ∧ CodeTable.Tree { arena := s.table, start := st, firstReal := f } ∧
    ∀ i, 2 * f - 1 ≤ i → Arena.get s.table i = freshEntry

/-- The invariant of a run: what holds between any two steps, phase by phase. -/
structure State.Inv (s : State) : Prop where
  offsets : offsetsInHeader s.cfg
  input : s.InputComplete
  output : s.OutputExact
  fault : s.phase = .failed ↔ s.fault ≠ none
  unbuilt : s.phase.beforeTable = true → s.Unbuilt
  header : s.phase.afterHeader = true → minStreamLength ≤ s.inLen ∧ s.HeaderWritten
  options : s.phase.afterOptions = true → s.OptionsWritten
  table : s.phase.afterTable = true → s.TableWritten ∧ s.position ≤ 8 * s.inLen

/-- The bytes of `IN` that no rule reads: the tail, the reserved bytes, byte 0x30 and byte 0x36 (30_encoding.md R72,
R75, R76). -/
def ignoredAddress (a : Nat) : Prop :=
  (0x10 ≤ a ∧ a ≤ 0x1F) ∨ (0x2C ≤ a ∧ a ≤ 0x30) ∨ a = 0x36

end Sys2Proof.Machine
end

