-- ==== Sys2Proof/Certificates/Slice0/Obligations.lean ====
section
/-! DEFINITION. The statements for the provers, in the order of spec/'s files. Each docstring names the rule of spec/ it
formalises, or says that the statement is derived and from what. -/

open Sys2Proof Sys2Proof.Machine

/-! ## The bit cursor (40_bitcursor.md) -/

/-- R102, with R103 and R104 as its clauses: over a complete buffer, `ReadBits(0)` returns 0 and does not move; a read
past the end faults with no bit consumed; any other read returns the number whose most significant bit is the first
bit read. Which bits those are, in bytes of `IN` (R53 and the 16-bit field of R51): an aligned 8-bit read is the byte at
the cursor, an unaligned one the last bits of that byte followed by the first of the next, and an aligned 16-bit read
two bytes, the first the more significant. -/
def Obligations.ReadBitsTakesMostSignificantBitFirst : Prop :=
  ∀ (src : Source) (n p : Nat), src.Complete →
    (n = 0 → readBits src n p = .ok 0 p) ∧
    (0 < n → 8 * src.len < p + n → readBits src n p = .error (.raised (.bits p n)) p) ∧
    (p + n ≤ 8 * src.len →
      ∃ v, readBits src n p = .ok v (p + n) ∧ v < 2 ^ n ∧
        ∀ k < n, src.bit (p + k) = some (v.testBit (n - 1 - k))) ∧
    ∀ (b : Nat) (x : Byte), b < src.len → src.memory.read b = some x →
      readBits src 8 (8 * b) = .ok x.toNat (8 * b + 8) ∧
      ∀ y : Byte, b + 1 < src.len → src.memory.read (b + 1) = some y →
        readBits src 16 (8 * b) = .ok (x.toNat * 256 + y.toNat) (8 * b + 16) ∧
        ∀ r, 0 < r → r < 8 →
          readBits src 8 (8 * b + r) =
            .ok (x.toNat % 2 ^ (8 - r) * 2 ^ r + y.toNat / 2 ^ (8 - r)) (8 * b + r + 8)

/-- Derived from R105 and R106: `PeekBit` and the one-bit read answer the same bit; only the read moves; both fault at
the end. -/
def Obligations.PeekBitShowsTheBitConsumeBitTakes : Prop :=
  ∀ (src : Source) (p : Nat), src.Complete →
    (8 * src.len < p + 1 →
      peekBit src p = .error (.raised (.bits p 1)) p ∧ consumeBit src p = .error (.raised (.bits p 1)) p) ∧
    (p + 1 ≤ 8 * src.len →
      ∃ b, src.bit p = some b ∧ peekBit src p = .ok b p ∧ consumeBit src p = .ok b (p + 1))

/-- R107: a preamble field is read whole, most significant bit first under `MSB_FIRST`, byte by byte from the least
significant byte under `LSB_BYTE_FIRST`; or the run faults `TruncatedStream`. -/
def Obligations.ReadFieldAssemblesByFieldOrder : Prop :=
  ∀ (src : Source) (order : FieldOrder) (w : FieldWidth) (p : Nat), src.Complete →
    (8 * src.len < p + w.bits → ∃ q n, readField src order w p = .error (.raised (.bits q n)) q) ∧
    (p + w.bits ≤ 8 * src.len →
      ∃ v, readField src order w p = .ok v (p + w.bits) ∧ v < 2 ^ w.bits ∧
        (order = .msbFirst → ∀ k < w.bits, src.bit (p + k) = some (v.testBit (w.bits - 1 - k))) ∧
        (order = .lsbByteFirst →
          ∀ j i, j < w.bits / 8 → i < 8 → src.bit (p + 8 * j + i) = some (v.testBit (8 * j + (7 - i)))))

/-- Derived from R107's corner case: under `MSB_FIRST` a 32-bit field is one 32-bit most-significant-first read, for any
buffer. -/
def Obligations.WideFieldIsOneMsbFirstRead : Prop :=
  ∀ (src : Source) (p v q : Nat),
    readField src .msbFirst .w32 p = .ok v q ↔ readBits src 32 p = .ok v q

/-- Derived (00_scope.md R11 is the spec's own inference): cursor and bit position are the same number. -/
def Obligations.CursorAndPositionAgree : Prop :=
  (∀ p, (Cursor.ofPosition p).position = p) ∧ (∀ c, Cursor.ofPosition c.position = c) ∧
    ∀ p, (Cursor.ofPosition p).byteOffset = p / 8 ∧ (Cursor.ofPosition p).bitIndex.val = 7 - p % 8

/-! ## Header and options (41_header_options.md) -/

/-- Derived from R121 with the header's layout of R50, R71, R73, R74: the `ReadHeader` step, check by check in its order;
every register it does not name is unchanged. The magic's byte values (log entry 12) and the info a fault records (log
entry 7) are the model's choices. -/
def Obligations.ReadHeaderChecksThenLoads : Prop :=
  magic = [0x4C, 0x65, 0x6E, 0x5A, 0x75, 0x43, 0x6F, 0x6D, 0x70, 0x72, 0x65, 0x73, 0x73, 0x6F, 0x72, 0x00] ∧
  ∀ s : State, s.phase = .readHeader → s.InputComplete →
    (s.inLen < 0x37 → step s = .next (s.takeFault (.headerShort s.inLen))) ∧
    (0x37 ≤ s.inLen → ∀ a < 16, (∀ b < a, s.input.read b = magic[b]?) → s.input.read a ≠ magic[a]? →
      step s = .next (s.takeFault (.headerMagic a))) ∧
    (0x37 ≤ s.inLen → (∀ a < 16, s.input.read a = magic[a]?) →
      ∃ (d : Word32) (c : Word64), d.toNat = s.inputLE32 0x20 ∧
        c.toNat = 2 ^ 32 * s.inputLE32 0x24 + s.inputLE32 0x28 ∧
        ((∃ m, s.maxOutput = some m ∧ m < d.toNat) →
          step s = .next (({ s with declen := some d, hdrCsum := some c } : State).takeFault (.budget d))) ∧
        ((∀ m, s.maxOutput = some m → d.toNat ≤ m) →
          step s = .next { s with declen := some d, hdrCsum := some c, phase := .readOptions }))

/-- Derived from R125 and R126: the `ReadOptions` step: valid options are stored as they are and the derived registers
computed; any invalid option faults and none is adjusted. The info the fault records is the model's choice (log
entry 7). -/
def Obligations.ReadOptionsAcceptsExactlyValidOptions : Prop :=
  ∀ (s : State) (raw min ub lbc base : Byte), s.phase = .readOptions →
    s.cfg.optionOffsets.raw < s.inLen → s.input.read s.cfg.optionOffsets.raw = some raw →
    s.cfg.optionOffsets.min < s.inLen → s.input.read s.cfg.optionOffsets.min = some min →
    s.cfg.optionOffsets.ub < s.inLen → s.input.read s.cfg.optionOffsets.ub = some ub →
    s.cfg.optionOffsets.lbc < s.inLen → s.input.read s.cfg.optionOffsets.lbc = some lbc →
    s.cfg.optionOffsets.base < s.inLen → s.input.read s.cfg.optionOffsets.base = some base →
    ((3 ≤ raw.toNat ∧ raw.toNat ≤ 15 ∧ 3 ≤ min.toNat ∧ min.toNat ≤ 15 ∧ min.toNat ≤ ub.toNat ∧ ub.toNat ≤ 15 ∧
        lbc.toNat < ub.toNat ∧ 2 ≤ base.toNat ∧ base.toNat ≤ 8 ∧
        ub.toNat - lbc.toNat ≤ max raw.toNat min.toNat) →
      step s = .next
        { s with
          optRaw := some raw, optMin := some min, optUb := some ub, optLbc := some lbc, optBase := some base
          hbc := some (max raw.toNat min.toNat)
          firstReal := some (2 ^ max raw.toNat min.toNat)
          byteWidth := some ((max raw.toNat min.toNat + 7) / 8)
          tableSize := some (2 ^ max raw.toNat min.toNat * (2 ^ max raw.toNat min.toNat + 1) / 2)
          phase := .buildTable }) ∧
    (¬ (3 ≤ raw.toNat ∧ raw.toNat ≤ 15 ∧ 3 ≤ min.toNat ∧ min.toNat ≤ 15 ∧ min.toNat ≤ ub.toNat ∧ ub.toNat ≤ 15 ∧
        lbc.toNat < ub.toNat ∧ 2 ≤ base.toNat ∧ base.toNat ≤ 8 ∧
        ub.toNat - lbc.toNat ≤ max raw.toNat min.toNat) →
      step s = .next
        (({ s with optRaw := some raw, optMin := some min, optUb := some ub, optLbc := some lbc,
                   optBase := some base } : State).takeFault (.options raw min ub lbc base)))

/-- Derived from 00_scope.md R7 and R126: valid options give `hbc` 3..15, `F` 8..32768, `bw` 1 up to `hbc` 8 and 2
above, `tableSize` 36..536887296. -/
def Obligations.DerivedOptionRegistersStayInRange : Prop :=
  ∀ raw min ub lbc base : Byte, optionsValid raw min ub lbc base = true →
    3 ≤ huffBitCount raw min ∧ huffBitCount raw min ≤ 15 ∧
    8 ≤ 2 ^ huffBitCount raw min ∧ 2 ^ huffBitCount raw min ≤ 32768 ∧
    byteWidthOf (huffBitCount raw min) = (if huffBitCount raw min ≤ 8 then 1 else 2) ∧
    36 ≤ tableSizeOf (2 ^ huffBitCount raw min) ∧ tableSizeOf (2 ^ huffBitCount raw min) ≤ 536887296

/-! ## The Huffman-tree builder (42_table_builder.md) -/

/-- Derived from R149 (the lexicographic form is the spec's own inference from the scan): `s1` is the eligible slot with
the least `(ov[i], i)`, `s2` the least among the rest. -/
def Obligations.TwoSmallestAreLexicographicallyLeast : Prop :=
  ∀ (t : Arena) (n : Nat),
    let e := fun i => i < n ∧ t.ov i ≠ 0 ∧ t.bv i = none
    let before := fun i j => t.ov i < t.ov j ∨ (t.ov i = t.ov j ∧ i < j)
    ((twoSmallest t n).1 = none ↔ ∀ i, ¬ e i) ∧
    (∀ a, (twoSmallest t n).1 = some a ↔ e a ∧ ∀ j, e j → j ≠ a → before a j) ∧
    (∀ b, (twoSmallest t n).2 = some b ↔
      ∃ a, (twoSmallest t n).1 = some a ∧ e b ∧ b ≠ a ∧ ∀ j, e j → j ≠ a → j ≠ b → before b j)

/-- Derived from R147 and R148: one merge sets the two bit values and the new node, its weight the sum modulo 2^32, and
changes no other field of the arena. -/
def Obligations.MergeWritesTwoBitsAndOneNode : Prop :=
  ∀ (t : Arena) (c a b : Nat), a ≠ b → a < c → b < c →
    (mergeNode t c a b).bv a = some true ∧ (mergeNode t c a b).bv b = some false ∧
    ((mergeNode t c a b).ov c).toNat = ((t.ov a).toNat + (t.ov b).toNat) % 2 ^ 32 ∧
    (mergeNode t c a b).cl c = some a ∧ (mergeNode t c a b).ch c = some b ∧
    (∀ i, i ≠ a → i ≠ b → (mergeNode t c a b).bv i = t.bv i) ∧
    (∀ i, i ≠ c → (mergeNode t c a b).ov i = t.ov i ∧ (mergeNode t c a b).cl i = t.cl i ∧
      (mergeNode t c a b).ch i = t.ch i)

/-- Derived from R147, R150 and 10_state.md R34 (the spec's own inferences): from any filled arena the merge stage ends
with `F <= start <= 2F-1`, its nodes a full tree, and no entry from `2F-1` on written. -/
def Obligations.MergeStageBuildsFullTree : Prop :=
  ∀ (f : Nat) (t : Arena), 1 ≤ f →
    f ≤ (mergeStage f t).2 ∧ (mergeStage f t).2 ≤ 2 * f - 1 ∧
    CodeTable.Tree { arena := (mergeStage f t).1, start := (mergeStage f t).2, firstReal := f } ∧
    ∀ i, 2 * f - 1 ≤ i → Arena.get (mergeStage f t).1 i = Arena.get t i

/-- Derived from the table of R150 (its first three rows; log entry 13 says what the fourth leaves out) and R147: with
`k` eligible slots and no wrapped sum there are `k - 1` merges; with none or one there is none, and the lone slot gets
bit value 1; the root has no bit value. -/
def Obligations.MergeCountFollowsEligibleSlots : Prop :=
  ∀ (f : Nat) (t : Arena), 1 ≤ f → (∀ i, f ≤ i → Arena.get t i = freshEntry) → (∀ i < f, t.bv i = none) →
    let k := ((List.range f).filter (fun i => t.ov i != 0)).length
    (k = 0 → mergeStage f t = (t, f)) ∧
    (k = 1 → ∃ i < f, t.ov i ≠ 0 ∧ mergeStage f t = (t.setBv i true, f)) ∧
    (2 ≤ k → (∀ n, f ≤ n → n < (mergeStage f t).2 → (mergeStage f t).1.ov n ≠ 0) →
      (mergeStage f t).2 = f + k - 1) ∧
    (f < (mergeStage f t).2 → (mergeStage f t).1.bv ((mergeStage f t).2 - 1) = none)

/-- Derived from R147, R148 and R149 (the lexicographic form is the spec's own inference): the merge stage is greedy. From
a filled arena with no bit value set, each node `n` joins the two smallest slots that stand free when it is made: below
`n`, of a weight other than 0 and no child of an earlier node. The least by weight, then index, is its low child with bit
value 1, the least of the rest its high child with bit value 0, and its weight is their sum modulo 2^32. The stage stops
when at most one slot is left free, and no terminal's weight changes. -/
def Obligations.MergeStageJoinsTheTwoSmallest : Prop :=
  ∀ (f : Nat) (t : Arena), 1 ≤ f → (∀ i, f ≤ i → Arena.get t i = freshEntry) → (∀ i < f, t.bv i = none) →
    let r := (mergeStage f t).1
    let start := (mergeStage f t).2
    let free := fun n i => i < n ∧ r.ov i ≠ 0 ∧ ∀ m, f ≤ m → m < n → r.cl m ≠ some i ∧ r.ch m ≠ some i
    let before := fun i j => r.ov i < r.ov j ∨ (r.ov i = r.ov j ∧ i < j)
    (∀ i < f, r.ov i = t.ov i) ∧
    (∀ n, f ≤ n → n < start → ∃ a b, r.cl n = some a ∧ r.ch n = some b ∧ a ≠ b ∧ free n a ∧ free n b ∧
      (∀ j, free n j → j ≠ a → before a j) ∧ (∀ j, free n j → j ≠ a → j ≠ b → before b j) ∧
      r.bv a = some true ∧ r.bv b = some false ∧
      (r.ov n).toNat = ((r.ov a).toNat + (r.ov b).toNat) % 2 ^ 32) ∧
    ∀ i j, free start i → free start j → i = j

/-- Derived from 30_encoding.md R79, R80, R81, R82 and R141, R142, R143, R145, R147, R151: a preamble written by the
encoder, in either field order and in the form its count selects, is read back by `BuildTable`, which stores the
weights in order, merges, leaves the cursor after the preamble and enters the loop. -/
def Obligations.BuildTableReadsBackEncodedPreamble : Prop :=
  ∀ (s : State) (f bw c : Nat) (ws : List (Nat × Word32)), s.phase = .buildTable →
    s.firstReal = some f → s.byteWidth = some bw → bw = 1 ∨ bw = 2 →
    f ≤ 2 ^ (8 * bw) → c < 2 ^ (8 * bw) → ws.length = (if c = 0 then f else c) → (∀ e ∈ ws, e.1 < f) →
    let identity := f * 4 < (bw + 4) * ws.length
    let entries := ws.map (fun e => (if identity then none else some e.1, e.2))
    let bits := preambleBits s.cfg.fieldOrder bw c entries
    let t := ws.foldl (fun t e => t.setOv e.1 e.2) s.table
    (identity → ws.map Prod.fst = List.range ws.length) →
    s.source.Holds s.position bits →
      bits.length = (if identity then bw * 8 + ws.length * 32 else bw * 8 + ws.length * (bw * 8 + 32)) ∧
      step s = .next
        { s with
          etf := some ws.length
          indexed := some (!decide identity)
          table := (mergeStage f t).1
          start := some (mergeStage f t).2
          cur := Cursor.ofPosition (s.position + bits.length)
          phase := .decodeLoop }

/-- Derived from R144: an identity preamble with `etf > F` faults before its first weight, and an indexed entry with an
index at or above `F` faults as soon as the index is read, before its weight. The info the fault records is the model's
choice (log entry 7). -/
def Obligations.PreambleIndexOutOfRangeFaults : Prop :=
  ∀ (s : State) (f bw c : Nat), s.phase = .buildTable → s.firstReal = some f → s.byteWidth = some bw →
    bw = 1 ∨ bw = 2 → f ≤ 2 ^ (8 * bw) → c < 2 ^ (8 * bw) →
    let n := if c = 0 then f else c
    (f * 4 < (bw + 4) * n → f < n → s.source.Holds s.position (fieldBits s.cfg.fieldOrder bw c) →
      step s = .next
        (({ s with etf := some n, indexed := some false,
                   cur := Cursor.ofPosition (s.position + 8 * bw) } : State).takeFault (.tableIndex n))) ∧
    (¬ f * 4 < (bw + 4) * n → ∀ (ws : List (Nat × Word32)) (idx : Nat), ws.length < n → (∀ e ∈ ws, e.1 < f) →
      f ≤ idx → idx < 2 ^ (8 * bw) →
      s.source.Holds s.position
        (preambleBits s.cfg.fieldOrder bw c (ws.map (fun e => (some e.1, e.2))) ++
          fieldBits s.cfg.fieldOrder bw idx) →
      step s = .next
        (({ s with etf := some n, indexed := some true, table := ws.foldl (fun t e => t.setOv e.1 e.2) s.table,
                   cur := Cursor.ofPosition
                     (s.position + (bw * 8 + ws.length * (bw * 8 + 32) + bw * 8)) } : State).takeFault
          (.tableIndex idx)))

/-- Derived from R141, R143, 40_bitcursor.md R103, 60_exceptions.md R220 and vector TB-12: a preamble that the end of `IN`
cuts off in its count, in an index or in a weight ends the run with `TruncatedStream`, at a read that begins inside the
cut field and needs more bits than remain; the entries before the cut are stored and `start` is not written. The info
recorded is the model's choice (log entry 7). -/
def Obligations.CutOffPreambleFaultsTruncated : Prop :=
  ∀ (s : State) (f bw : Nat), s.phase = .buildTable → s.InputComplete → s.firstReal = some f →
    s.byteWidth = some bw → bw = 1 ∨ bw = 2 → f ≤ 2 ^ (8 * bw) →
    (8 * s.inLen < s.position + bw * 8 →
      ∃ q k, s.position ≤ q ∧ q < s.position + bw * 8 ∧ 8 * s.inLen < q + k ∧
        step s = .next ((s.moveTo q).takeFault (.bits q k))) ∧
    ∀ (c : Nat) (ws : List (Nat × Word32)), c < 2 ^ (8 * bw) →
      let n := if c = 0 then f else c
      let identity := f * 4 < (bw + 4) * n
      let entries := ws.map (fun e => (if identity then none else some e.1, e.2))
      let head := preambleBits s.cfg.fieldOrder bw c entries
      let stored : State := { s with etf := some n, indexed := some (!decide identity),
                                     table := ws.foldl (fun t e => t.setOv e.1 e.2) s.table }
      ws.length < n → (∀ e ∈ ws, e.1 < f) → (identity → n ≤ f ∧ ws.map Prod.fst = List.range ws.length) →
      (¬ identity → s.source.Holds s.position head → 8 * s.inLen < s.position + head.length + bw * 8 →
        ∃ q k, s.position + head.length ≤ q ∧ q < s.position + head.length + bw * 8 ∧ 8 * s.inLen < q + k ∧
          step s = .next ((stored.moveTo q).takeFault (.bits q k))) ∧
      ∀ idx < f,
        let upTo := head ++ (if identity then [] else fieldBits s.cfg.fieldOrder bw idx)
        s.source.Holds s.position upTo → 8 * s.inLen < s.position + upTo.length + 32 →
        ∃ q k, s.position + upTo.length ≤ q ∧ q < s.position + upTo.length + 32 ∧ 8 * s.inLen < q + k ∧
          step s = .next ((stored.moveTo q).takeFault (.bits q k))

/-! ## The symbol decoder (43_symbol_decoder.md) -/

/-- Derived from R170, R180 and R181: with `start <= F` a symbol decode faults and consumes no bit; in the loop the
fault comes after the selector, and a run that needs no symbol raises none. The info recorded is the model's choice (log
entry 7). -/
def Obligations.DegenerateTableFaultsAtFirstSymbol : Prop :=
  (∀ (t : CodeTable) (src : Source) (p : Nat), t.start ≤ t.firstReal →
    t.decodeSymbol src p = .error (.raised (.degenerate t.start)) p) ∧
  ∀ (s : State) (d : Word32) (st f : Nat), s.phase = .decodeLoop → s.InputComplete →
    s.declen = some d → s.start = some st → s.firstReal = some f → st ≤ f →
    (s.pos = d.toNat → step s = .next { s with phase := .verifyChecksum }) ∧
    (s.pos ≠ d.toNat → s.position < 8 * s.inLen →
      step s = .next ((s.moveTo (s.position + 1)).takeFault (.degenerate st)))

/-- Derived from R171, R173 and 30_encoding.md R87 (inferences of the spec): on a tree, the bits of a symbol's codeword
decode to that symbol, and exactly they are consumed; a codeword has 1 to `start - F` bits. -/
def Obligations.DecodeSymbolInvertsCodeword : Prop :=
  ∀ (t : CodeTable) (src : Source) (v p : Nat) (w : List Bool), t.Tree → t.codeword v = some w → src.Holds p w →
    t.decodeSymbol src p = .ok v (p + w.length) ∧ v < t.firstReal ∧ 1 ≤ w.length ∧
      w.length ≤ t.start - t.firstReal

/-- Derived from 30_encoding.md R87 and R90 (inferences of the spec): the code is complete: `start - F` bits of a
complete buffer always decode to a symbol, and the bits consumed are that symbol's codeword. -/
def Obligations.EveryLongEnoughBitStringDecodes : Prop :=
  ∀ (t : CodeTable) (src : Source) (p : Nat), t.Tree → t.firstReal < t.start → src.Complete →
    p + (t.start - t.firstReal) ≤ 8 * src.len →
    ∃ v w, v < t.firstReal ∧ t.codeword v = some w ∧ src.Holds p w ∧
      t.decodeSymbol src p = .ok v (p + w.length)

/-- Derived from 30_encoding.md R87 (an inference of the spec): no codeword is the beginning of another symbol's. -/
def Obligations.CodewordsArePrefixFree : Prop :=
  ∀ (t : CodeTable) (v v' : Nat) (w rest : List Bool), t.Tree → t.codeword v = some w →
    t.codeword v' = some (w ++ rest) → v = v' ∧ rest = []

/-- Derived from R172 (an inference of the spec): on a tree no node lacks a child for the bit read. -/
def Obligations.TreeWalkNeverLacksAChild : Prop :=
  ∀ (t : CodeTable) (src : Source) (p q n : Nat) (b : Bool), t.Tree →
    t.decodeSymbol src p ≠ .error (.raised (.noMatch n b)) q

/-- Derived from R171, 40_bitcursor.md R103 and vector SD-10: on a tree and a complete buffer a symbol decode has two
outcomes: the symbol whose codeword stands at the position, its bits consumed; or, where no codeword fits before the end
of `IN`, `TruncatedStream` at the first bit that is not there, the bits before it consumed. -/
def Obligations.SymbolDecodesOrFaultsTruncated : Prop :=
  ∀ (t : CodeTable) (src : Source) (p : Nat), t.Tree → t.firstReal < t.start → src.Complete → p ≤ 8 * src.len →
    (∃ v w, v < t.firstReal ∧ t.codeword v = some w ∧ src.Holds p w ∧
      t.decodeSymbol src p = .ok v (p + w.length)) ∨
    ((∀ v w, t.codeword v = some w → ¬ src.Holds p w) ∧
      t.decodeSymbol src p = .error (.raised (.bits (8 * src.len) 1)) (8 * src.len))

/-! ## Instructions: encoding (30_encoding.md) -/

/-- Derived from R84 to R89: decoding the encoding of a well-formed instruction, at any bit position of any buffer, gives
the instruction back with every operand; the encoding's length is that of its parts. The position is left after the
selector, the codewords and the low bits; that it stands in front of a `LIT`'s bytes is the model's choice (log
entry 8). -/
def Obligations.DecodeInvertsEncode : Prop :=
  ∀ (t : CodeTable) (lbc : Nat) (i : Instr) (src : Source) (p : Nat) (bits : List Bool), t.Tree →
    i.wellFormed t lbc = true → encode t lbc i = some bits → src.Holds p bits →
    ∃ h, encodeHead t lbc i = some h ∧ bits = h ++ encodeTail i ∧
      decodeInstr t lbc src p = .ok i (p + h.length) ∧
      (∀ x bytes, i = .lit x bytes → ∃ cx, t.codeword x = some cx ∧ h = false :: cx ∧
        bits.length = 1 + cx.length + 8 * (x + 1)) ∧
      (∀ x high low, i = .bref x high low → ∃ cx ch, t.codeword x = some cx ∧ t.codeword high = some ch ∧
        h = true :: (cx ++ ch ++ natBits lbc low) ∧ bits.length = 1 + cx.length + ch.length + lbc)

/-- Derived from R84 to R87 and R89: the other direction: what the decoder reads as a `LIT` with all its bytes or as a
`BREF` is well-formed, and the bits it read are the encoding. -/
def Obligations.EncodeInvertsDecode : Prop :=
  ∀ (t : CodeTable) (lbc : Nat) (i : Instr) (src : Source) (p q : Nat), t.Tree → src.Complete →
    decodeInstr t lbc src p = .ok i q → (∀ x bytes, i = .lit x bytes → bytes.length = x + 1) →
    i.wellFormed t lbc = true ∧ ∃ bits, encode t lbc i = some bits ∧ src.Holds p bits

/-- Derived from R182, R183, R185, 60_exceptions.md R220 and 40_bitcursor.md R103: an instruction that the end of `IN` cuts
off in its length symbol, in its distance symbol or in its low bits does not decode: `TruncatedStream`, for the symbols
at the end of `IN`, for the low bits with none of them consumed. A `LIT` cut off in its bytes decodes, with the whole
bytes that are there and the position in front of them (the model's choice, log entry 8), so that the overrun check comes
before its fault. -/
def Obligations.CutOffInstructionFaultsTruncated : Prop :=
  ∀ (t : CodeTable) (lbc : Nat) (src : Source) (p : Nat), t.Tree → t.firstReal < t.start → src.Complete →
    (∀ sel, src.Holds p [sel] → (∀ v w, t.codeword v = some w → ¬ src.Holds (p + 1) w) →
      decodeInstr t lbc src p = .error (.raised (.bits (8 * src.len) 1)) (8 * src.len)) ∧
    (∀ x cx, t.codeword x = some cx → src.Holds p (true :: cx) →
      ((∀ v w, t.codeword v = some w → ¬ src.Holds (p + 1 + cx.length) w) →
        decodeInstr t lbc src p = .error (.raised (.bits (8 * src.len) 1)) (8 * src.len)) ∧
      ∀ high ch, t.codeword high = some ch → src.Holds p (true :: (cx ++ ch)) →
        8 * src.len < p + 1 + cx.length + ch.length + lbc →
        decodeInstr t lbc src p = .error (.raised (.bits (p + 1 + cx.length + ch.length) lbc))
          (p + 1 + cx.length + ch.length)) ∧
    ∀ x cx, t.codeword x = some cx → src.Holds p (false :: cx) →
      8 * src.len < p + 1 + cx.length + 8 * (x + 1) →
      ∃ bytes, decodeInstr t lbc src p = .ok (.lit x bytes) (p + 1 + cx.length) ∧ bytes.length < x + 1 ∧
        src.Holds (p + 1 + cx.length) (bytesBits bytes) ∧
        8 * src.len < p + 1 + cx.length + 8 * (bytes.length + 1)

/-- Sanity, derived from R84 to R86 and table TB-1 of 95_test_vectors.md: four instructions' bits, written out. That the
words decode over TB-1 with `opt_lbc = 0` (log entry 5), and that bit `k` of a word is bit `k` of the stream with every
further bit 0 (log entry 6), are the model's choices. -/
def Obligations.WrittenOutWordsDecode : Prop :=
  decodeTableWord 1 0 = some (.lit 7 [0, 0, 0, 0, 0, 0, 0, 0]) ∧
  decodeTableWord 1 1 = some (.bref 7 7 0) ∧
  decodeTableWord 28 0b1000010010010110000100101010 = some (.lit 2 [0x48, 0x69, 0x21]) ∧
  decodeTableWord 7 0b1111101 = some (.bref 4 0 0)

/-! ## Instructions: operands and meanings (44_decode_loop.md) -/

/-- Derived from R94: `LITERAL` and `COPY` expand as the rule writes them, to instructions with the byte count, count
and distance they name. -/
def Obligations.PseudoInstructionsExpand : Prop :=
  (∀ bytes : List Byte, bytes ≠ [] →
    ∃ x, pseudoLiteral bytes = some (.lit x bytes) ∧ literalLength x = bytes.length) ∧
  ∀ (count dist : Nat) (lbc base : Byte), base.toNat ≤ count → base.toNat ≤ dist →
    ∃ x high low, pseudoCopy count dist lbc base = some (.bref x high low) ∧ x = count - base.toNat ∧
      high = (dist - base.toNat) >>> lbc.toNat ∧ low = (dist - base.toNat) &&& (2 ^ lbc.toNat - 1) ∧
      low < 2 ^ lbc.toNat ∧ backrefCount x base = count ∧ backrefDistance high low lbc base = dist

/-- R88: the operand formulas and their ranges; `(high << opt_lbc) | low` is `high * 2^opt_lbc + low`. -/
def Obligations.OperandsAssembleAsStated : Prop :=
  ∀ (f x high low : Nat) (lbc base : Byte), x < f → high < f → low < 2 ^ lbc.toNat →
    literalLength x = x + 1 ∧ 1 ≤ literalLength x ∧ literalLength x ≤ f ∧
    backrefCount x base = x + base.toNat ∧ base.toNat ≤ backrefCount x base ∧
    backrefCount x base ≤ f - 1 + base.toNat ∧
    (high <<< lbc.toNat) ||| low = high * 2 ^ lbc.toNat + low ∧
    backrefDistance high low lbc base = high * 2 ^ lbc.toNat + low + base.toNat ∧
    base.toNat ≤ backrefDistance high low lbc base ∧
    backrefDistance high low lbc base ≤ f * 2 ^ lbc.toNat - 1 + base.toNat

/-- R184: `LIT` with its `X + 1` bytes and room for them completes: byte `k` goes to `OUT[pos + k]`, `pos` grows by
`X + 1`, the cursor passes the bytes, every other byte of `OUT` and every other register is unchanged. -/
def Obligations.LiteralRunWritesItsBytes : Prop :=
  ∀ (x : Nat) (bytes : List Byte) (s : State) (d : Word32), s.declen = some d → bytes.length = x + 1 →
    s.pos + (x + 1) ≤ d.toNat →
    ∃ t, exec (.lit x bytes) s = .next t ∧
      (∀ k < x + 1, t.out.read (s.pos + k) = bytes[k]?) ∧
      (∀ a, a < s.pos ∨ s.pos + literalLength x ≤ a → t.out.read a = s.out.read a) ∧
      t = { s with cur := Cursor.ofPosition (s.position + 8 * (x + 1)), out := t.out, pos := s.pos + (x + 1) }

/-- Derived from R183, R188, 60_exceptions.md R220 and R103; how a cut-off run reaches the meaning and the info recorded
are the model's choices (log entries 8 and 7): a `LIT` whose bytes the end of `IN` cuts off, with room for the whole run,
faults `TruncatedStream` after the bytes it has. So does the step over such a stream; without the room it faults
`OutputOverrun`, in front of the bytes and with none written. -/
def Obligations.CutOffLiteralRunFaultsTruncated : Prop :=
  (∀ (x : Nat) (bytes : List Byte) (s : State) (d : Word32), s.declen = some d → bytes.length < x + 1 →
    s.pos + (x + 1) ≤ d.toNat →
    ∃ t : State, exec (.lit x bytes) s =
        .next (t.takeFault (.bits (s.position + 8 * bytes.length) 8)) ∧
      (∀ k < bytes.length, t.out.read (s.pos + k) = bytes[k]?) ∧
      (∀ a, a < s.pos ∨ s.pos + bytes.length ≤ a → t.out.read a = s.out.read a) ∧
      t = { s with cur := Cursor.ofPosition (s.position + 8 * bytes.length), out := t.out,
                   pos := s.pos + bytes.length }) ∧
  ∀ (s : State) (d : Word32) (st f : Nat) (x : Nat) (cx : List Bool), s.phase = .decodeLoop → s.InputComplete →
    s.declen = some d → s.start = some st → s.firstReal = some f →
    CodeTable.Tree { arena := s.table, start := st, firstReal := f } →
    CodeTable.codeword { arena := s.table, start := st, firstReal := f } x = some cx →
    s.source.Holds s.position (false :: cx) → 8 * s.inLen < s.position + 1 + cx.length + 8 * (x + 1) →
    s.pos ≠ d.toNat →
    (d.toNat < s.pos + (x + 1) →
      step s = .next ((s.moveTo (s.position + 1 + cx.length)).takeFault (.overrun s.pos (x + 1) d))) ∧
    (s.pos + (x + 1) ≤ d.toNat →
      ∃ (bytes : List Byte) (t : State), bytes.length < x + 1 ∧
        s.source.Holds (s.position + 1 + cx.length) (bytesBits bytes) ∧
        8 * s.inLen < s.position + 1 + cx.length + 8 * (bytes.length + 1) ∧
        step s = .next (t.takeFault (.bits (s.position + 1 + cx.length + 8 * bytes.length) 8)) ∧
        (∀ k < bytes.length, t.out.read (s.pos + k) = bytes[k]?) ∧
        (∀ a, a < s.pos ∨ s.pos + bytes.length ≤ a → t.out.read a = s.out.read a) ∧
        t = { s with cur := Cursor.ofPosition (s.position + 1 + cx.length + 8 * bytes.length), out := t.out,
                     pos := s.pos + bytes.length })

/-- R60, and R187: `BREF` with its source in the output and room for the copy completes: each byte equals the one `dist`
before it, read after the previous write, so the copy repeats the last `dist` bytes; every other byte of `OUT` and every
other register is unchanged. -/
def Obligations.BackrefCopiesByteByByte : Prop :=
  ∀ (x high low : Nat) (s : State) (base lbc : Byte) (d : Word32), s.optBase = some base → s.optLbc = some lbc →
    s.declen = some d → s.OutputExact → 1 ≤ backrefDistance high low lbc base →
    backrefDistance high low lbc base ≤ s.pos → s.pos + backrefCount x base ≤ d.toNat →
    ∃ t, exec (.bref x high low) s = .next t ∧
      (∀ k < backrefCount x base,
        t.out.read (s.pos + k) = t.out.read (s.pos + k - backrefDistance high low lbc base)) ∧
      (∀ k < backrefCount x base,
        t.out.read (s.pos + k) =
          s.out.read (s.pos - backrefDistance high low lbc base + k % backrefDistance high low lbc base)) ∧
      (∀ a, a < s.pos ∨ s.pos + backrefCount x base ≤ a → t.out.read a = s.out.read a) ∧
      t = { s with out := t.out, pos := s.pos + backrefCount x base }

/-- Derived from R186: a `BREF` whose distance exceeds `pos` faults before any byte is copied, whatever its count: nothing
but the fault registers and the phase changes. The info recorded is the model's choice (log entry 7). -/
def Obligations.BackrefBeforeOutputFaults : Prop :=
  ∀ (x high low : Nat) (s : State) (base lbc : Byte), s.optBase = some base → s.optLbc = some lbc →
    s.pos < backrefDistance high low lbc base →
    exec (.bref x high low) s = .next
      { s with
        phase := .failed, fault := some .backrefOutOfRange
        faultInfo := some (.backref s.pos (backrefDistance high low lbc base)) }

/-- Derived from R189 and R188 (the check order): an instruction that would pass `declen` faults before it writes a
byte; for `LIT` whatever bytes it has, for `BREF` when its distance is in range. The info recorded is the model's choice
(log entry 7). -/
def Obligations.InstructionPastDeclenFaultsOverrun : Prop :=
  (∀ (x : Nat) (bytes : List Byte) (s : State) (d : Word32), s.declen = some d → d.toNat < s.pos + (x + 1) →
    exec (.lit x bytes) s = .next
      { s with
        phase := .failed, fault := some .outputOverrun, faultInfo := some (.overrun s.pos (x + 1) d) }) ∧
  ∀ (x high low : Nat) (s : State) (base lbc : Byte) (d : Word32), s.optBase = some base → s.optLbc = some lbc →
    s.declen = some d → backrefDistance high low lbc base ≤ s.pos → d.toNat < s.pos + (x + base.toNat) →
    exec (.bref x high low) s = .next
      { s with
        phase := .failed, fault := some .outputOverrun, faultInfo := some (.overrun s.pos (x + base.toNat) d) }

/-- Derived from R183, R185 and 60_exceptions.md R214: the frame of both instructions in every state: only `OUT` in the
instruction's window, `pos`, the cursor (`LIT` alone) and, on a fault, the phase and the fault registers can change. That
a fault records its info in `faultInfo` is the model's choice (log entry 7; R214 allows it). -/
def Obligations.InstructionsChangeOnlyOutputAndCursor : Prop :=
  (∀ (x : Nat) (bytes : List Byte) (s t : State), exec (.lit x bytes) s = .next t →
    (∀ a, a < s.pos ∨ s.pos + literalLength x ≤ a → t.out.read a = s.out.read a) ∧
    s.pos ≤ t.pos ∧ t.pos ≤ s.pos + literalLength x ∧
    (∀ a, t.pos ≤ a → t.out.read a = s.out.read a) ∧
    ((t.phase = s.phase ∧ t.fault = s.fault ∧ t.faultInfo = s.faultInfo) ∨
      ∃ i, t.phase = .failed ∧ t.fault = some (FaultInfo.kind i) ∧ t.faultInfo = some i) ∧
    { t with cur := s.cur, out := s.out, pos := s.pos, phase := s.phase, fault := s.fault,
             faultInfo := s.faultInfo } = s) ∧
  ∀ (x high low : Nat) (s t : State), exec (.bref x high low) s = .next t →
    (∀ base, s.optBase = some base →
      (∀ a, a < s.pos ∨ s.pos + backrefCount x base ≤ a → t.out.read a = s.out.read a) ∧
      s.pos ≤ t.pos ∧ t.pos ≤ s.pos + backrefCount x base) ∧
    ((t.phase = s.phase ∧ t.fault = s.fault ∧ t.faultInfo = s.faultInfo) ∨
      ∃ i, t.phase = .failed ∧ t.fault = some (FaultInfo.kind i) ∧ t.faultInfo = some i ∧ t.out = s.out ∧
        t.pos = s.pos) ∧
    { t with out := s.out, pos := s.pos, phase := s.phase, fault := s.fault, faultInfo := s.faultInfo } = s

/-- Derived from 70_reset_and_hazards.md R244 (an inference of the spec; log entry 1): where a register that an
instruction reads was never written, the instruction stops with a fault of the model that names it, and supplies no
value. -/
def Obligations.UnwrittenRegisterStopsTheInstruction : Prop :=
  (∀ (x : Nat) (bytes : List Byte) (s : State), s.declen = none →
    exec (.lit x bytes) s = .fault (.unwritten .declen)) ∧
  ∀ (x high low : Nat) (s : State),
    (s.optBase = none → exec (.bref x high low) s = .fault (.unwritten .optBase)) ∧
    (∀ base, s.optBase = some base → s.optLbc = none → exec (.bref x high low) s = .fault (.unwritten .optLbc)) ∧
    ∀ base lbc, s.optBase = some base → s.optLbc = some lbc → backrefDistance high low lbc base ≤ s.pos →
      s.declen = none → exec (.bref x high low) s = .fault (.unwritten .declen)

/-! ## The loop (44_decode_loop.md) -/

/-- R190, the exit of the loop (R180's test): with `pos = declen` or no unread bit the step only moves to
`VerifyChecksum`. -/
def Obligations.LoopExitsAtDeclenOrExhaustion : Prop :=
  ∀ (s : State) (d : Word32), s.phase = .decodeLoop → s.declen = some d →
    s.pos = d.toNat ∨ 8 * s.inLen ≤ s.position → step s = .next { s with phase := .verifyChecksum }

/-- Derived from R180 to R182: in the loop, with output to produce and a bit to read, a step runs the instruction
decoded at the cursor, the cursor moved past its selector, codewords and low bits; where decoding faults, the step
takes that fault (60_exceptions.md R214) at the bit it stopped at. The info the fault records (log entry 7) and the
position in front of a `LIT`'s bytes (log entry 8) are the model's choices. -/
def Obligations.StepRunsTheDecodedInstruction : Prop :=
  ∀ (s : State) (d : Word32) (st f : Nat) (l : Byte), s.phase = .decodeLoop → s.declen = some d →
    s.start = some st → s.firstReal = some f → s.optLbc = some l → s.pos ≠ d.toNat → s.position < 8 * s.inLen →
    (∀ i p, decodeInstr { arena := s.table, start := st, firstReal := f } l.toNat s.source s.position = .ok i p →
      step s = exec i (s.moveTo p)) ∧
    (∀ info p, decodeInstr { arena := s.table, start := st, firstReal := f } l.toNat s.source s.position =
        .error (.raised info) p →
      step s = .next ((s.moveTo p).takeFault info))

/-- Derived from R183, R184, R85 and R195: a step whose stream holds a well-formed `LIT` with room for it writes its
bytes and leaves the cursor at the bit after the instruction. -/
def Obligations.StepRunsEncodedLiteral : Prop :=
  ∀ (s : State) (d : Word32) (st f : Nat) (l : Byte) (x : Nat) (bytes : List Byte) (bits : List Bool),
    s.phase = .decodeLoop → s.declen = some d → s.start = some st → s.firstReal = some f → s.optLbc = some l →
    CodeTable.Tree { arena := s.table, start := st, firstReal := f } →
    Instr.wellFormed { arena := s.table, start := st, firstReal := f } l.toNat (.lit x bytes) = true →
    encode { arena := s.table, start := st, firstReal := f } l.toNat (.lit x bytes) = some bits →
    s.source.Holds s.position bits → s.pos + (x + 1) ≤ d.toNat →
    ∃ t, step s = .next t ∧
      (∀ k < x + 1, t.out.read (s.pos + k) = bytes[k]?) ∧
      (∀ a, a < s.pos ∨ s.pos + (x + 1) ≤ a → t.out.read a = s.out.read a) ∧
      t = { s with cur := Cursor.ofPosition (s.position + bits.length), out := t.out, pos := s.pos + (x + 1) }

/-- Derived from R185, R187, R86 and R195: a step whose stream holds a well-formed `BREF` with its source in the output
and room for it copies and leaves the cursor at the bit after the instruction. -/
def Obligations.StepRunsEncodedBackref : Prop :=
  ∀ (s : State) (d : Word32) (st f : Nat) (l base : Byte) (x high low : Nat) (bits : List Bool),
    s.phase = .decodeLoop → s.declen = some d → s.start = some st → s.firstReal = some f → s.optLbc = some l →
    s.optBase = some base → s.OutputExact →
    CodeTable.Tree { arena := s.table, start := st, firstReal := f } →
    Instr.wellFormed { arena := s.table, start := st, firstReal := f } l.toNat (.bref x high low) = true →
    encode { arena := s.table, start := st, firstReal := f } l.toNat (.bref x high low) = some bits →
    s.source.Holds s.position bits → 1 ≤ high * 2 ^ l.toNat + low + base.toNat →
    high * 2 ^ l.toNat + low + base.toNat ≤ s.pos → s.pos ≠ d.toNat → s.pos + (x + base.toNat) ≤ d.toNat →
    ∃ t, step s = .next t ∧
      (∀ k < x + base.toNat,
        t.out.read (s.pos + k) = t.out.read (s.pos + k - (high * 2 ^ l.toNat + low + base.toNat))) ∧
      (∀ a, a < s.pos ∨ s.pos + (x + base.toNat) ≤ a → t.out.read a = s.out.read a) ∧
      t = { s with cur := Cursor.ofPosition (s.position + bits.length), out := t.out,
                   pos := s.pos + (x + base.toNat) }

/-! ## Checksum and result -/

/-- R191: the checksum of no byte is 0, and one more byte `b` at index `i` makes it `(csum + b) * LUT[i & 3]` modulo
2^64. -/
def Obligations.ChecksumFoldsOneByteAtATime : Prop :=
  checksum [] = 0 ∧
  ∀ (bs : List Byte) (b : Byte),
    (checksum (bs ++ [b])).toNat =
      ((checksum bs).toNat + b.toNat) * [0xE9, 0x115, 0x137, 0x1B1].getD (bs.length % 4) 0 % 2 ^ 64

/-- Derived from R192: `VerifyChecksum` compares the checksum of the bytes produced with the header's and ends in `Done`
or in `ChecksumMismatch`. The info recorded is the model's choice (log entry 7). -/
def Obligations.VerifyChecksumDecidesTheRun : Prop :=
  ∀ (s : State) (c : Word64) (bs : List Byte), s.phase = .verifyChecksum → s.hdrCsum = some c →
    bs.length = s.pos → (∀ k < s.pos, s.out.read k = bs[k]?) →
    (checksum bs = c → step s = .next { s with phase := .done }) ∧
    (checksum bs ≠ c → step s = .next
      { s with phase := .failed, fault := some .checksumMismatch, faultInfo := some (.checksum (checksum bs) c) })

/-- R66: the host gets `OUT[0 .. pos-1]` in `Done` and nothing in any other phase. -/
def Obligations.OutputIsDeliveredOnlyInDone : Prop :=
  ∀ s : State,
    (s.phase ≠ .done → s.result = none) ∧
    (s.phase = .done → s.OutputExact →
      ∃ bs, s.result = some bs ∧ bs.length = s.pos ∧ ∀ k < s.pos, s.out.read k = bs[k]?)

/-! ## Faults, phases, Start (10_state.md, 60_exceptions.md, 70_reset_and_hazards.md) -/

/-- Derived from R214: a `raise` writes `fault` and `phase` and nothing else, and what the run produced is not delivered.
R214 allows the diagnostic info to be recorded beside them; that the model records it, and which, is its choice (log
entry 7). The kind of each info is stated in `FaultKindsAndCodesFollowTheTable`. -/
def Obligations.FaultEntryWritesFaultAndPhaseOnly : Prop :=
  ∀ (s : State) (i : FaultInfo),
    settle ((raise i : Engine Unit) s) =
      .next { s with phase := .failed, fault := some i.kind, faultInfo := some i } ∧
    (s.takeFault i).result = none

/-- Derived from the table of R210, row by row: the kind of each check's fault, and the code of each kind. What a fault
carries beside its kind is the model's choice (log entry 7). -/
def Obligations.FaultKindsAndCodesFollowTheTable : Prop :=
  (∀ len, (FaultInfo.headerShort len).kind = .headerInvalid) ∧
  (∀ offset, (FaultInfo.headerMagic offset).kind = .headerInvalid) ∧
  (∀ raw min ub lbc base, (FaultInfo.options raw min ub lbc base).kind = .optionsOutOfRange) ∧
  (∀ p n, (FaultInfo.bits p n).kind = .truncatedStream) ∧
  (∀ start, (FaultInfo.degenerate start).kind = .corruptHuffmanCode) ∧
  (∀ node bit, (FaultInfo.noMatch node bit).kind = .corruptHuffmanCode) ∧
  (∀ computed expected, (FaultInfo.checksum computed expected).kind = .checksumMismatch) ∧
  (∀ declen, (FaultInfo.budget declen).kind = .allocationRefused) ∧
  (∀ index, (FaultInfo.tableIndex index).kind = .tableIndexOutOfRange) ∧
  (∀ pos dist, (FaultInfo.backref pos dist).kind = .backrefOutOfRange) ∧
  (∀ pos count declen, (FaultInfo.overrun pos count declen).kind = .outputOverrun) ∧
  faultCode none = 0 ∧ faultCode (some .headerInvalid) = 1 ∧ faultCode (some .optionsOutOfRange) = 2 ∧
  faultCode (some .truncatedStream) = 3 ∧ faultCode (some .corruptHuffmanCode) = 4 ∧
  faultCode (some .checksumMismatch) = 5 ∧ faultCode (some .allocationRefused) = 6 ∧
  faultCode (some .tableIndexOutOfRange) = 7 ∧ faultCode (some .backrefOutOfRange) = 8 ∧
  faultCode (some .outputOverrun) = 9

/-- Derived from R227, with R210's codes and the register map of 10_state.md R32: the host reads the fault kind as the
result in `Failed` and no fault result in any other phase, and a status read shows `phase`, the code of `fault` and every
register of the map as it stands. What a read of an unwritten register gives, and that the frozen registers are shown in
`Failed`, are the model's choices (log entries 20 and 21). -/
def Obligations.HostReadsRegistersAndFaultKind : Prop :=
  ∀ s : State,
    (s.phase = .failed → s.faultResult = s.fault) ∧ (s.phase ≠ .failed → s.faultResult = none) ∧
    (∀ i, (s.takeFault i).faultResult = some i.kind ∧ (s.takeFault i).hostView.phase = .failed ∧
      (s.takeFault i).hostView.fault = faultCode (some i.kind)) ∧
    s.hostView.phase = s.phase ∧ s.hostView.fault = faultCode s.fault ∧ s.hostView.declen = s.declen ∧
    s.hostView.hdrCsum = s.hdrCsum ∧ s.hostView.optRaw = s.optRaw ∧ s.hostView.optMin = s.optMin ∧
    s.hostView.optUb = s.optUb ∧ s.hostView.optLbc = s.optLbc ∧ s.hostView.optBase = s.optBase ∧
    s.hostView.hbc = s.hbc ∧ s.hostView.firstReal = s.firstReal ∧ s.hostView.byteWidth = s.byteWidth ∧
    s.hostView.tableSize = s.tableSize ∧ s.hostView.etf = s.etf ∧ s.hostView.indexed = s.indexed ∧
    s.hostView.start = s.start ∧ s.hostView.cur = s.cur ∧ s.hostView.pos = s.pos

/-- R22: a step keeps "`phase = Failed` if and only if `fault != None`", writes the fault only when it enters `Failed`,
and changes nothing once it is set; only a Start clears it. -/
def Obligations.FaultIsWrittenOnceWithFailed : Prop :=
  ∀ s : State, (s.phase = .failed ↔ s.fault ≠ none) →
    (∀ t, step s = .next t → (t.phase = .failed ↔ t.fault ≠ none) ∧ (s.fault ≠ none → t = s) ∧
      (t.phase ≠ .failed → t.fault = s.fault)) ∧
    ∀ bytes m, s.phase = .failed → (s.hostStart bytes m).fault = none

/-- Derived from R21: a step stays in `Idle`, `DecodeLoop` or a final phase, moves to the next phase of the chain, or
fails. -/
def Obligations.PhaseMovesForwardOnly : Prop :=
  ∀ s t : State, step s = .next t →
    t.phase = .failed ∨
    (t.phase = s.phase ∧ (s.phase = .idle ∨ s.phase = .decodeLoop ∨ s.phase = .done)) ∨
    (t.phase.rank = s.phase.rank + 1 ∧ s.phase ≠ .idle ∧ s.phase ≠ .done ∧ s.phase ≠ .failed)

/-- Derived from R21, R215, R240 (log entry 4): a step in `Idle`, `Done` or `Failed` changes nothing. -/
def Obligations.NoStepLeavesIdleOrAFinalPhase : Prop :=
  ∀ s : State, s.phase = .idle ∨ s.phase.isFinal = true → step s = .next s

/-- Derived from R25, R26, R27, R63, R109, R174: each register is written by its own step alone; no step writes `IN`,
the parameters or the budget, and nothing writes the table after `BuildTable`. -/
def Obligations.RegistersAreWrittenByTheirStepAlone : Prop :=
  ∀ s t : State, step s = .next t →
    t.cfg = s.cfg ∧ t.maxOutput = s.maxOutput ∧ t.input = s.input ∧ t.inLen = s.inLen ∧
    (s.phase ≠ .readHeader → t.declen = s.declen ∧ t.hdrCsum = s.hdrCsum) ∧
    (s.phase ≠ .readOptions →
      t.optRaw = s.optRaw ∧ t.optMin = s.optMin ∧ t.optUb = s.optUb ∧ t.optLbc = s.optLbc ∧
      t.optBase = s.optBase ∧ t.hbc = s.hbc ∧ t.firstReal = s.firstReal ∧ t.byteWidth = s.byteWidth ∧
      t.tableSize = s.tableSize) ∧
    (s.phase ≠ .buildTable →
      t.etf = s.etf ∧ t.indexed = s.indexed ∧ t.start = s.start ∧ t.table = s.table) ∧
    (s.phase ≠ .decodeLoop → t.out = s.out ∧ t.pos = s.pos) ∧
    (s.phase ≠ .buildTable → s.phase ≠ .decodeLoop → t.cur = s.cur)

/-- Derived from R240: power-on reset. The values of the other fields are the model's choice (log entry 2) and are not
stated. -/
def Obligations.ResetIsIdleAndUnwritten : Prop :=
  State.reset.phase = .idle ∧ State.reset.fault = none ∧
  State.reset.declen = none ∧ State.reset.hdrCsum = none ∧ State.reset.optRaw = none ∧ State.reset.optMin = none ∧
  State.reset.optUb = none ∧ State.reset.optLbc = none ∧ State.reset.optBase = none ∧ State.reset.hbc = none ∧
  State.reset.firstReal = none ∧ State.reset.byteWidth = none ∧ State.reset.tableSize = none ∧
  State.reset.etf = none ∧ State.reset.indexed = none ∧ State.reset.start = none ∧
  step State.reset = .next State.reset

/-- R226, with the values of 10_state.md R43: a Start in `Idle`, `Done` or `Failed` resets every register and
enters `ReadHeader` with the host's buffer; in any other phase it has no effect. -/
def Obligations.StartResetsTheRun : Prop :=
  ∀ (s : State) (bytes : List Byte) (m : Option Nat),
    (s.phase = .idle ∨ s.phase = .done ∨ s.phase = .failed →
      ∃ t, s.hostStart bytes m = t ∧ t.phase = .readHeader ∧ t.fault = none ∧ t.maxOutput = m ∧ t.cfg = s.cfg ∧
        t.inLen = bytes.length ∧ (∀ a, t.input.read a = bytes[a]?) ∧ t.declen = none ∧ t.hdrCsum = none ∧
        t.optRaw = none ∧ t.optMin = none ∧ t.optUb = none ∧ t.optLbc = none ∧ t.optBase = none ∧ t.hbc = none ∧
        t.firstReal = none ∧ t.byteWidth = none ∧ t.tableSize = none ∧ t.etf = none ∧ t.indexed = none ∧
        t.start = none ∧ (∀ i, t.table.ov i = 0 ∧ t.table.bv i = none ∧ t.table.cl i = none ∧ t.table.ch i = none) ∧
        t.cur = { byteOffset := s.cfg.bitstreamStart, bitIndex := 7 } ∧ t.pos = 0 ∧ ∀ a, t.out.read a = none) ∧
    (s.phase ≠ .idle → s.phase ≠ .done → s.phase ≠ .failed → s.hostStart bytes m = s)

/-- R44: no state survives from one run to the next: two engines with the same parameters that accept a Start with the
same buffer and budget are then the same, and so is every later step of theirs. -/
def Obligations.RunsShareNoState : Prop :=
  ∀ (s t : State) (bytes : List Byte) (m : Option Nat) (n : Nat), s.cfg = t.cfg →
    s.phase.acceptsStart = true → t.phase.acceptsStart = true →
    Sys2Proof.core.run n (s.hostStart bytes m) = Sys2Proof.core.run n (t.hostStart bytes m)

/-! ## Invariants and whole runs -/

/-- Derived (log entries 10 and 11): every step keeps the canonical form of `IN`, `OUT` and the arena, from every
state. -/
def Obligations.StepKeepsCanonicalForm : Prop :=
  ∀ s t : State, s.Canonical → step s = .next t → t.Canonical

/-- Derived from R240 and the model's choice of the buffers at reset (log entry 2): the invariant holds at reset. -/
def Obligations.InvariantHoldsAtReset : Prop :=
  State.reset.Inv ∧ State.reset.Canonical

/-- Derived from R43, R226: a Start accepted in any state whose option offsets lie in the header establishes the
invariant and the canonical form. -/
def Obligations.StartEstablishesInvariant : Prop :=
  ∀ (s : State) (bytes : List Byte) (m : Option Nat), offsetsInHeader s.cfg → s.phase.acceptsStart = true →
    (s.hostStart bytes m).Inv ∧ (s.hostStart bytes m).Canonical

/-- Derived from R21, R22, R25, R26, R27, R30, R34, R147, R189: every step keeps the invariant of a run. -/
def Obligations.StepKeepsInvariant : Prop :=
  ∀ s t : State, s.Inv → step s = .next t → t.Inv

/-- Derived from 70_reset_and_hazards.md R244 (an inference of the spec): from a state of a run every step goes on: no
unwritten register is read, no absent byte of `IN` or `OUT`, and no instruction is refused. -/
def Obligations.StepOfARunNeverStops : Prop :=
  ∀ s : State, s.Inv → ∃ t, step s = .next t

/-- Derived from R194 (an inference of the spec): every instruction step produces a byte or fails, so a run in the loop
ends within `declen - pos + 2` steps, and every run within 2^32 + 4 steps of its Start. -/
def Obligations.EveryRunEnds : Prop :=
  (∀ (s : State) (d : Word32), s.Inv → s.phase = .decodeLoop → s.declen = some d →
    ∃ t : State, Sys2Proof.core.run (d.toNat - s.pos + 2) s = .next t ∧ t.phase.isFinal = true) ∧
  ∀ (s : State) (bytes : List Byte) (m : Option Nat), offsetsInHeader s.cfg → s.phase.acceptsStart = true →
    ∃ t : State, Sys2Proof.core.run (2 ^ 32 + 4) (s.hostStart bytes m) = .next t ∧ t.phase.isFinal = true

/-- R72, with the default parameters, and with it the bytes of R75 and bytes 0x30 and 0x36 of R76: two states whose
inputs differ only in the bytes no rule reads make the same step, and still differ in the input alone after it. -/
def Obligations.IgnoredHeaderBytesHaveNoEffect : Prop :=
  ∀ (s : State) (m : Memory), s.cfg = defaultConfig → 8 * 0x37 ≤ s.position →
    (∀ a, ¬ ignoredAddress a → m.read a = s.input.read a) →
    (∀ t, step s = .next t → step { s with input := m } = .next { t with input := m } ∧ 8 * 0x37 ≤ t.position) ∧
    (∀ f, step s = .fault f → step { s with input := m } = .fault f)

/-- Derived from 30_encoding.md R92 and 70_reset_and_hazards.md R243: bytes appended to the input change no step that
neither fails nor leaves the loop by exhaustion. -/
def Obligations.AppendedBytesMatterOnlyAtTheEnd : Prop :=
  ∀ (s t : State) (m : Memory) (n : Nat), s.inLen ≤ n → (∀ a < s.inLen, m.read a = s.input.read a) →
    step s = .next t → t.phase ≠ .failed →
    (s.phase = .decodeLoop → s.position < 8 * s.inLen ∨ ∃ d, s.declen = some d ∧ s.pos = d.toNat) →
    step { s with input := m, inLen := n } = .next { t with input := m, inLen := n }
end

