-- ==== Sys2Proof/Laws/State.lean ====
section
/-! SUPPORT. One lemma per field per named update of the state, each true by `rfl`, so that no proof unfolds a record
update. The updates: a fault, a cursor move, a byte pushed to `OUT`, a new arena, a new phase, and the register writes of
`ReadHeader`, `ReadOptions` and `BuildTable`. -/

namespace Sys2Proof.Machine

variable (s : State)

@[simp] theorem State.takeFault_cfg (i : FaultInfo) : (s.takeFault i).cfg = s.cfg := rfl
@[simp] theorem State.takeFault_maxOutput (i : FaultInfo) : (s.takeFault i).maxOutput = s.maxOutput := rfl
@[simp] theorem State.takeFault_phase (i : FaultInfo) : (s.takeFault i).phase = .failed := rfl
@[simp] theorem State.takeFault_fault (i : FaultInfo) : (s.takeFault i).fault = some i.kind := rfl
@[simp] theorem State.takeFault_faultInfo (i : FaultInfo) : (s.takeFault i).faultInfo = some i := rfl
@[simp] theorem State.takeFault_input (i : FaultInfo) : (s.takeFault i).input = s.input := rfl
@[simp] theorem State.takeFault_inLen (i : FaultInfo) : (s.takeFault i).inLen = s.inLen := rfl
@[simp] theorem State.takeFault_declen (i : FaultInfo) : (s.takeFault i).declen = s.declen := rfl
@[simp] theorem State.takeFault_hdrCsum (i : FaultInfo) : (s.takeFault i).hdrCsum = s.hdrCsum := rfl
@[simp] theorem State.takeFault_optRaw (i : FaultInfo) : (s.takeFault i).optRaw = s.optRaw := rfl
@[simp] theorem State.takeFault_optMin (i : FaultInfo) : (s.takeFault i).optMin = s.optMin := rfl
@[simp] theorem State.takeFault_optUb (i : FaultInfo) : (s.takeFault i).optUb = s.optUb := rfl
@[simp] theorem State.takeFault_optLbc (i : FaultInfo) : (s.takeFault i).optLbc = s.optLbc := rfl
@[simp] theorem State.takeFault_optBase (i : FaultInfo) : (s.takeFault i).optBase = s.optBase := rfl
@[simp] theorem State.takeFault_hbc (i : FaultInfo) : (s.takeFault i).hbc = s.hbc := rfl
@[simp] theorem State.takeFault_firstReal (i : FaultInfo) : (s.takeFault i).firstReal = s.firstReal := rfl
@[simp] theorem State.takeFault_byteWidth (i : FaultInfo) : (s.takeFault i).byteWidth = s.byteWidth := rfl
@[simp] theorem State.takeFault_tableSize (i : FaultInfo) : (s.takeFault i).tableSize = s.tableSize := rfl
@[simp] theorem State.takeFault_etf (i : FaultInfo) : (s.takeFault i).etf = s.etf := rfl
@[simp] theorem State.takeFault_indexed (i : FaultInfo) : (s.takeFault i).indexed = s.indexed := rfl
@[simp] theorem State.takeFault_table (i : FaultInfo) : (s.takeFault i).table = s.table := rfl
@[simp] theorem State.takeFault_start (i : FaultInfo) : (s.takeFault i).start = s.start := rfl
@[simp] theorem State.takeFault_cur (i : FaultInfo) : (s.takeFault i).cur = s.cur := rfl
@[simp] theorem State.takeFault_out (i : FaultInfo) : (s.takeFault i).out = s.out := rfl
@[simp] theorem State.takeFault_pos (i : FaultInfo) : (s.takeFault i).pos = s.pos := rfl
@[simp] theorem State.takeFault_source (i : FaultInfo) : (s.takeFault i).source = s.source := rfl
@[simp] theorem State.takeFault_position (i : FaultInfo) : (s.takeFault i).position = s.position := rfl

@[simp] theorem State.moveTo_cfg (p : Nat) : (s.moveTo p).cfg = s.cfg := rfl
@[simp] theorem State.moveTo_maxOutput (p : Nat) : (s.moveTo p).maxOutput = s.maxOutput := rfl
@[simp] theorem State.moveTo_phase (p : Nat) : (s.moveTo p).phase = s.phase := rfl
@[simp] theorem State.moveTo_fault (p : Nat) : (s.moveTo p).fault = s.fault := rfl
@[simp] theorem State.moveTo_faultInfo (p : Nat) : (s.moveTo p).faultInfo = s.faultInfo := rfl
@[simp] theorem State.moveTo_input (p : Nat) : (s.moveTo p).input = s.input := rfl
@[simp] theorem State.moveTo_inLen (p : Nat) : (s.moveTo p).inLen = s.inLen := rfl
@[simp] theorem State.moveTo_declen (p : Nat) : (s.moveTo p).declen = s.declen := rfl
@[simp] theorem State.moveTo_hdrCsum (p : Nat) : (s.moveTo p).hdrCsum = s.hdrCsum := rfl
@[simp] theorem State.moveTo_optRaw (p : Nat) : (s.moveTo p).optRaw = s.optRaw := rfl
@[simp] theorem State.moveTo_optMin (p : Nat) : (s.moveTo p).optMin = s.optMin := rfl
@[simp] theorem State.moveTo_optUb (p : Nat) : (s.moveTo p).optUb = s.optUb := rfl
@[simp] theorem State.moveTo_optLbc (p : Nat) : (s.moveTo p).optLbc = s.optLbc := rfl
@[simp] theorem State.moveTo_optBase (p : Nat) : (s.moveTo p).optBase = s.optBase := rfl
@[simp] theorem State.moveTo_hbc (p : Nat) : (s.moveTo p).hbc = s.hbc := rfl
@[simp] theorem State.moveTo_firstReal (p : Nat) : (s.moveTo p).firstReal = s.firstReal := rfl
@[simp] theorem State.moveTo_byteWidth (p : Nat) : (s.moveTo p).byteWidth = s.byteWidth := rfl
@[simp] theorem State.moveTo_tableSize (p : Nat) : (s.moveTo p).tableSize = s.tableSize := rfl
@[simp] theorem State.moveTo_etf (p : Nat) : (s.moveTo p).etf = s.etf := rfl
@[simp] theorem State.moveTo_indexed (p : Nat) : (s.moveTo p).indexed = s.indexed := rfl
@[simp] theorem State.moveTo_table (p : Nat) : (s.moveTo p).table = s.table := rfl
@[simp] theorem State.moveTo_start (p : Nat) : (s.moveTo p).start = s.start := rfl
@[simp] theorem State.moveTo_cur (p : Nat) : (s.moveTo p).cur = Cursor.ofPosition p := rfl
@[simp] theorem State.moveTo_out (p : Nat) : (s.moveTo p).out = s.out := rfl
@[simp] theorem State.moveTo_pos (p : Nat) : (s.moveTo p).pos = s.pos := rfl
@[simp] theorem State.moveTo_source (p : Nat) : (s.moveTo p).source = s.source := rfl

@[simp] theorem State.pushByte_cfg (b : Byte) : (s.pushByte b).cfg = s.cfg := rfl
@[simp] theorem State.pushByte_maxOutput (b : Byte) : (s.pushByte b).maxOutput = s.maxOutput := rfl
@[simp] theorem State.pushByte_phase (b : Byte) : (s.pushByte b).phase = s.phase := rfl
@[simp] theorem State.pushByte_fault (b : Byte) : (s.pushByte b).fault = s.fault := rfl
@[simp] theorem State.pushByte_faultInfo (b : Byte) : (s.pushByte b).faultInfo = s.faultInfo := rfl
@[simp] theorem State.pushByte_input (b : Byte) : (s.pushByte b).input = s.input := rfl
@[simp] theorem State.pushByte_inLen (b : Byte) : (s.pushByte b).inLen = s.inLen := rfl
@[simp] theorem State.pushByte_declen (b : Byte) : (s.pushByte b).declen = s.declen := rfl
@[simp] theorem State.pushByte_hdrCsum (b : Byte) : (s.pushByte b).hdrCsum = s.hdrCsum := rfl
@[simp] theorem State.pushByte_optRaw (b : Byte) : (s.pushByte b).optRaw = s.optRaw := rfl
@[simp] theorem State.pushByte_optMin (b : Byte) : (s.pushByte b).optMin = s.optMin := rfl
@[simp] theorem State.pushByte_optUb (b : Byte) : (s.pushByte b).optUb = s.optUb := rfl
@[simp] theorem State.pushByte_optLbc (b : Byte) : (s.pushByte b).optLbc = s.optLbc := rfl
@[simp] theorem State.pushByte_optBase (b : Byte) : (s.pushByte b).optBase = s.optBase := rfl
@[simp] theorem State.pushByte_hbc (b : Byte) : (s.pushByte b).hbc = s.hbc := rfl
@[simp] theorem State.pushByte_firstReal (b : Byte) : (s.pushByte b).firstReal = s.firstReal := rfl
@[simp] theorem State.pushByte_byteWidth (b : Byte) : (s.pushByte b).byteWidth = s.byteWidth := rfl
@[simp] theorem State.pushByte_tableSize (b : Byte) : (s.pushByte b).tableSize = s.tableSize := rfl
@[simp] theorem State.pushByte_etf (b : Byte) : (s.pushByte b).etf = s.etf := rfl
@[simp] theorem State.pushByte_indexed (b : Byte) : (s.pushByte b).indexed = s.indexed := rfl
@[simp] theorem State.pushByte_table (b : Byte) : (s.pushByte b).table = s.table := rfl
@[simp] theorem State.pushByte_start (b : Byte) : (s.pushByte b).start = s.start := rfl
@[simp] theorem State.pushByte_cur (b : Byte) : (s.pushByte b).cur = s.cur := rfl
@[simp] theorem State.pushByte_out (b : Byte) : (s.pushByte b).out = s.out.write s.pos b := rfl
@[simp] theorem State.pushByte_pos (b : Byte) : (s.pushByte b).pos = s.pos + 1 := rfl
@[simp] theorem State.pushByte_source (b : Byte) : (s.pushByte b).source = s.source := rfl
@[simp] theorem State.pushByte_position (b : Byte) : (s.pushByte b).position = s.position := rfl

@[simp] theorem State.withTable_cfg (t : Arena) : (s.withTable t).cfg = s.cfg := rfl
@[simp] theorem State.withTable_maxOutput (t : Arena) : (s.withTable t).maxOutput = s.maxOutput := rfl
@[simp] theorem State.withTable_phase (t : Arena) : (s.withTable t).phase = s.phase := rfl
@[simp] theorem State.withTable_fault (t : Arena) : (s.withTable t).fault = s.fault := rfl
@[simp] theorem State.withTable_faultInfo (t : Arena) : (s.withTable t).faultInfo = s.faultInfo := rfl
@[simp] theorem State.withTable_input (t : Arena) : (s.withTable t).input = s.input := rfl
@[simp] theorem State.withTable_inLen (t : Arena) : (s.withTable t).inLen = s.inLen := rfl
@[simp] theorem State.withTable_declen (t : Arena) : (s.withTable t).declen = s.declen := rfl
@[simp] theorem State.withTable_hdrCsum (t : Arena) : (s.withTable t).hdrCsum = s.hdrCsum := rfl
@[simp] theorem State.withTable_optRaw (t : Arena) : (s.withTable t).optRaw = s.optRaw := rfl
@[simp] theorem State.withTable_optMin (t : Arena) : (s.withTable t).optMin = s.optMin := rfl
@[simp] theorem State.withTable_optUb (t : Arena) : (s.withTable t).optUb = s.optUb := rfl
@[simp] theorem State.withTable_optLbc (t : Arena) : (s.withTable t).optLbc = s.optLbc := rfl
@[simp] theorem State.withTable_optBase (t : Arena) : (s.withTable t).optBase = s.optBase := rfl
@[simp] theorem State.withTable_hbc (t : Arena) : (s.withTable t).hbc = s.hbc := rfl
@[simp] theorem State.withTable_firstReal (t : Arena) : (s.withTable t).firstReal = s.firstReal := rfl
@[simp] theorem State.withTable_byteWidth (t : Arena) : (s.withTable t).byteWidth = s.byteWidth := rfl
@[simp] theorem State.withTable_tableSize (t : Arena) : (s.withTable t).tableSize = s.tableSize := rfl
@[simp] theorem State.withTable_etf (t : Arena) : (s.withTable t).etf = s.etf := rfl
@[simp] theorem State.withTable_indexed (t : Arena) : (s.withTable t).indexed = s.indexed := rfl
@[simp] theorem State.withTable_table (t : Arena) : (s.withTable t).table = t := rfl
@[simp] theorem State.withTable_start (t : Arena) : (s.withTable t).start = s.start := rfl
@[simp] theorem State.withTable_cur (t : Arena) : (s.withTable t).cur = s.cur := rfl
@[simp] theorem State.withTable_out (t : Arena) : (s.withTable t).out = s.out := rfl
@[simp] theorem State.withTable_pos (t : Arena) : (s.withTable t).pos = s.pos := rfl
@[simp] theorem State.withTable_source (t : Arena) : (s.withTable t).source = s.source := rfl
@[simp] theorem State.withTable_position (t : Arena) : (s.withTable t).position = s.position := rfl

@[simp] theorem State.withPhase_cfg (p : Phase) : (s.withPhase p).cfg = s.cfg := rfl
@[simp] theorem State.withPhase_maxOutput (p : Phase) : (s.withPhase p).maxOutput = s.maxOutput := rfl
@[simp] theorem State.withPhase_phase (p : Phase) : (s.withPhase p).phase = p := rfl
@[simp] theorem State.withPhase_fault (p : Phase) : (s.withPhase p).fault = s.fault := rfl
@[simp] theorem State.withPhase_faultInfo (p : Phase) : (s.withPhase p).faultInfo = s.faultInfo := rfl
@[simp] theorem State.withPhase_input (p : Phase) : (s.withPhase p).input = s.input := rfl
@[simp] theorem State.withPhase_inLen (p : Phase) : (s.withPhase p).inLen = s.inLen := rfl
@[simp] theorem State.withPhase_declen (p : Phase) : (s.withPhase p).declen = s.declen := rfl
@[simp] theorem State.withPhase_hdrCsum (p : Phase) : (s.withPhase p).hdrCsum = s.hdrCsum := rfl
@[simp] theorem State.withPhase_optRaw (p : Phase) : (s.withPhase p).optRaw = s.optRaw := rfl
@[simp] theorem State.withPhase_optMin (p : Phase) : (s.withPhase p).optMin = s.optMin := rfl
@[simp] theorem State.withPhase_optUb (p : Phase) : (s.withPhase p).optUb = s.optUb := rfl
@[simp] theorem State.withPhase_optLbc (p : Phase) : (s.withPhase p).optLbc = s.optLbc := rfl
@[simp] theorem State.withPhase_optBase (p : Phase) : (s.withPhase p).optBase = s.optBase := rfl
@[simp] theorem State.withPhase_hbc (p : Phase) : (s.withPhase p).hbc = s.hbc := rfl
@[simp] theorem State.withPhase_firstReal (p : Phase) : (s.withPhase p).firstReal = s.firstReal := rfl
@[simp] theorem State.withPhase_byteWidth (p : Phase) : (s.withPhase p).byteWidth = s.byteWidth := rfl
@[simp] theorem State.withPhase_tableSize (p : Phase) : (s.withPhase p).tableSize = s.tableSize := rfl
@[simp] theorem State.withPhase_etf (p : Phase) : (s.withPhase p).etf = s.etf := rfl
@[simp] theorem State.withPhase_indexed (p : Phase) : (s.withPhase p).indexed = s.indexed := rfl
@[simp] theorem State.withPhase_table (p : Phase) : (s.withPhase p).table = s.table := rfl
@[simp] theorem State.withPhase_start (p : Phase) : (s.withPhase p).start = s.start := rfl
@[simp] theorem State.withPhase_cur (p : Phase) : (s.withPhase p).cur = s.cur := rfl
@[simp] theorem State.withPhase_out (p : Phase) : (s.withPhase p).out = s.out := rfl
@[simp] theorem State.withPhase_pos (p : Phase) : (s.withPhase p).pos = s.pos := rfl
@[simp] theorem State.withPhase_source (p : Phase) : (s.withPhase p).source = s.source := rfl
@[simp] theorem State.withPhase_position (p : Phase) : (s.withPhase p).position = s.position := rfl

@[simp] theorem State.withHeader_cfg (d : Word32) (c : Word64) : (s.withHeader d c).cfg = s.cfg := rfl
@[simp] theorem State.withHeader_maxOutput (d : Word32) (c : Word64) : (s.withHeader d c).maxOutput = s.maxOutput := rfl
@[simp] theorem State.withHeader_phase (d : Word32) (c : Word64) : (s.withHeader d c).phase = s.phase := rfl
@[simp] theorem State.withHeader_fault (d : Word32) (c : Word64) : (s.withHeader d c).fault = s.fault := rfl
@[simp] theorem State.withHeader_faultInfo (d : Word32) (c : Word64) : (s.withHeader d c).faultInfo = s.faultInfo := rfl
@[simp] theorem State.withHeader_input (d : Word32) (c : Word64) : (s.withHeader d c).input = s.input := rfl
@[simp] theorem State.withHeader_inLen (d : Word32) (c : Word64) : (s.withHeader d c).inLen = s.inLen := rfl
@[simp] theorem State.withHeader_declen (d : Word32) (c : Word64) : (s.withHeader d c).declen = some d := rfl
@[simp] theorem State.withHeader_hdrCsum (d : Word32) (c : Word64) : (s.withHeader d c).hdrCsum = some c := rfl
@[simp] theorem State.withHeader_optRaw (d : Word32) (c : Word64) : (s.withHeader d c).optRaw = s.optRaw := rfl
@[simp] theorem State.withHeader_optMin (d : Word32) (c : Word64) : (s.withHeader d c).optMin = s.optMin := rfl
@[simp] theorem State.withHeader_optUb (d : Word32) (c : Word64) : (s.withHeader d c).optUb = s.optUb := rfl
@[simp] theorem State.withHeader_optLbc (d : Word32) (c : Word64) : (s.withHeader d c).optLbc = s.optLbc := rfl
@[simp] theorem State.withHeader_optBase (d : Word32) (c : Word64) : (s.withHeader d c).optBase = s.optBase := rfl
@[simp] theorem State.withHeader_hbc (d : Word32) (c : Word64) : (s.withHeader d c).hbc = s.hbc := rfl
@[simp] theorem State.withHeader_firstReal (d : Word32) (c : Word64) : (s.withHeader d c).firstReal = s.firstReal := rfl
@[simp] theorem State.withHeader_byteWidth (d : Word32) (c : Word64) : (s.withHeader d c).byteWidth = s.byteWidth := rfl
@[simp] theorem State.withHeader_tableSize (d : Word32) (c : Word64) : (s.withHeader d c).tableSize = s.tableSize := rfl
@[simp] theorem State.withHeader_etf (d : Word32) (c : Word64) : (s.withHeader d c).etf = s.etf := rfl
@[simp] theorem State.withHeader_indexed (d : Word32) (c : Word64) : (s.withHeader d c).indexed = s.indexed := rfl
@[simp] theorem State.withHeader_table (d : Word32) (c : Word64) : (s.withHeader d c).table = s.table := rfl
@[simp] theorem State.withHeader_start (d : Word32) (c : Word64) : (s.withHeader d c).start = s.start := rfl
@[simp] theorem State.withHeader_cur (d : Word32) (c : Word64) : (s.withHeader d c).cur = s.cur := rfl
@[simp] theorem State.withHeader_out (d : Word32) (c : Word64) : (s.withHeader d c).out = s.out := rfl
@[simp] theorem State.withHeader_pos (d : Word32) (c : Word64) : (s.withHeader d c).pos = s.pos := rfl
@[simp] theorem State.withHeader_source (d : Word32) (c : Word64) : (s.withHeader d c).source = s.source := rfl
@[simp] theorem State.withHeader_position (d : Word32) (c : Word64) : (s.withHeader d c).position = s.position := rfl

@[simp] theorem State.withOptions_cfg (r m u l b : Byte) : (s.withOptions r m u l b).cfg = s.cfg := rfl
@[simp] theorem State.withOptions_maxOutput (r m u l b : Byte) : (s.withOptions r m u l b).maxOutput = s.maxOutput := rfl
@[simp] theorem State.withOptions_phase (r m u l b : Byte) : (s.withOptions r m u l b).phase = s.phase := rfl
@[simp] theorem State.withOptions_fault (r m u l b : Byte) : (s.withOptions r m u l b).fault = s.fault := rfl
@[simp] theorem State.withOptions_faultInfo (r m u l b : Byte) : (s.withOptions r m u l b).faultInfo = s.faultInfo := rfl
@[simp] theorem State.withOptions_input (r m u l b : Byte) : (s.withOptions r m u l b).input = s.input := rfl
@[simp] theorem State.withOptions_inLen (r m u l b : Byte) : (s.withOptions r m u l b).inLen = s.inLen := rfl
@[simp] theorem State.withOptions_declen (r m u l b : Byte) : (s.withOptions r m u l b).declen = s.declen := rfl
@[simp] theorem State.withOptions_hdrCsum (r m u l b : Byte) : (s.withOptions r m u l b).hdrCsum = s.hdrCsum := rfl
@[simp] theorem State.withOptions_optRaw (r m u l b : Byte) : (s.withOptions r m u l b).optRaw = some r := rfl
@[simp] theorem State.withOptions_optMin (r m u l b : Byte) : (s.withOptions r m u l b).optMin = some m := rfl
@[simp] theorem State.withOptions_optUb (r m u l b : Byte) : (s.withOptions r m u l b).optUb = some u := rfl
@[simp] theorem State.withOptions_optLbc (r m u l b : Byte) : (s.withOptions r m u l b).optLbc = some l := rfl
@[simp] theorem State.withOptions_optBase (r m u l b : Byte) : (s.withOptions r m u l b).optBase = some b := rfl
@[simp] theorem State.withOptions_hbc (r m u l b : Byte) : (s.withOptions r m u l b).hbc = s.hbc := rfl
@[simp] theorem State.withOptions_firstReal (r m u l b : Byte) : (s.withOptions r m u l b).firstReal = s.firstReal := rfl
@[simp] theorem State.withOptions_byteWidth (r m u l b : Byte) : (s.withOptions r m u l b).byteWidth = s.byteWidth := rfl
@[simp] theorem State.withOptions_tableSize (r m u l b : Byte) : (s.withOptions r m u l b).tableSize = s.tableSize := rfl
@[simp] theorem State.withOptions_etf (r m u l b : Byte) : (s.withOptions r m u l b).etf = s.etf := rfl
@[simp] theorem State.withOptions_indexed (r m u l b : Byte) : (s.withOptions r m u l b).indexed = s.indexed := rfl
@[simp] theorem State.withOptions_table (r m u l b : Byte) : (s.withOptions r m u l b).table = s.table := rfl
@[simp] theorem State.withOptions_start (r m u l b : Byte) : (s.withOptions r m u l b).start = s.start := rfl
@[simp] theorem State.withOptions_cur (r m u l b : Byte) : (s.withOptions r m u l b).cur = s.cur := rfl
@[simp] theorem State.withOptions_out (r m u l b : Byte) : (s.withOptions r m u l b).out = s.out := rfl
@[simp] theorem State.withOptions_pos (r m u l b : Byte) : (s.withOptions r m u l b).pos = s.pos := rfl
@[simp] theorem State.withOptions_source (r m u l b : Byte) : (s.withOptions r m u l b).source = s.source := rfl
@[simp] theorem State.withOptions_position (r m u l b : Byte) : (s.withOptions r m u l b).position = s.position := rfl

@[simp] theorem State.withDerived_cfg (h : Nat) : (s.withDerived h).cfg = s.cfg := rfl
@[simp] theorem State.withDerived_maxOutput (h : Nat) : (s.withDerived h).maxOutput = s.maxOutput := rfl
@[simp] theorem State.withDerived_phase (h : Nat) : (s.withDerived h).phase = s.phase := rfl
@[simp] theorem State.withDerived_fault (h : Nat) : (s.withDerived h).fault = s.fault := rfl
@[simp] theorem State.withDerived_faultInfo (h : Nat) : (s.withDerived h).faultInfo = s.faultInfo := rfl
@[simp] theorem State.withDerived_input (h : Nat) : (s.withDerived h).input = s.input := rfl
@[simp] theorem State.withDerived_inLen (h : Nat) : (s.withDerived h).inLen = s.inLen := rfl
@[simp] theorem State.withDerived_declen (h : Nat) : (s.withDerived h).declen = s.declen := rfl
@[simp] theorem State.withDerived_hdrCsum (h : Nat) : (s.withDerived h).hdrCsum = s.hdrCsum := rfl
@[simp] theorem State.withDerived_optRaw (h : Nat) : (s.withDerived h).optRaw = s.optRaw := rfl
@[simp] theorem State.withDerived_optMin (h : Nat) : (s.withDerived h).optMin = s.optMin := rfl
@[simp] theorem State.withDerived_optUb (h : Nat) : (s.withDerived h).optUb = s.optUb := rfl
@[simp] theorem State.withDerived_optLbc (h : Nat) : (s.withDerived h).optLbc = s.optLbc := rfl
@[simp] theorem State.withDerived_optBase (h : Nat) : (s.withDerived h).optBase = s.optBase := rfl
@[simp] theorem State.withDerived_hbc (h : Nat) : (s.withDerived h).hbc = some h := rfl
@[simp] theorem State.withDerived_firstReal (h : Nat) : (s.withDerived h).firstReal = some (2 ^ h) := rfl
@[simp] theorem State.withDerived_byteWidth (h : Nat) : (s.withDerived h).byteWidth = some (byteWidthOf h) := rfl
@[simp] theorem State.withDerived_tableSize (h : Nat) : (s.withDerived h).tableSize = some (tableSizeOf (2 ^ h)) := rfl
@[simp] theorem State.withDerived_etf (h : Nat) : (s.withDerived h).etf = s.etf := rfl
@[simp] theorem State.withDerived_indexed (h : Nat) : (s.withDerived h).indexed = s.indexed := rfl
@[simp] theorem State.withDerived_table (h : Nat) : (s.withDerived h).table = s.table := rfl
@[simp] theorem State.withDerived_start (h : Nat) : (s.withDerived h).start = s.start := rfl
@[simp] theorem State.withDerived_cur (h : Nat) : (s.withDerived h).cur = s.cur := rfl
@[simp] theorem State.withDerived_out (h : Nat) : (s.withDerived h).out = s.out := rfl
@[simp] theorem State.withDerived_pos (h : Nat) : (s.withDerived h).pos = s.pos := rfl
@[simp] theorem State.withDerived_source (h : Nat) : (s.withDerived h).source = s.source := rfl
@[simp] theorem State.withDerived_position (h : Nat) : (s.withDerived h).position = s.position := rfl

@[simp] theorem State.withPreamble_cfg (e : Nat) (x : Bool) : (s.withPreamble e x).cfg = s.cfg := rfl
@[simp] theorem State.withPreamble_maxOutput (e : Nat) (x : Bool) : (s.withPreamble e x).maxOutput = s.maxOutput := rfl
@[simp] theorem State.withPreamble_phase (e : Nat) (x : Bool) : (s.withPreamble e x).phase = s.phase := rfl
@[simp] theorem State.withPreamble_fault (e : Nat) (x : Bool) : (s.withPreamble e x).fault = s.fault := rfl
@[simp] theorem State.withPreamble_faultInfo (e : Nat) (x : Bool) : (s.withPreamble e x).faultInfo = s.faultInfo := rfl
@[simp] theorem State.withPreamble_input (e : Nat) (x : Bool) : (s.withPreamble e x).input = s.input := rfl
@[simp] theorem State.withPreamble_inLen (e : Nat) (x : Bool) : (s.withPreamble e x).inLen = s.inLen := rfl
@[simp] theorem State.withPreamble_declen (e : Nat) (x : Bool) : (s.withPreamble e x).declen = s.declen := rfl
@[simp] theorem State.withPreamble_hdrCsum (e : Nat) (x : Bool) : (s.withPreamble e x).hdrCsum = s.hdrCsum := rfl
@[simp] theorem State.withPreamble_optRaw (e : Nat) (x : Bool) : (s.withPreamble e x).optRaw = s.optRaw := rfl
@[simp] theorem State.withPreamble_optMin (e : Nat) (x : Bool) : (s.withPreamble e x).optMin = s.optMin := rfl
@[simp] theorem State.withPreamble_optUb (e : Nat) (x : Bool) : (s.withPreamble e x).optUb = s.optUb := rfl
@[simp] theorem State.withPreamble_optLbc (e : Nat) (x : Bool) : (s.withPreamble e x).optLbc = s.optLbc := rfl
@[simp] theorem State.withPreamble_optBase (e : Nat) (x : Bool) : (s.withPreamble e x).optBase = s.optBase := rfl
@[simp] theorem State.withPreamble_hbc (e : Nat) (x : Bool) : (s.withPreamble e x).hbc = s.hbc := rfl
@[simp] theorem State.withPreamble_firstReal (e : Nat) (x : Bool) : (s.withPreamble e x).firstReal = s.firstReal := rfl
@[simp] theorem State.withPreamble_byteWidth (e : Nat) (x : Bool) : (s.withPreamble e x).byteWidth = s.byteWidth := rfl
@[simp] theorem State.withPreamble_tableSize (e : Nat) (x : Bool) : (s.withPreamble e x).tableSize = s.tableSize := rfl
@[simp] theorem State.withPreamble_etf (e : Nat) (x : Bool) : (s.withPreamble e x).etf = some e := rfl
@[simp] theorem State.withPreamble_indexed (e : Nat) (x : Bool) : (s.withPreamble e x).indexed = some x := rfl
@[simp] theorem State.withPreamble_table (e : Nat) (x : Bool) : (s.withPreamble e x).table = s.table := rfl
@[simp] theorem State.withPreamble_start (e : Nat) (x : Bool) : (s.withPreamble e x).start = s.start := rfl
@[simp] theorem State.withPreamble_cur (e : Nat) (x : Bool) : (s.withPreamble e x).cur = s.cur := rfl
@[simp] theorem State.withPreamble_out (e : Nat) (x : Bool) : (s.withPreamble e x).out = s.out := rfl
@[simp] theorem State.withPreamble_pos (e : Nat) (x : Bool) : (s.withPreamble e x).pos = s.pos := rfl
@[simp] theorem State.withPreamble_source (e : Nat) (x : Bool) : (s.withPreamble e x).source = s.source := rfl
@[simp] theorem State.withPreamble_position (e : Nat) (x : Bool) : (s.withPreamble e x).position = s.position := rfl

@[simp] theorem State.mergeTable_cfg (f : Nat) : (s.mergeTable f).cfg = s.cfg := rfl
@[simp] theorem State.mergeTable_maxOutput (f : Nat) : (s.mergeTable f).maxOutput = s.maxOutput := rfl
@[simp] theorem State.mergeTable_phase (f : Nat) : (s.mergeTable f).phase = .decodeLoop := rfl
@[simp] theorem State.mergeTable_fault (f : Nat) : (s.mergeTable f).fault = s.fault := rfl
@[simp] theorem State.mergeTable_faultInfo (f : Nat) : (s.mergeTable f).faultInfo = s.faultInfo := rfl
@[simp] theorem State.mergeTable_input (f : Nat) : (s.mergeTable f).input = s.input := rfl
@[simp] theorem State.mergeTable_inLen (f : Nat) : (s.mergeTable f).inLen = s.inLen := rfl
@[simp] theorem State.mergeTable_declen (f : Nat) : (s.mergeTable f).declen = s.declen := rfl
@[simp] theorem State.mergeTable_hdrCsum (f : Nat) : (s.mergeTable f).hdrCsum = s.hdrCsum := rfl
@[simp] theorem State.mergeTable_optRaw (f : Nat) : (s.mergeTable f).optRaw = s.optRaw := rfl
@[simp] theorem State.mergeTable_optMin (f : Nat) : (s.mergeTable f).optMin = s.optMin := rfl
@[simp] theorem State.mergeTable_optUb (f : Nat) : (s.mergeTable f).optUb = s.optUb := rfl
@[simp] theorem State.mergeTable_optLbc (f : Nat) : (s.mergeTable f).optLbc = s.optLbc := rfl
@[simp] theorem State.mergeTable_optBase (f : Nat) : (s.mergeTable f).optBase = s.optBase := rfl
@[simp] theorem State.mergeTable_hbc (f : Nat) : (s.mergeTable f).hbc = s.hbc := rfl
@[simp] theorem State.mergeTable_firstReal (f : Nat) : (s.mergeTable f).firstReal = s.firstReal := rfl
@[simp] theorem State.mergeTable_byteWidth (f : Nat) : (s.mergeTable f).byteWidth = s.byteWidth := rfl
@[simp] theorem State.mergeTable_tableSize (f : Nat) : (s.mergeTable f).tableSize = s.tableSize := rfl
@[simp] theorem State.mergeTable_etf (f : Nat) : (s.mergeTable f).etf = s.etf := rfl
@[simp] theorem State.mergeTable_indexed (f : Nat) : (s.mergeTable f).indexed = s.indexed := rfl
@[simp] theorem State.mergeTable_table (f : Nat) : (s.mergeTable f).table = (mergeStage f s.table).1 := rfl
@[simp] theorem State.mergeTable_start (f : Nat) : (s.mergeTable f).start = some (mergeStage f s.table).2 := rfl
@[simp] theorem State.mergeTable_cur (f : Nat) : (s.mergeTable f).cur = s.cur := rfl
@[simp] theorem State.mergeTable_out (f : Nat) : (s.mergeTable f).out = s.out := rfl
@[simp] theorem State.mergeTable_pos (f : Nat) : (s.mergeTable f).pos = s.pos := rfl
@[simp] theorem State.mergeTable_source (f : Nat) : (s.mergeTable f).source = s.source := rfl
@[simp] theorem State.mergeTable_position (f : Nat) : (s.mergeTable f).position = s.position := rfl

end Sys2Proof.Machine
end

