-- ==== Sys2Proof/Laws/Engine.lean ====
section
/-! SUPPORT. How a computation of a step runs: sequencing once for all, and each primitive operation of Machine/Ops.lean
said once. -/

namespace Sys2Proof.Machine

section Sequencing

variable {ε σ α β : Type}

/-- A sequence completes exactly when both parts do. -/
theorem bind_eq_ok {x : EStateM ε σ α} {f : α → EStateM ε σ β} {s t : σ} {b : β} :
    (x >>= f) s = .ok b t ↔ ∃ a u, x s = .ok a u ∧ f a u = .ok b t := by
  show EStateM.bind x f s = .ok b t ↔ _
  unfold EStateM.bind
  cases h : x s <;> simp [and_assoc]

/-- A sequence stops exactly when its first part does, or its second after the first. -/
theorem bind_eq_error {x : EStateM ε σ α} {f : α → EStateM ε σ β} {s t : σ} {e : ε} :
    (x >>= f) s = .error e t ↔ x s = .error e t ∨ ∃ a u, x s = .ok a u ∧ f a u = .error e t := by
  show EStateM.bind x f s = .error e t ↔ _
  unfold EStateM.bind
  cases h : x s <;> simp [and_assoc]

theorem bind_of_ok {x : EStateM ε σ α} {f : α → EStateM ε σ β} {s u : σ} {a : α} (h : x s = .ok a u) :
    (x >>= f) s = f a u := by
  show EStateM.bind x f s = _
  unfold EStateM.bind
  rw [h]

theorem bind_of_error {x : EStateM ε σ α} {f : α → EStateM ε σ β} {s u : σ} {e : ε} (h : x s = .error e u) :
    (x >>= f) s = .error e u := by
  show EStateM.bind x f s = _
  unfold EStateM.bind
  rw [h]

@[simp] theorem pure_run (a : α) (s : σ) : (pure a : EStateM ε σ α) s = .ok a s := rfl

@[simp] theorem get_run (s : σ) : (get : EStateM ε σ σ) s = .ok s s := rfl

@[simp] theorem throw_run (e : ε) (s : σ) : (throw e : EStateM ε σ α) s = .error e s := rfl

@[simp] theorem get_bind_run (f : σ → EStateM ε σ β) (s : σ) : ((get : EStateM ε σ σ) >>= f) s = f s s := rfl

@[simp] theorem pure_bind_run (a : α) (f : α → EStateM ε σ β) (s : σ) :
    ((pure a : EStateM ε σ α) >>= f) s = f a s := rfl

theorem ite_run {c : Prop} [Decidable c] (x y : EStateM ε σ α) (s : σ) :
    (if c then x else y) s = if c then x s else y s := by
  split <;> rfl

end Sequencing

section Primitives

variable {α β : Type}

@[simp] theorem raise_run (i : FaultInfo) (s : State) : (raise i : Engine α) s = .error (.raised i) s := rfl

@[simp] theorem update_run (f : State → State) (s : State) : update f s = .ok () (f s) := rfl

@[simp] theorem update_bind_run (f : State → State) (g : Unit → Engine β) (s : State) :
    (update f >>= g) s = g () (f s) := rfl

@[simp] theorem settle_ok (a : α) (s : State) : settle (.ok a s) = .next s := rfl

@[simp] theorem settle_raised (i : FaultInfo) (s : State) :
    settle (.error (.raised i) s : EStateM.Result Stop State α) = .next (s.takeFault i) := rfl

@[simp] theorem settle_halted (f : Fault) (s : State) :
    settle (.error (.halted f) s : EStateM.Result Stop State α) = .fault f := rfl

/-- A step goes on exactly when its computation completes or the engine raises a fault. -/
theorem settle_eq_next {r : EStateM.Result Stop State α} {t : State} :
    settle r = .next t ↔ (∃ a, r = .ok a t) ∨ ∃ i s, r = .error (.raised i) s ∧ t = s.takeFault i := by
  cases r with
  | ok a s => simp
  | error e s =>
    cases e with
    | raised i => simp [eq_comm, and_assoc]
    | halted f => simp

theorem settle_ne_refused {r : EStateM.Result Stop State α} {x : Refusal} : settle r ≠ .refused x := by
  cases r with
  | ok a s => simp
  | error e s => cases e <;> simp

theorem readReg_some {r : RegName} {get : State → Option α} {s : State} {v : α} (h : get s = some v) :
    readReg r get s = .ok v s := by
  simp [readReg, h]

/-- A register read completes exactly when the register holds a value, and changes nothing. -/
theorem readReg_eq_ok {r : RegName} {get : State → Option α} {s t : State} {v : α} :
    readReg r get s = .ok v t ↔ get s = some v ∧ t = s := by
  unfold readReg
  cases h : get s <;> simp [eq_comm]

theorem readReg_eq_error {r : RegName} {get : State → Option α} {s t : State} {e : Stop} :
    readReg r get s = .error e t ↔ get s = none ∧ e = .halted (.unwritten r) ∧ t = s := by
  unfold readReg
  cases h : get s <;> simp [eq_comm]

/-- A byte read from `IN` completes exactly when the address is below `L` and holds a byte, and changes nothing. -/
theorem memReadIn_eq_ok {a : Nat} {s t : State} {b : Byte} :
    memReadIn a s = .ok b t ↔ a < s.inLen ∧ s.input.read a = some b ∧ t = s := by
  unfold memReadIn
  split
  · rename_i h
    cases hr : s.input.read a <;> simp [h, eq_comm]
  · rename_i h
    simp [h]

theorem memReadIn_eq_error {a : Nat} {s t : State} {e : Stop} :
    memReadIn a s = .error e t ↔
      (a < s.inLen → s.input.read a = none) ∧ e = .halted (.absentInput a) ∧ t = s := by
  unfold memReadIn
  split
  · rename_i h
    cases hr : s.input.read a <;> simp [h, eq_comm]
  · rename_i h
    simp [h, eq_comm]

/-- A byte read from `OUT` completes exactly when the address is below `pos` and holds a byte, and changes nothing. -/
theorem memReadOut_eq_ok {a : Nat} {s t : State} {b : Byte} :
    memReadOut a s = .ok b t ↔ a < s.pos ∧ s.out.read a = some b ∧ t = s := by
  unfold memReadOut
  split
  · rename_i h
    cases hr : s.out.read a <;> simp [h, eq_comm]
  · rename_i h
    simp [h]

theorem memReadOut_eq_error {a : Nat} {s t : State} {e : Stop} :
    memReadOut a s = .error e t ↔
      (a < s.pos → s.out.read a = none) ∧ e = .halted (.absentOutput a) ∧ t = s := by
  unfold memReadOut
  split
  · rename_i h
    cases hr : s.out.read a <;> simp [h, eq_comm]
  · rename_i h
    simp [h, eq_comm]

/-- A bit-reading operation at `cur` completes exactly when it does at its position, and moves `cur` alone. -/
theorem readStream_eq_ok {r : Source → BitReader α} {s t : State} {v : α} :
    readStream r s = .ok v t ↔ ∃ p, r s.source s.position = .ok v p ∧ t = s.moveTo p := by
  unfold readStream
  cases h : r s.source s.position <;> simp [eq_comm, and_assoc]

theorem readStream_eq_error {r : Source → BitReader α} {s t : State} {e : Stop} :
    readStream r s = .error e t ↔ ∃ p, r s.source s.position = .error e p ∧ t = s.moveTo p := by
  unfold readStream
  cases h : r s.source s.position <;> simp [eq_comm, and_assoc]

end Primitives

end Sys2Proof.Machine
end

