-- ==== Sys2Proof/Laws/Memory.lean ====
section
/-! SUPPORT. The laws of the byte spaces and of the arena: a read after a write, a write elsewhere, and the canonical
form kept by every operation. -/

namespace Sys2Proof.Machine

/-! ## Byte spaces -/

@[simp] theorem Memory.read_write_same (m : Memory) (a : Nat) (v : Byte) :
    Memory.read (Memory.write m a v) a = some v := by
  induction m with
  | nil => simp [Memory.write, Memory.read]
  | cons c m ih =>
    obtain ⟨k, w⟩ := c
    simp only [Memory.write]
    split
    · simp [Memory.read]
    · split
      · simp [Memory.read]
      · rename_i h
        simp [Memory.read, Ne.symm h, ih]

theorem Memory.read_write_other (m : Memory) (a b : Nat) (v : Byte) (h : b ≠ a) :
    Memory.read (Memory.write m a v) b = Memory.read m b := by
  induction m with
  | nil => simp [Memory.write, Memory.read, Ne.symm h]
  | cons c m ih =>
    obtain ⟨k, w⟩ := c
    simp only [Memory.write]
    split
    · simp [Memory.read, Ne.symm h]
    · split
      · rename_i hk
        simp [Memory.read, ← hk, Ne.symm h]
      · simp [Memory.read, ih]

theorem Memory.risingFrom_write (m : Memory) (lo a : Nat) (v : Byte) (hm : Memory.risingFrom lo m = true)
    (ha : lo ≤ a) : Memory.risingFrom lo (Memory.write m a v) = true := by
  induction m generalizing lo with
  | nil => simp [Memory.write, Memory.risingFrom, ha]
  | cons c m ih =>
    obtain ⟨k, w⟩ := c
    simp only [Memory.risingFrom, Bool.and_eq_true, decide_eq_true_eq] at hm
    simp only [Memory.write]
    split
    · rename_i h
      simp [Memory.risingFrom, ha, hm.2]
      omega
    · split
      · rename_i h
        subst h
        simp [Memory.risingFrom, ha, hm.2]
      · simp only [Memory.risingFrom, Bool.and_eq_true, decide_eq_true_eq]
        exact ⟨hm.1, ih (k + 1) hm.2 (by omega)⟩

/-- A write keeps the canonical form. -/
theorem Memory.wf_write (m : Memory) (a : Nat) (v : Byte) (h : Memory.wf m = true) :
    Memory.wf (Memory.write m a v) = true :=
  Memory.risingFrom_write m 0 a v h (Nat.zero_le a)

theorem Memory.risingFrom_ofBytesFrom (bs : List Byte) (a : Nat) :
    Memory.risingFrom a (Memory.ofBytesFrom a bs) = true := by
  induction bs generalizing a with
  | nil => rfl
  | cons b bs ih => simp [Memory.ofBytesFrom, Memory.risingFrom, ih]

/-- A buffer of bytes has the canonical form. -/
theorem Memory.wf_ofBytes (bs : List Byte) : Memory.wf (Memory.ofBytes bs) = true :=
  Memory.risingFrom_ofBytesFrom bs 0

theorem Memory.map_fst_ofBytesFrom (bs : List Byte) (a : Nat) :
    (Memory.ofBytesFrom a bs).map Prod.fst = List.range' a bs.length := by
  induction bs generalizing a with
  | nil => rfl
  | cons b bs ih => simp [Memory.ofBytesFrom, List.range'_succ, ih]

/-- A buffer of bytes holds exactly its addresses. -/
theorem Memory.covers_ofBytes (bs : List Byte) : Memory.Covers (Memory.ofBytes bs) bs.length := by
  simp [Memory.Covers, Memory.ofBytes, Memory.map_fst_ofBytesFrom, List.range_eq_range']

theorem Memory.read_ofBytesFrom (bs : List Byte) (a k : Nat) :
    Memory.read (Memory.ofBytesFrom a bs) (a + k) = bs[k]? := by
  induction bs generalizing a k with
  | nil => simp [Memory.ofBytesFrom, Memory.read]
  | cons b bs ih =>
    cases k with
    | zero => simp [Memory.ofBytesFrom, Memory.read]
    | succ k =>
      have h := ih (a + 1) k
      rw [show a + 1 + k = a + (k + 1) by omega] at h
      simp [Memory.ofBytesFrom, Memory.read, h]

/-- Byte `a` of a buffer of bytes is its byte `a`. -/
@[simp] theorem Memory.read_ofBytes (bs : List Byte) (a : Nat) : Memory.read (Memory.ofBytes bs) a = bs[a]? := by
  have h := Memory.read_ofBytesFrom bs 0 a
  rwa [Nat.zero_add] at h

theorem Memory.read_isSome_iff (m : Memory) (a : Nat) : (Memory.read m a).isSome ↔ a ∈ m.map Prod.fst := by
  induction m with
  | nil => simp [Memory.read]
  | cons c m ih =>
    obtain ⟨k, w⟩ := c
    by_cases h : k = a
    · simp [Memory.read, h]
    · simp [Memory.read, h, Ne.symm h, ih]

/-- A space that covers `n` has a byte at every address below `n`. -/
theorem Memory.Covers.read_of_lt {m : Memory} {n a : Nat} (h : Memory.Covers m n) (ha : a < n) :
    ∃ b, Memory.read m a = some b := by
  have hs : (Memory.read m a).isSome := (Memory.read_isSome_iff m a).2 (by rw [h]; simpa using ha)
  exact Option.isSome_iff_exists.1 hs

/-- A space that covers `n` has no byte at or above `n`. -/
theorem Memory.Covers.read_of_le {m : Memory} {n a : Nat} (h : Memory.Covers m n) (ha : n ≤ a) :
    Memory.read m a = none := by
  rw [← Option.not_isSome_iff_eq_none, Memory.read_isSome_iff, h]
  simpa using ha

theorem Memory.map_fst_write_above (m : Memory) (a : Nat) (v : Byte) (h : ∀ c ∈ m, c.1 < a) :
    (Memory.write m a v).map Prod.fst = m.map Prod.fst ++ [a] := by
  induction m with
  | nil => rfl
  | cons c m ih =>
    obtain ⟨k, w⟩ := c
    have hk : k < a := h (k, w) (by simp)
    have hm : ∀ c ∈ m, c.1 < a := fun c hc => h c (by simp [hc])
    rw [Memory.write, if_neg (by omega), if_neg (by omega)]
    simp [ih hm]

/-- Writing the byte at `n` of a space that covers `n` makes it cover `n + 1`. -/
theorem Memory.Covers.write {m : Memory} {n : Nat} (h : Memory.Covers m n) (v : Byte) :
    Memory.Covers (Memory.write m n v) (n + 1) := by
  have hlt : ∀ c ∈ m, c.1 < n := by
    intro c hc
    have : c.1 ∈ m.map Prod.fst := List.mem_map_of_mem hc
    rw [h] at this
    simpa using this
  rw [Memory.Covers, Memory.map_fst_write_above m n v hlt, h, List.range_succ]

/-- Reading a range answers its bytes: as many as asked, each the byte at its address. -/
theorem Memory.readRange_ok {m : Memory} {a n : Nat} {bs : List Byte} (h : Memory.readRange m a n = .ok bs) :
    bs.length = n ∧ ∀ k < n, Memory.read m (a + k) = bs[k]? := by
  induction n generalizing a bs with
  | zero =>
    simp only [Memory.readRange, Except.ok.injEq] at h
    subst h
    simp
  | succ n ih =>
    simp only [Memory.readRange] at h
    split at h
    · cases h
    · rename_i b hb
      split at h
      · cases h
      · rename_i bs' hbs
        simp only [Except.ok.injEq] at h
        subst h
        obtain ⟨hl, hr⟩ := ih hbs
        refine ⟨by simp [hl], fun k hk => ?_⟩
        cases k with
        | zero => simpa using hb
        | succ k =>
          have := hr k (by omega)
          rw [show a + 1 + k = a + (k + 1) by omega] at this
          simpa using this

/-- A range whose every address has a byte can be read. -/
theorem Memory.readRange_exists {m : Memory} {a n : Nat} (h : ∀ k < n, ∃ b, Memory.read m (a + k) = some b) :
    ∃ bs, Memory.readRange m a n = .ok bs := by
  induction n generalizing a with
  | zero => exact ⟨[], rfl⟩
  | succ n ih =>
    obtain ⟨b, hb⟩ := h 0 (by omega)
    obtain ⟨bs, hbs⟩ := ih (a := a + 1) (fun k hk => by
      have := h (k + 1) (by omega)
      rwa [show a + (k + 1) = a + 1 + k by omega] at this)
    exact ⟨b :: bs, by simp [Memory.readRange, show Memory.read m a = some b from hb, hbs]⟩

/-! ## The arena -/

theorem Arena.get_insert_same (t : Arena) (i : Nat) (e : Entry) : Arena.get (Arena.insert t i e) i = e := by
  induction t with
  | nil => simp [Arena.insert, Arena.get]
  | cons c t ih =>
    obtain ⟨k, w⟩ := c
    simp only [Arena.insert]
    split
    · simp [Arena.get]
    · split
      · simp [Arena.get]
      · rename_i h
        simp [Arena.get, Ne.symm h, ih]

theorem Arena.get_insert_other (t : Arena) (i j : Nat) (e : Entry) (h : j ≠ i) :
    Arena.get (Arena.insert t i e) j = Arena.get t j := by
  induction t with
  | nil => simp [Arena.insert, Arena.get, Ne.symm h]
  | cons c t ih =>
    obtain ⟨k, w⟩ := c
    simp only [Arena.insert]
    split
    · simp [Arena.get, Ne.symm h]
    · split
      · rename_i hk
        simp [Arena.get, ← hk, Ne.symm h]
      · simp [Arena.get, ih]

theorem Arena.get_filter_same (t : Arena) (i : Nat) :
    Arena.get (t.filter (fun c => c.1 ≠ i)) i = freshEntry := by
  induction t with
  | nil => rfl
  | cons c t ih =>
    obtain ⟨k, w⟩ := c
    by_cases h : k = i
    · simpa [List.filter_cons, h] using ih
    · simp only [List.filter_cons, ne_eq, h, not_false_eq_true, decide_true, if_true, Arena.get, if_false]
      simpa using ih

theorem Arena.get_filter_other (t : Arena) (i j : Nat) (h : j ≠ i) :
    Arena.get (t.filter (fun c => c.1 ≠ i)) j = Arena.get t j := by
  induction t with
  | nil => rfl
  | cons c t ih =>
    obtain ⟨k, w⟩ := c
    by_cases hk : k = i
    · have hj : k ≠ j := fun hj => h (by rw [← hj, hk])
      simpa [List.filter_cons, hk, Arena.get, hk ▸ hj] using ih
    · simp only [List.filter_cons, ne_eq, hk, not_false_eq_true, decide_true, if_true, Arena.get]
      split
      · rfl
      · simpa using ih

@[simp] theorem Arena.get_set_same (t : Arena) (i : Nat) (e : Entry) : Arena.get (Arena.set t i e) i = e := by
  rw [Arena.set]
  split
  · rename_i h
    rw [Arena.get_filter_same, h]
  · exact Arena.get_insert_same t i e

theorem Arena.get_set_other (t : Arena) (i j : Nat) (e : Entry) (h : j ≠ i) :
    Arena.get (Arena.set t i e) j = Arena.get t j := by
  rw [Arena.set]
  split
  · exact Arena.get_filter_other t i j h
  · exact Arena.get_insert_other t i j e h

theorem Arena.risingFrom_mono (t : Arena) (lo lo' : Nat) (h : lo' ≤ lo) (ht : Arena.risingFrom lo t = true) :
    Arena.risingFrom lo' t = true := by
  cases t with
  | nil => rfl
  | cons c t =>
    obtain ⟨k, w⟩ := c
    simp only [Arena.risingFrom, Bool.and_eq_true, decide_eq_true_eq] at ht ⊢
    exact ⟨⟨by omega, ht.1.2⟩, ht.2⟩

theorem Arena.risingFrom_insert (t : Arena) (lo i : Nat) (e : Entry) (ht : Arena.risingFrom lo t = true)
    (hi : lo ≤ i) (he : e ≠ freshEntry) : Arena.risingFrom lo (Arena.insert t i e) = true := by
  induction t generalizing lo with
  | nil => simp [Arena.insert, Arena.risingFrom, hi, he]
  | cons c t ih =>
    obtain ⟨k, w⟩ := c
    simp only [Arena.risingFrom, Bool.and_eq_true, decide_eq_true_eq] at ht
    simp only [Arena.insert]
    split
    · simp only [Arena.risingFrom, Bool.and_eq_true, decide_eq_true_eq]
      exact ⟨⟨hi, he⟩, ⟨by omega, ht.1.2⟩, ht.2⟩
    · split
      · rename_i h
        subst h
        simp only [Arena.risingFrom, Bool.and_eq_true, decide_eq_true_eq]
        exact ⟨⟨hi, he⟩, ht.2⟩
      · simp only [Arena.risingFrom, Bool.and_eq_true, decide_eq_true_eq]
        exact ⟨ht.1, ih (k + 1) ht.2 (by omega)⟩

theorem Arena.risingFrom_filter (t : Arena) (lo i : Nat) (ht : Arena.risingFrom lo t = true) :
    Arena.risingFrom lo (t.filter (fun c => c.1 ≠ i)) = true := by
  induction t generalizing lo with
  | nil => rfl
  | cons c t ih =>
    obtain ⟨k, w⟩ := c
    simp only [Arena.risingFrom, Bool.and_eq_true, decide_eq_true_eq] at ht
    by_cases h : k = i
    · simp only [List.filter_cons, ne_eq, h, not_true_eq_false, decide_false, Bool.false_eq_true, if_false]
      exact Arena.risingFrom_mono _ (k + 1) lo (by omega) (by simpa using ih (k + 1) ht.2)
    · simp only [List.filter_cons, ne_eq, h, not_false_eq_true, decide_true, if_true, Arena.risingFrom,
        Bool.and_eq_true, decide_eq_true_eq]
      exact ⟨ht.1, by simpa using ih (k + 1) ht.2⟩

/-- Replacing an entry keeps the arena's canonical form. -/
theorem Arena.wf_set (t : Arena) (i : Nat) (e : Entry) (h : Arena.wf t = true) : Arena.wf (Arena.set t i e) = true := by
  rw [Arena.wf, Arena.set]
  split
  · exact Arena.risingFrom_filter t 0 i h
  · rename_i he
    exact Arena.risingFrom_insert t 0 i e h (Nat.zero_le i) he

theorem Arena.wf_setOv (t : Arena) (i : Nat) (w : Word32) (h : Arena.wf t = true) : Arena.wf (t.setOv i w) = true :=
  Arena.wf_set t i _ h

theorem Arena.wf_setBv (t : Arena) (i : Nat) (b : Bool) (h : Arena.wf t = true) : Arena.wf (t.setBv i b) = true :=
  Arena.wf_set t i _ h

theorem Arena.wf_setNode (t : Arena) (i : Nat) (w : Word32) (lo hi : Nat) (h : Arena.wf t = true) :
    Arena.wf (t.setNode i w lo hi) = true :=
  Arena.wf_set t i _ h

@[simp] theorem Arena.get_setOv_same (t : Arena) (i : Nat) (w : Word32) :
    Arena.get (t.setOv i w) i = { Arena.get t i with orderValue := w } :=
  Arena.get_set_same t i _

@[simp] theorem Arena.get_setBv_same (t : Arena) (i : Nat) (b : Bool) :
    Arena.get (t.setBv i b) i = { Arena.get t i with bitValue := some b } :=
  Arena.get_set_same t i _

@[simp] theorem Arena.get_setNode_same (t : Arena) (i : Nat) (w : Word32) (lo hi : Nat) :
    Arena.get (t.setNode i w lo hi) i =
      { Arena.get t i with orderValue := w, childLow := some lo, childHigh := some hi } :=
  Arena.get_set_same t i _

theorem Arena.get_setOv_other (t : Arena) (i j : Nat) (w : Word32) (h : j ≠ i) :
    Arena.get (t.setOv i w) j = Arena.get t j :=
  Arena.get_set_other t i j _ h

theorem Arena.get_setBv_other (t : Arena) (i j : Nat) (b : Bool) (h : j ≠ i) :
    Arena.get (t.setBv i b) j = Arena.get t j :=
  Arena.get_set_other t i j _ h

theorem Arena.get_setNode_other (t : Arena) (i j : Nat) (w : Word32) (lo hi : Nat) (h : j ≠ i) :
    Arena.get (t.setNode i w lo hi) j = Arena.get t j :=
  Arena.get_set_other t i j _ h

end Sys2Proof.Machine
end

