-- ==== Sys2Proof/Laws/BitCursor.lean ====
section
/-! SUPPORT. The bit cursor: position and cursor are one number, and what each bit-reading operation can do. -/

namespace Sys2Proof.Machine

@[simp] theorem Cursor.position_ofPosition (p : Nat) : (Cursor.ofPosition p).position = p := by
  simp only [Cursor.position, Cursor.ofPosition]
  omega

@[simp] theorem Cursor.ofPosition_position (c : Cursor) : Cursor.ofPosition c.position = c := by
  obtain ⟨b, i⟩ := c
  simp only [Cursor.position, Cursor.ofPosition, Cursor.mk.injEq, Fin.ext_iff]
  omega

@[simp] theorem State.position_moveTo (s : State) (p : Nat) : (s.moveTo p).position = p :=
  Cursor.position_ofPosition p

@[simp] theorem State.moveTo_position_self (s : State) : s.moveTo s.position = s := by
  simp [State.moveTo, State.position]

@[simp] theorem State.moveTo_moveTo (s : State) (p q : Nat) : (s.moveTo p).moveTo q = s.moveTo q := rfl

/-- A complete buffer has every bit below its end. -/
theorem Source.Complete.bit {src : Source} (h : src.Complete) {p : Nat} (hp : p < 8 * src.len) :
    ∃ b, src.bit p = some b := by
  obtain ⟨b, hb⟩ := Memory.Covers.read_of_lt h (a := p / 8) (by omega)
  exact ⟨b.getLsbD (7 - p % 8), by simp [Source.bit, hb]⟩

theorem Source.Complete.gather {src : Source} (h : src.Complete) {p n v : Nat} (hp : p + n ≤ 8 * src.len) :
    ∃ w, src.gather p n v = .ok w := by
  induction n generalizing p v with
  | zero => exact ⟨v, rfl⟩
  | succ n ih =>
    obtain ⟨b, hb⟩ := h.bit (p := p) (by omega)
    obtain ⟨w, hw⟩ := ih (p := p + 1) (v := (v <<< 1) ||| b.toNat) (by omega)
    exact ⟨w, by simp [Source.gather, hb, hw]⟩

/-- What `ReadBits` can do: nothing for no bits; a fault with no bit consumed; or the bits gathered and passed. -/
theorem readBits_cases (src : Source) (n p : Nat) :
    (n = 0 ∧ readBits src n p = .ok 0 p) ∨
    (n ≠ 0 ∧ 8 * src.len < p + n ∧ readBits src n p = .error (.raised (.bits p n)) p) ∨
    (n ≠ 0 ∧ p + n ≤ 8 * src.len ∧ ∃ v, src.gather p n 0 = .ok v ∧ readBits src n p = .ok v (p + n)) ∨
    (n ≠ 0 ∧ p + n ≤ 8 * src.len ∧ ∃ a, src.gather p n 0 = .error a ∧
      readBits src n p = .error (.halted (.absentInput a)) p) := by
  unfold readBits
  by_cases h0 : n = 0
  · simp [h0]
  · by_cases h1 : 8 * src.len < p + n
    · simp [h0, h1]
    · have h2 : p + n ≤ 8 * src.len := by omega
      cases hg : src.gather p n 0 <;> simp [h0, h1, h2]

/-- Reading bits that a complete buffer has completes and passes them. -/
theorem readBits_complete {src : Source} (h : src.Complete) {n p : Nat} (hp : p + n ≤ 8 * src.len) :
    ∃ v, readBits src n p = .ok v (p + n) := by
  obtain ⟨v, hv⟩ := h.gather (v := 0) hp
  by_cases h0 : n = 0
  · exact ⟨0, by simp [readBits, h0]⟩
  · exact ⟨v, by simp [readBits, h0, hv, Nat.not_lt.2 hp]⟩

/-- A read that completes leaves the position `n` further. -/
theorem readBits_position {src : Source} {n p v q : Nat} (h : readBits src n p = .ok v q) : q = p + n := by
  rcases readBits_cases src n p with ⟨h0, h'⟩ | ⟨_, _, h'⟩ | ⟨_, _, w, _, h'⟩ | ⟨_, _, a, _, h'⟩ <;>
    rw [h'] at h <;> simp at h <;> omega

/-- A read of the one bit that stands at the position. -/
theorem consumeBit_of_bit {src : Source} {p : Nat} {b : Bool} (hp : p < 8 * src.len) (hb : src.bit p = some b) :
    consumeBit src p = .ok b (p + 1) := by
  have hr : readBits src 1 p = .ok b.toNat (p + 1) := by
    simp [readBits, Source.gather, hb, Nat.not_lt.2 (show p + 1 ≤ 8 * src.len by omega)]
  rw [consumeBit, bind_of_ok hr]
  cases b <;> rfl

theorem peekBit_of_bit {src : Source} {p : Nat} {b : Bool} (hp : p < 8 * src.len) (hb : src.bit p = some b) :
    peekBit src p = .ok b p := by
  simp [peekBit, hb, Nat.not_lt.2 (show p + 1 ≤ 8 * src.len by omega)]

end Sys2Proof.Machine
end

