-- ==== Sys2Proof/Laws/Decode.lean ====
section
/-! SUPPORT. The bits that a buffer holds and what the reads make of them: `Source.Holds` taken apart, the number that
`ReadBits` gathers, and the literal bytes. -/

namespace Sys2Proof.Machine

/-! ## Bits held -/

/-- Holding two lists one behind the other. -/
theorem Source.holds_append {src : Source} {p : Nat} {a b : List Bool} :
    src.Holds p (a ++ b) ↔ src.Holds p a ∧ src.Holds (p + a.length) b := by
  simp only [Source.Holds, List.length_append]
  constructor
  · rintro ⟨h1, h2⟩
    refine ⟨⟨by omega, fun k hk => ?_⟩, by omega, fun k hk => ?_⟩
    · rw [h2 k (by omega), List.getElem?_append_left hk]
    · have := h2 (a.length + k) (by omega)
      rw [show p + (a.length + k) = p + a.length + k by omega] at this
      rw [this, List.getElem?_append_right (by omega)]
      congr 1
      omega
  · rintro ⟨⟨h1, h2⟩, h3, h4⟩
    refine ⟨by omega, fun k hk => ?_⟩
    by_cases hka : k < a.length
    · rw [h2 k hka, List.getElem?_append_left hka]
    · have := h4 (k - a.length) (by omega)
      rw [List.getElem?_append_right (by omega), ← this]
      congr 1
      omega

/-- Holding a list is holding its first bit and the rest behind it. -/
theorem Source.holds_cons {src : Source} {p : Nat} {b : Bool} {w : List Bool} :
    src.Holds p (b :: w) ↔ p < 8 * src.len ∧ src.bit p = some b ∧ src.Holds (p + 1) w := by
  have h := Source.holds_append (src := src) (p := p) (a := [b]) (b := w)
  simp only [List.cons_append, List.nil_append, List.length_singleton] at h
  rw [h]
  simp only [Source.Holds, List.length_singleton]
  constructor
  · rintro ⟨⟨h1, h2⟩, h3⟩
    exact ⟨by omega, by simpa using h2 0 (by omega), h3⟩
  · rintro ⟨h1, h2, h3⟩
    refine ⟨⟨by omega, fun k hk => ?_⟩, h3⟩
    have h0 : k = 0 := by omega
    subst h0
    simpa using h2

/-! ## The bits of a number -/

@[simp] theorem natBits_length (n v : Nat) : (natBits n v).length = n := by
  induction n with
  | zero => rfl
  | succ n ih => simp [natBits, ih]

theorem natBits_get (n v k : Nat) (hk : k < n) : (natBits n v)[k]? = some (v.testBit (n - 1 - k)) := by
  induction n generalizing k with
  | zero => omega
  | succ n ih =>
    cases k with
    | zero => simp [natBits]
    | succ k =>
      simp only [natBits, List.getElem?_cons_succ]
      rw [ih k (by omega)]
      congr 2
      omega

/-- Only the `n` low bits count. -/
theorem natBits_mod (n v : Nat) : natBits n v = natBits n (v % 2 ^ n) := by
  apply List.ext_getElem?
  intro k
  by_cases hk : k < n
  · rw [natBits_get _ _ _ hk, natBits_get _ _ _ hk, Nat.testBit_mod_two_pow]
    simp
    omega
  · rw [List.getElem?_eq_none (by rw [natBits_length]; omega), List.getElem?_eq_none (by rw [natBits_length]; omega)]

@[simp] theorem bytesBits_length (bs : List Byte) : (bytesBits bs).length = 8 * bs.length := by
  induction bs with
  | nil => rfl
  | cons b bs ih =>
    simp [bytesBits, ih]
    omega

/-! ## What the loop of `ReadBits` gathers -/

theorem shiftLeft_one_or (v : Nat) (b : Bool) : (v <<< 1) ||| b.toNat = 2 * v + b.toNat := by
  rw [Nat.shiftLeft_eq, Nat.pow_one, Nat.mul_comm]
  have h := Nat.two_pow_add_eq_or_of_lt (i := 1) (b := b.toNat) (by cases b <;> simp) v
  simpa using h.symm

/-- The gathered number is what was there before, shifted, with the bits read behind it. -/
theorem Source.gather_eq_ok {src : Source} {p n v w : Nat} (h : src.gather p n v = .ok w) :
    ∃ r, r < 2 ^ n ∧ w = v * 2 ^ n + r ∧ ∀ k < n, src.bit (p + k) = some (r.testBit (n - 1 - k)) := by
  induction n generalizing p v with
  | zero =>
    simp [Source.gather] at h
    exact ⟨0, by simp [h]⟩
  | succ n ih =>
    simp only [Source.gather] at h
    split at h
    · cases h
    · rename_i b hb
      obtain ⟨r, hr, hw, hbits⟩ := ih h
      rw [shiftLeft_one_or] at hw
      refine ⟨2 ^ n * b.toNat + r, ?_, ?_, ?_⟩
      · cases b <;> simp [Nat.pow_succ] <;> omega
      · rw [hw, Nat.pow_succ]
        generalize 2 ^ n = y
        grind
      · intro k hk
        cases k with
        | zero =>
          simp only [Nat.add_zero, hb, Nat.succ_sub_one, Nat.sub_zero, Nat.testBit_two_pow_mul_add _ hr]
          cases b <;> simp
        | succ k =>
          have h' := hbits k (by omega)
          rw [show p + 1 + k = p + (k + 1) by omega] at h'
          rw [h', show n + 1 - 1 - (k + 1) = n - 1 - k by omega, Nat.testBit_two_pow_mul_add _ hr, if_pos (by omega)]

/-- A read that completes took a number of `n` bits, and the buffer holds its bits at the position. -/
theorem readBits_ok_holds {src : Source} {n p v q : Nat} (h : readBits src n p = .ok v q) (hp : p ≤ 8 * src.len) :
    q = p + n ∧ v < 2 ^ n ∧ src.Holds p (natBits n v) := by
  rcases readBits_cases src n p with ⟨h0, h'⟩ | ⟨_, _, h'⟩ | ⟨_, hb1, w, hg, h'⟩ | ⟨_, _, a, _, h'⟩ <;>
    rw [h'] at h <;> simp at h
  · obtain ⟨rfl, rfl⟩ := h
    subst h0
    exact ⟨rfl, by simp, by simpa [Source.Holds, natBits] using hp⟩
  · obtain ⟨rfl, rfl⟩ := h
    obtain ⟨r, hr, hw, hb⟩ := Source.gather_eq_ok hg
    have hwr : w = r := by omega
    subst hwr
    refine ⟨rfl, hr, by simpa using hb1, fun k hk => ?_⟩
    rw [natBits_length] at hk
    rw [hb k hk, natBits_get _ _ _ hk]

/-- Two numbers of `n` bits with the same bits in a buffer are the same. -/
theorem natBits_inj {n v w : Nat} (hv : v < 2 ^ n) (hw : w < 2 ^ n) (h : natBits n v = natBits n w) : v = w := by
  apply Nat.eq_of_testBit_eq
  intro i
  by_cases hi : i < n
  · have h1 := natBits_get n v (n - 1 - i) (by omega)
    rw [h, natBits_get n w (n - 1 - i) (by omega), show n - 1 - (n - 1 - i) = i by omega] at h1
    exact (Option.some.inj h1).symm
  · have hle : 2 ^ n ≤ 2 ^ i := Nat.pow_le_pow_right (by omega) (by omega)
    rw [Nat.testBit_lt_two_pow (by omega), Nat.testBit_lt_two_pow (by omega)]

/-- Bits that a buffer holds can be gathered. -/
theorem Source.Holds.gather {src : Source} {p n v : Nat} {w : List Bool} (h : src.Holds p w) (hn : n ≤ w.length) :
    ∃ x, src.gather p n v = .ok x := by
  induction n generalizing p v w with
  | zero => exact ⟨v, rfl⟩
  | succ n ih =>
    cases w with
    | nil => simp at hn
    | cons b w =>
      obtain ⟨_, h2, h3⟩ := Source.holds_cons.1 h
      obtain ⟨x, hx⟩ := ih (p := p + 1) (v := (v <<< 1) ||| b.toNat) h3 (by simpa using hn)
      exact ⟨x, by simp [Source.gather, h2, hx]⟩

/-- Where the buffer holds the bits of a number of `n` bits, `ReadBits(n)` answers it and passes them. -/
theorem readBits_of_holds {src : Source} {n p v : Nat} (h : src.Holds p (natBits n v)) (hv : v < 2 ^ n) :
    readBits src n p = .ok v (p + n) := by
  have hl : p + n ≤ 8 * src.len := by simpa using h.1
  obtain ⟨x, hx⟩ := h.gather (n := n) (v := 0) (by simp)
  have hr : ∃ y, readBits src n p = .ok y (p + n) := by
    by_cases h0 : n = 0
    · exact ⟨0, by simp [readBits, h0]⟩
    · exact ⟨x, by simp [readBits, h0, hx, Nat.not_lt.2 hl]⟩
  obtain ⟨y, hy⟩ := hr
  obtain ⟨_, hlt, hh⟩ := readBits_ok_holds hy (by omega)
  have hbits : natBits n y = natBits n v := by
    apply List.ext_getElem?
    intro k
    by_cases hk : k < n
    · rw [← hh.2 k (by simpa using hk), ← h.2 k (by simpa using hk)]
    · rw [List.getElem?_eq_none (by rw [natBits_length]; omega), List.getElem?_eq_none (by rw [natBits_length]; omega)]
  rw [hy, natBits_inj hlt hv hbits]

/-! ## Literal bytes -/

/-- Bytes that the buffer holds are read as they are. -/
theorem literalBytes_of_holds {src : Source} (bs : List Byte) (p : Nat) (h : src.Holds p (bytesBits bs)) :
    literalBytes src bs.length p = .ok bs := by
  induction bs generalizing p with
  | nil => rfl
  | cons b bs ih =>
    rw [bytesBits] at h
    obtain ⟨h1, h2⟩ := Source.holds_append.1 h
    rw [natBits_length] at h2
    simp only [List.length_cons, literalBytes]
    rw [readBits_of_holds h1 b.isLt]
    simp only
    rw [ih _ h2]
    simp

/-- What is read is held, and no more than asked for. -/
theorem literalBytes_ok {src : Source} {n p : Nat} {bs : List Byte} (hp : p ≤ 8 * src.len)
    (h : literalBytes src n p = .ok bs) : bs.length ≤ n ∧ src.Holds p (bytesBits bs) := by
  induction n generalizing p bs with
  | zero =>
    cases h
    exact ⟨Nat.le_refl _, by simpa [bytesBits] using hp, by simp [bytesBits]⟩
  | succ n ih =>
    simp only [literalBytes] at h
    split at h
    · rename_i v p' hr
      obtain ⟨rfl, hv, hh⟩ := readBits_ok_holds hr hp
      split at h
      · rename_i bs' hbs
        cases h
        have hle := hh.1
        rw [natBits_length] at hle
        obtain ⟨hl, hb⟩ := ih hle hbs
        refine ⟨by simpa using hl, ?_⟩
        rw [bytesBits, Source.holds_append, natBits_length, BitVec.toNat_ofNat, Nat.mod_eq_of_lt hv]
        exact ⟨hh, hb⟩
      · cases h
    · cases h
      exact ⟨Nat.zero_le _, by simpa [bytesBits] using hp, by simp [bytesBits]⟩
    · cases h

end Sys2Proof.Machine
end

