-- ==== Sys2Proof/Laws/Instructions.lean ====
section
/-! SUPPORT. What the loops of `LIT` and `BREF` and the parts of the decode loop's step can do, each said once. -/

namespace Sys2Proof.Machine

/-! ## `LIT` -/

/-- A literal byte moves the cursor and pushes the byte, and changes nothing else. -/
theorem State.putLiteral_eq (s : State) (b : Byte) :
    s.putLiteral b =
      { s with cur := Cursor.ofPosition (s.position + 8), out := s.out.write s.pos b, pos := s.pos + 1 } := rfl

@[simp] theorem State.position_putLiteral (s : State) (b : Byte) : (s.putLiteral b).position = s.position + 8 :=
  Cursor.position_ofPosition _

/-- With enough bytes the loop of `LIT` puts the first `n` of them. -/
theorem putLiterals_enough (n : Nat) (bs : List Byte) (s : State) (h : n ≤ bs.length) :
    putLiterals n bs s = .ok () ((bs.take n).foldl State.putLiteral s) := by
  induction n generalizing bs s with
  | zero => rfl
  | succ n ih =>
    cases bs with
    | nil => simp at h
    | cons b bs => exact ih bs (s.putLiteral b) (by simpa using h)

/-- With too few bytes it puts them all and faults at the first it lacks. -/
theorem putLiterals_short (n : Nat) (bs : List Byte) (s : State) (h : bs.length < n) :
    putLiterals n bs s =
      .error (.raised (.bits (bs.foldl State.putLiteral s).position 8)) (bs.foldl State.putLiteral s) := by
  induction n generalizing bs s with
  | zero => simp at h
  | succ n ih =>
    cases bs with
    | nil => rfl
    | cons b bs => exact ih bs (s.putLiteral b) (by simpa using h)

/-- Literal bytes put from a state on change the cursor, `OUT` and `pos` alone: the cursor by eight bits a byte, `pos`
by one a byte. -/
theorem foldl_putLiteral_eq (bs : List Byte) (s : State) :
    bs.foldl State.putLiteral s =
      { s with
        cur := Cursor.ofPosition (s.position + 8 * bs.length)
        out := (bs.foldl State.putLiteral s).out
        pos := s.pos + bs.length } := by
  induction bs generalizing s with
  | nil => simp [State.position]
  | cons b bs ih =>
    rw [List.foldl_cons, ih (s.putLiteral b), State.position_putLiteral]
    simp only [State.putLiteral_eq, List.length_cons]
    rw [show s.position + 8 + 8 * bs.length = s.position + 8 * (bs.length + 1) by omega,
      show s.pos + 1 + bs.length = s.pos + (bs.length + 1) by omega]

/-- Literal bytes put from a state on leave every other byte of `OUT`. -/
theorem foldl_putLiteral_read_other (bs : List Byte) (s : State) (a : Nat)
    (h : a < s.pos ∨ s.pos + bs.length ≤ a) :
    (bs.foldl State.putLiteral s).out.read a = s.out.read a := by
  induction bs generalizing s with
  | nil => rfl
  | cons b bs ih =>
    simp only [List.length_cons] at h
    have hne : a ≠ s.pos := by omega
    rw [List.foldl_cons, ih (s.putLiteral b) (by simp only [State.putLiteral_eq]; omega)]
    exact Memory.read_write_other s.out s.pos a b hne

/-- The `k`-th literal byte stands at `pos + k`. -/
theorem foldl_putLiteral_read (bs : List Byte) (s : State) (k : Nat) (hk : k < bs.length) :
    (bs.foldl State.putLiteral s).out.read (s.pos + k) = bs[k]? := by
  induction bs generalizing s k with
  | nil => simp at hk
  | cons b bs ih =>
    rw [List.foldl_cons]
    cases k with
    | zero =>
      rw [foldl_putLiteral_read_other bs (s.putLiteral b) (s.pos + 0)
        (Or.inl (by simp only [State.putLiteral_eq]; omega))]
      exact Memory.read_write_same s.out s.pos b
    | succ k =>
      have hk' : k < bs.length := by simpa using hk
      have := ih (s.putLiteral b) k hk'
      simp only [State.putLiteral_eq] at this ⊢
      rw [show s.pos + 1 + k = s.pos + (k + 1) by omega] at this
      simpa using this

/-! ## `BREF` -/

/-- What the copy loop can do: complete with `n` bytes pushed, each equal to the byte `dist` before it, every other byte
as it was; or stop at a byte of `OUT` that does not exist. -/
theorem copyBytes_cases (dist n : Nat) (s : State) :
    (∃ t, copyBytes dist n s = .ok () t ∧ t = { s with out := t.out, pos := s.pos + n } ∧
      (∀ k < n, t.out.read (s.pos + k) = t.out.read (s.pos + k - dist)) ∧
      ∀ a, a < s.pos ∨ s.pos + n ≤ a → t.out.read a = s.out.read a) ∨
    ∃ a t, copyBytes dist n s = .error (.halted (.absentOutput a)) t := by
  induction n generalizing s with
  | zero => exact Or.inl ⟨s, rfl, rfl, by simp, by simp⟩
  | succ n ih =>
    rw [copyBytes, get_bind_run]
    cases hr : memReadOut (s.pos - dist) s with
    | error e u =>
      obtain ⟨_, he, _⟩ := memReadOut_eq_error.1 hr
      refine Or.inr ⟨s.pos - dist, u, ?_⟩
      rw [bind_of_error hr, he]
    | ok b u =>
      obtain ⟨hlt, hb, hu⟩ := memReadOut_eq_ok.1 hr
      subst hu
      rw [bind_of_ok hr, update_bind_run]
      rcases ih (u.pushByte b) with ⟨t, ht, heq, hcopy, hother⟩ | ⟨a, t, ht⟩
      · refine Or.inl ⟨t, ht, ?_, ?_, ?_⟩
        · rw [heq]
          simp only [State.pushByte, State.mk.injEq, true_and]
          omega
        · intro k hk
          cases k with
          | zero =>
            have h0 := hother (u.pos + 0) (Or.inl (by simp))
            have h1 := hother (u.pos + 0 - dist) (Or.inl (by rw [State.pushByte_pos]; omega))
            rw [h0, h1]
            simp only [State.pushByte_out, Nat.add_zero, Memory.read_write_same]
            by_cases hd : u.pos - dist = u.pos
            · omega
            · rw [Memory.read_write_other _ _ _ _ hd, hb]
          | succ k =>
            have := hcopy k (by omega)
            simp only [State.pushByte_pos] at this
            rwa [show u.pos + 1 + k = u.pos + (k + 1) by omega] at this
        · intro a ha
          rw [hother a (by simp; omega)]
          exact Memory.read_write_other _ _ _ _ (by omega)
      · exact Or.inr ⟨a, t, ht⟩

/-- The copy completes when `dist` is at least 1 and at most `pos` and every byte below `pos` exists. -/
theorem copyBytes_completes (dist n : Nat) (s : State) (h1 : 1 ≤ dist) (h2 : dist ≤ s.pos)
    (hr : ∀ a < s.pos, ∃ b, s.out.read a = some b) : ∃ t, copyBytes dist n s = .ok () t := by
  induction n generalizing s with
  | zero => exact ⟨s, rfl⟩
  | succ n ih =>
    obtain ⟨b, hb⟩ := hr (s.pos - dist) (by omega)
    have hread : memReadOut (s.pos - dist) s = .ok b s := memReadOut_eq_ok.2 ⟨by omega, hb, rfl⟩
    rw [copyBytes, get_bind_run, bind_of_ok hread, update_bind_run]
    apply ih
    · simp; omega
    · intro a ha
      simp only [State.pushByte_pos, State.pushByte_out] at ha ⊢
      by_cases hap : a = s.pos
      · exact ⟨b, by rw [hap, Memory.read_write_same]⟩
      · rw [Memory.read_write_other _ _ _ _ hap]
        exact hr a (by omega)

/-! ## The decode loop's step -/

/-- The loop's test with `declen` written: it changes nothing. -/
theorem loopExit_run {s : State} {d : Word32} (h : s.declen = some d) :
    loopExit s = .ok (s.pos == d.toNat || s.source.exhausted s.position) s := by
  rw [loopExit, bind_of_ok (show readDeclen s = .ok d s from readReg_some h)]
  rfl

theorem loopExit_unwritten {s : State} (h : s.declen = none) :
    loopExit s = .error (.halted (.unwritten .declen)) s := by
  rw [loopExit]
  exact bind_of_error (readReg_eq_error.2 ⟨h, rfl, rfl⟩)

@[simp] theorem State.lowWidth_some {s : State} {l : Byte} (h : s.optLbc = some l) : s.lowWidth = l.toNat := by
  rw [State.lowWidth, h]

/-- The fetch with the table's registers written: the decoder run at `cur`. -/
theorem fetch_run {s : State} {st f : Nat} (h1 : s.start = some st) (h2 : s.firstReal = some f) :
    fetch s = readStream (decodeInstr { arena := s.table, start := st, firstReal := f } s.lowWidth) s := by
  rw [fetch, bind_of_ok (show readStart s = .ok st s from readReg_some h1),
    bind_of_ok (show readFirstReal s = .ok f s from readReg_some h2), get_bind_run]

end Sys2Proof.Machine
end

