-- ==== Sys2Proof/Laws/PerInstr.lean ====
section
/-! SUPPORT. What holds of every instruction as syntax, one lemma per constructor. -/

namespace Sys2Proof.Laws

/-- The selector of an instruction: the one bit that spec/opcode_table.json fixes in its row (30_encoding.md R84). -/
def selectorOf : Instr → Bool
  | .lit _ _ => false
  | .bref _ _ _ => true

/-- The first bit of every encoding of `i` is its selector. -/
def SelectorBit.Statement (i : Instr) : Prop :=
  ∀ (t : Machine.CodeTable) (lbc : Nat) (bits : List Bool), encode t lbc i = some bits →
    bits.head? = some (selectorOf i)

theorem SelectorBit.lit (x : Nat) (bytes : List Byte) : SelectorBit.Statement (.lit x bytes) := by
  intro t lbc bits h
  simp only [encode, encodeHead] at h
  split at h
  · cases h
  · rename_i hd
    split at hd <;> cases hd
    cases h
    rfl

theorem SelectorBit.bref (x high low : Nat) : SelectorBit.Statement (.bref x high low) := by
  intro t lbc bits h
  simp only [encode, encodeHead] at h
  split at h
  · cases h
  · rename_i hd
    split at hd <;> cases hd
    cases h
    rfl

/-- Every well-formed instruction has an encoding (30_encoding.md R85 to R88). -/
def WellFormedEncodes.Statement (i : Instr) : Prop :=
  ∀ (t : Machine.CodeTable) (lbc : Nat), i.wellFormed t lbc = true → ∃ bits, encode t lbc i = some bits

theorem WellFormedEncodes.lit (x : Nat) (bytes : List Byte) : WellFormedEncodes.Statement (.lit x bytes) := by
  intro t lbc h
  simp only [Instr.wellFormed, symbolWellFormed, Bool.and_eq_true] at h
  obtain ⟨cx, hx⟩ := Option.isSome_iff_exists.1 h.1.2
  exact ⟨_, by simp only [encode, encodeHead, hx]; rfl⟩

theorem WellFormedEncodes.bref (x high low : Nat) : WellFormedEncodes.Statement (.bref x high low) := by
  intro t lbc h
  simp only [Instr.wellFormed, symbolWellFormed, Bool.and_eq_true] at h
  obtain ⟨cx, hx⟩ := Option.isSome_iff_exists.1 h.1.1.2
  obtain ⟨ch, hh⟩ := Option.isSome_iff_exists.1 h.1.2.2
  exact ⟨_, by simp only [encode, encodeHead, hx, hh]; rfl⟩

end Sys2Proof.Laws
end

