-- ==== Sys2Proof/Laws/TableBuilder.lean ====
section
/-! SUPPORT. The parts of the table builder: what a scan has found so far, the entries after a merge, and what the fill
loop can change. -/

namespace Sys2Proof.Machine

/-! ## The scan -/

theorem Arena.eligible_iff (t : Arena) (i : Nat) : t.eligible i = true ↔ t.ov i ≠ 0 ∧ t.bv i = none := by
  simp [Arena.eligible]

/-- One more slot scanned. -/
theorem twoSmallest_succ (t : Arena) (n : Nat) : twoSmallest t (n + 1) = scanSlot t (twoSmallest t n) n := by
  simp [twoSmallest, List.range_succ]

/-- A slot that is not eligible changes nothing. -/
theorem scanSlot_of_not_eligible {t : Arena} {best : Option Nat × Option Nat} {i : Nat} (h : ¬ t.eligible i = true) :
    scanSlot t best i = best := by
  simp [scanSlot, h]

/-! ## One merge -/

section Merge

variable {t : Arena} {c a b : Nat}

theorem mergeNode_get_other {i : Nat} (h1 : i ≠ c) (h2 : i ≠ a) (h3 : i ≠ b) :
    Arena.get (mergeNode t c a b) i = Arena.get t i := by
  rw [mergeNode, Arena.get_setNode_other _ _ _ _ _ _ h1, Arena.get_setBv_other _ _ _ _ h3,
    Arena.get_setBv_other _ _ _ _ h2]

theorem mergeNode_get_low (hab : a ≠ b) (hac : a ≠ c) :
    Arena.get (mergeNode t c a b) a = { Arena.get t a with bitValue := some true } := by
  rw [mergeNode, Arena.get_setNode_other _ _ _ _ _ _ hac, Arena.get_setBv_other _ _ _ _ hab, Arena.get_setBv_same]

theorem mergeNode_get_high (hab : a ≠ b) (hbc : b ≠ c) :
    Arena.get (mergeNode t c a b) b = { Arena.get t b with bitValue := some false } := by
  rw [mergeNode, Arena.get_setNode_other _ _ _ _ _ _ hbc, Arena.get_setBv_same,
    Arena.get_setBv_other _ _ _ _ (Ne.symm hab)]

theorem mergeNode_get_new (hac : c ≠ a) (hbc : c ≠ b) :
    Arena.get (mergeNode t c a b) c =
      { Arena.get t c with orderValue := t.ov a + t.ov b, childLow := some a, childHigh := some b } := by
  rw [mergeNode, Arena.get_setNode_same, Arena.get_setBv_other _ _ _ _ hbc, Arena.get_setBv_other _ _ _ _ hac]

end Merge

/-- The merge loop keeps the arena's canonical form. -/
theorem mergeLoop_wf {f : Nat} (n : Nat) (t : Arena) (c : Nat) (h : Arena.wf t = true) :
    Arena.wf (mergeLoop f n t c).1 = true := by
  induction n generalizing t c with
  | zero => exact h
  | succ n ih =>
    rw [mergeLoop]
    split
    · exact ih _ _ (Arena.wf_setNode _ _ _ _ _ (Arena.wf_setBv _ _ _ (Arena.wf_setBv _ _ _ h)))
    · simp only
      split
      · exact Arena.wf_setBv _ _ _ h
      · exact h
    · exact h

/-! ## The fill loop -/

/-- What filling can change: the cursor and the weights of the slots below `F`. -/
structure FillStep (f : Nat) (s u : State) : Prop where
  frame : u = { s with table := u.table, cur := u.cur }
  high : ∀ i, f ≤ i → Arena.get u.table i = Arena.get s.table i
  wf : Arena.wf s.table = true → Arena.wf u.table = true

theorem FillStep.refl (f : Nat) (s : State) : FillStep f s s :=
  ⟨rfl, fun _ _ => rfl, id⟩

theorem FillStep.moveTo (f : Nat) (s : State) (p : Nat) : FillStep f s (s.moveTo p) :=
  ⟨rfl, fun _ _ => rfl, id⟩

theorem FillStep.trans {f : Nat} {s u v : State} (h : FillStep f s u) (h' : FillStep f u v) : FillStep f s v :=
  ⟨by have h'' := h'.frame; rw [h.frame] at h''; exact h'',
    fun i hi => (h'.high i hi).trans (h.high i hi), fun w => h'.wf (h.wf w)⟩

/-- A preamble field's read moves the cursor and changes nothing else, whether it completes or not. -/
theorem readPreamble_cases (w : FieldWidth) (s : State) :
    (∃ v p, readPreamble w s = .ok v (s.moveTo p)) ∨ ∃ e p, readPreamble w s = .error e (s.moveTo p) := by
  cases h : readPreamble w s with
  | ok v t =>
    obtain ⟨p, _, rfl⟩ := readStream_eq_ok.1 h
    exact Or.inl ⟨v, p, rfl⟩
  | error e t =>
    obtain ⟨p, _, rfl⟩ := readStream_eq_error.1 h
    exact Or.inr ⟨e, p, rfl⟩

/-- The fill loop completes or stops with nothing changed but what filling can change. -/
theorem fillLoop_cases {f bw : Nat} {indexed : Bool} (n k : Nat) (s : State) :
    (∃ u, fillLoop f bw indexed k n s = .ok () u ∧ FillStep f s u) ∨
    ∃ e u, fillLoop f bw indexed k n s = .error e u ∧ FillStep f s u := by
  induction n generalizing k s with
  | zero => exact Or.inl ⟨s, rfl, FillStep.refl f s⟩
  | succ n ih =>
    rw [fillLoop]
    have hi : (∃ v p, readIndex indexed bw k s = .ok v (s.moveTo p)) ∨
        ∃ e p, readIndex indexed bw k s = .error e (s.moveTo p) := by
      cases indexed
      · exact Or.inl ⟨k, s.position, by rw [State.moveTo_position_self]; rfl⟩
      · exact readPreamble_cases (indexWidth bw) s
    rcases hi with ⟨v, p, h⟩ | ⟨e, p, h⟩
    · rw [bind_of_ok h]
      split
      · exact Or.inr ⟨_, _, rfl, FillStep.moveTo f s p⟩
      · rcases readPreamble_cases .w32 (s.moveTo p) with ⟨w, q, h'⟩ | ⟨e, q, h'⟩
        · rw [bind_of_ok h', update_bind_run]
          have h1 : FillStep f s (((s.moveTo p).moveTo q).storeWeight v w) := by
            refine ⟨rfl, fun i hi => ?_, fun h => Arena.wf_setOv _ _ _ h⟩
            exact Arena.get_setOv_other _ _ _ _ (by omega)
          rcases ih (k + 1) (((s.moveTo p).moveTo q).storeWeight v w) with ⟨u, e1, e2⟩ | ⟨e, u, e1, e2⟩
          · exact Or.inl ⟨u, e1, h1.trans e2⟩
          · exact Or.inr ⟨e, u, e1, h1.trans e2⟩
        · exact Or.inr ⟨e, _, bind_of_error h', FillStep.moveTo f s q⟩
    · exact Or.inr ⟨e, _, bind_of_error h, FillStep.moveTo f s p⟩

end Sys2Proof.Machine
end

