-- ==== Sys2Proof/Laws/Steps.lean ====
section
/-! SUPPORT. What each step of the phase machine can do, from any state: the forms of its next state. -/

namespace Sys2Proof.Machine

/-! ## Reading the header and the options -/

/-- A byte read from `IN` changes nothing, and stops only where the byte is absent. -/
theorem memReadIn_cases (a : Nat) (s : State) :
    (∃ b, memReadIn a s = .ok b s) ∨ ∃ f, memReadIn a s = .error (.halted f) s := by
  cases h : memReadIn a s with
  | ok b u =>
    obtain ⟨_, _, rfl⟩ := memReadIn_eq_ok.1 h
    exact Or.inl ⟨b, rfl⟩
  | error e u =>
    obtain ⟨_, rfl, rfl⟩ := memReadIn_eq_error.1 h
    exact Or.inr ⟨_, rfl⟩

theorem readLE32_cases (a : Nat) (s : State) :
    (∃ w, readLE32 a s = .ok w s) ∨ ∃ f, readLE32 a s = .error (.halted f) s := by
  rw [readLE32]
  rcases memReadIn_cases a s with ⟨b, h⟩ | ⟨f, h⟩
  · rw [bind_of_ok h]
    rcases memReadIn_cases (a + 1) s with ⟨b, h⟩ | ⟨f, h⟩
    · rw [bind_of_ok h]
      rcases memReadIn_cases (a + 2) s with ⟨b, h⟩ | ⟨f, h⟩
      · rw [bind_of_ok h]
        rcases memReadIn_cases (a + 3) s with ⟨b, h⟩ | ⟨f, h⟩
        · rw [bind_of_ok h]
          exact Or.inl ⟨_, rfl⟩
        · exact Or.inr ⟨f, bind_of_error h⟩
      · exact Or.inr ⟨f, bind_of_error h⟩
    · exact Or.inr ⟨f, bind_of_error h⟩
  · exact Or.inr ⟨f, bind_of_error h⟩

/-- The magic check changes nothing. -/
theorem checkMagic_cases (a : Nat) (ms : List Byte) (s : State) :
    checkMagic a ms s = .ok () s ∨ ∃ e, checkMagic a ms s = .error e s := by
  induction ms generalizing a with
  | nil => exact Or.inl rfl
  | cons m ms ih =>
    rw [checkMagic]
    rcases memReadIn_cases a s with ⟨b, h⟩ | ⟨f, h⟩
    · rw [bind_of_ok h]
      split
      · exact Or.inr ⟨_, rfl⟩
      · exact ih _
    · exact Or.inr ⟨_, bind_of_error h⟩

/-- `ReadHeader` fails before or after the header registers are written, or writes them and moves on. -/
theorem readHeader_next {s t : State} (h : settle (readHeader s) = .next t) :
    (∃ i, t = s.takeFault i) ∨ (∃ d c i, t = (s.withHeader d c).takeFault i) ∨
    (minStreamLength ≤ s.inLen ∧ ∃ d c, t = (s.withHeader d c).withPhase .readOptions) := by
  rw [readHeader, get_bind_run] at h
  split at h
  · simp only [raise_run, settle_raised, Host.Outcome.next.injEq] at h
    exact Or.inl ⟨_, h.symm⟩
  · rename_i hl
    rcases checkMagic_cases 0 magic s with hm | ⟨e, hm⟩
    · rw [bind_of_ok hm] at h
      rcases readLE32_cases declenOffset s with ⟨d, hd⟩ | ⟨f, hd⟩
      · rw [bind_of_ok hd] at h
        rcases readLE32_cases csumHighOffset s with ⟨c1, h1⟩ | ⟨f, h1⟩
        · rw [bind_of_ok h1] at h
          rcases readLE32_cases csumLowOffset s with ⟨c2, h2⟩ | ⟨f, h2⟩
          · rw [bind_of_ok h2, update_bind_run] at h
            split at h
            · simp only [raise_run, settle_raised, Host.Outcome.next.injEq] at h
              exact Or.inr (Or.inl ⟨_, _, _, h.symm⟩)
            · simp only [update_run, settle_ok, Host.Outcome.next.injEq] at h
              exact Or.inr (Or.inr ⟨by omega, _, _, h.symm⟩)
          · rw [bind_of_error h2] at h
            cases h
        · rw [bind_of_error h1] at h
          cases h
      · rw [bind_of_error hd] at h
        cases h
    · rw [bind_of_error hm] at h
      cases e with
      | raised i =>
        simp only [settle_raised, Host.Outcome.next.injEq] at h
        exact Or.inl ⟨_, h.symm⟩
      | halted f => cases h

/-- `ReadOptions` fails with the options written, or moves on with valid ones and the derived registers. -/
theorem readOptions_next {s t : State} (h : settle (readOptions s) = .next t) :
    ∃ raw min ub lbc base,
      (∃ i, t = (s.withOptions raw min ub lbc base).takeFault i) ∨
      (optionsValid raw min ub lbc base = true ∧
        t = ((s.withOptions raw min ub lbc base).withDerived (huffBitCount raw min)).withPhase .buildTable) := by
  rw [readOptions, get_bind_run] at h
  rcases memReadIn_cases s.cfg.optionOffsets.raw s with ⟨raw, h1⟩ | ⟨f, h1⟩
  · rw [bind_of_ok h1] at h
    rcases memReadIn_cases s.cfg.optionOffsets.min s with ⟨min, h2⟩ | ⟨f, h2⟩
    · rw [bind_of_ok h2] at h
      rcases memReadIn_cases s.cfg.optionOffsets.ub s with ⟨ub, h3⟩ | ⟨f, h3⟩
      · rw [bind_of_ok h3] at h
        rcases memReadIn_cases s.cfg.optionOffsets.lbc s with ⟨lbc, h4⟩ | ⟨f, h4⟩
        · rw [bind_of_ok h4] at h
          rcases memReadIn_cases s.cfg.optionOffsets.base s with ⟨base, h5⟩ | ⟨f, h5⟩
          · rw [bind_of_ok h5, update_bind_run] at h
            refine ⟨raw, min, ub, lbc, base, ?_⟩
            split at h
            · rename_i hv
              simp only [update_run, settle_ok, Host.Outcome.next.injEq] at h
              exact Or.inr ⟨hv, h.symm⟩
            · simp only [raise_run, settle_raised, Host.Outcome.next.injEq] at h
              exact Or.inl ⟨_, h.symm⟩
          · rw [bind_of_error h5] at h
            cases h
        · rw [bind_of_error h4] at h
          cases h
      · rw [bind_of_error h3] at h
        cases h
    · rw [bind_of_error h2] at h
      cases h
  · rw [bind_of_error h1] at h
    cases h

/-! ## Building the table -/

/-- `BuildTable` fails with the preamble registers, the arena and the cursor as far as it came, or fills and merges. -/
theorem buildTable_next {s t : State} (h : settle (buildTable s) = .next t) :
    (∃ e x table cur i, t = ({ s with etf := e, indexed := x, table := table, cur := cur } : State).takeFault i ∧
      (Arena.wf s.table = true → Arena.wf table = true)) ∨
    ∃ f bw raw u, s.firstReal = some f ∧ s.byteWidth = some bw ∧
      FillStep f (s.withPreamble (entriesToFill f raw) (isIndexed f bw (entriesToFill f raw))) u ∧
      t = u.mergeTable f := by
  rw [buildTable] at h
  rcases Option.eq_none_or_eq_some s.byteWidth with hb | ⟨bw, hb⟩
  · rw [bind_of_error (show readByteWidth s = .error (.halted (.unwritten .byteWidth)) s from
      readReg_eq_error.2 ⟨hb, rfl, rfl⟩)] at h
    cases h
  rw [bind_of_ok (show readByteWidth s = .ok bw s from readReg_some hb)] at h
  rcases readPreamble_cases (indexWidth bw) s with ⟨raw, p, h'⟩ | ⟨e, q, h'⟩
  · rw [bind_of_ok h'] at h
    rcases Option.eq_none_or_eq_some s.firstReal with hf | ⟨f, hf⟩
    · rw [bind_of_error (show readFirstReal (s.moveTo p) = .error (.halted (.unwritten .firstReal)) (s.moveTo p) from
        readReg_eq_error.2 ⟨hf, rfl, rfl⟩)] at h
      cases h
    rw [bind_of_ok (show readFirstReal (s.moveTo p) = .ok f (s.moveTo p) from readReg_some hf), update_bind_run] at h
    split at h
    · simp only [raise_run, settle_raised, Host.Outcome.next.injEq] at h
      exact Or.inl ⟨_, _, _, _, _, h.symm, id⟩
    · rcases fillLoop_cases (f := f) (bw := bw) (indexed := isIndexed f bw (entriesToFill f raw)) (entriesToFill f raw) 0
        ((s.moveTo p).withPreamble (entriesToFill f raw) (isIndexed f bw (entriesToFill f raw))) with
        ⟨u, e1, e2⟩ | ⟨e, u, e1, e2⟩
      · rw [bind_of_ok e1, update_run, settle_ok, Host.Outcome.next.injEq] at h
        exact Or.inr ⟨f, bw, raw, u, hf, hb, ⟨e2.frame, e2.high, e2.wf⟩, h.symm⟩
      · rw [bind_of_error e1] at h
        cases e with
        | raised i =>
          simp only [settle_raised, Host.Outcome.next.injEq] at h
          refine Or.inl ⟨some (entriesToFill f raw), some (isIndexed f bw (entriesToFill f raw)), u.table, u.cur, i, ?_,
            e2.wf⟩
          rw [← h, e2.frame]
          rfl
        | halted f => cases h
  · rw [bind_of_error h'] at h
    cases e with
    | raised i =>
      simp only [settle_raised, Host.Outcome.next.injEq] at h
      exact Or.inl ⟨s.etf, s.indexed, s.table, _, i, h.symm, id⟩
    | halted f => cases h

/-! ## The checksum -/

theorem readProduced_cases (s : State) :
    (∃ bs, readProduced s = .ok bs s) ∨ ∃ f, readProduced s = .error (.halted f) s := by
  unfold readProduced
  split
  · exact Or.inl ⟨_, rfl⟩
  · exact Or.inr ⟨_, rfl⟩

/-- `VerifyChecksum` ends in `Done` or fails. -/
theorem verifyChecksum_next {s t : State} (h : settle (verifyChecksum s) = .next t) :
    t = s.withPhase .done ∨ ∃ i, t = s.takeFault i := by
  rw [verifyChecksum] at h
  rcases readProduced_cases s with ⟨bs, hr⟩ | ⟨f, hr⟩
  · rw [bind_of_ok hr] at h
    rcases Option.eq_none_or_eq_some s.hdrCsum with hc | ⟨c, hc⟩
    · rw [bind_of_error (show readHdrCsum s = .error (.halted (.unwritten .hdrCsum)) s from
        readReg_eq_error.2 ⟨hc, rfl, rfl⟩)] at h
      cases h
    · rw [bind_of_ok (show readHdrCsum s = .ok c s from readReg_some hc)] at h
      split at h
      · simp only [update_run, settle_ok, Host.Outcome.next.injEq] at h
        exact Or.inl h.symm
      · simp only [raise_run, settle_raised, Host.Outcome.next.injEq] at h
        exact Or.inr ⟨_, h.symm⟩
  · rw [bind_of_error hr] at h
    cases h

/-! ## The loop -/

/-- A step in the loop leaves it, runs the instruction it decodes, or takes the fault its decoding raises. -/
theorem decodeLoopStep_next {s t : State} (h : decodeLoopStep s = .next t) :
    (∃ d, s.declen = some d ∧ t = s.withPhase .verifyChecksum) ∨
    ∃ d st f, s.declen = some d ∧ s.start = some st ∧ s.firstReal = some f ∧ s.pos ≠ d.toNat ∧
      s.position < 8 * s.inLen ∧
      ((∃ i p, decodeInstr { arena := s.table, start := st, firstReal := f } s.lowWidth s.source s.position = .ok i p ∧
          exec i (s.moveTo p) = .next t) ∨
        ∃ i p, decodeInstr { arena := s.table, start := st, firstReal := f } s.lowWidth s.source s.position =
            .error (.raised i) p ∧ t = (s.moveTo p).takeFault i) := by
  rw [decodeLoopStep] at h
  rcases Option.eq_none_or_eq_some s.declen with hd | ⟨d, hd⟩
  · rw [loopExit_unwritten hd] at h
    cases h
  rw [loopExit_run hd] at h
  cases hx : (s.pos == d.toNat || s.source.exhausted s.position) with
  | true =>
    rw [hx] at h
    simp only [Host.Outcome.next.injEq] at h
    exact Or.inl ⟨d, hd, h.symm⟩
  | false =>
    rw [hx] at h
    simp only [runInstr] at h
    simp only [Bool.or_eq_false_iff, beq_eq_false_iff_ne, Source.exhausted, Source.remaining, State.source] at hx
    rcases Option.eq_none_or_eq_some s.start with h1 | ⟨st, h1⟩
    · rw [fetch, bind_of_error (show readStart s = .error (.halted (.unwritten .start)) s from
        readReg_eq_error.2 ⟨h1, rfl, rfl⟩)] at h
      cases h
    rcases Option.eq_none_or_eq_some s.firstReal with h2 | ⟨f, h2⟩
    · rw [fetch, bind_of_ok (show readStart s = .ok st s from readReg_some h1),
        bind_of_error (show readFirstReal s = .error (.halted (.unwritten .firstReal)) s from
          readReg_eq_error.2 ⟨h2, rfl, rfl⟩)] at h
      cases h
    refine Or.inr ⟨d, st, f, hd, h1, h2, hx.1, by omega, ?_⟩
    rw [fetch_run h1 h2] at h
    cases hdec : decodeInstr { arena := s.table, start := st, firstReal := f } s.lowWidth s.source s.position with
    | ok i p =>
      simp only [readStream, hdec] at h
      exact Or.inl ⟨i, p, rfl, h⟩
    | error e p =>
      simp only [readStream, hdec] at h
      cases e with
      | raised i =>
        simp only [settle_raised, Host.Outcome.next.injEq] at h
        exact Or.inr ⟨i, p, rfl, h.symm⟩
      | halted f => cases h

end Sys2Proof.Machine
end

