-- ==== Sys2Proof/Laws/SymbolDecoder.lean ====
section
/-! SUPPORT. Walks in the tree of a table: a path and its bits, the codeword as the path from the root, and what
`DecodeSymbol` can do. -/

namespace Sys2Proof.Machine

variable {t : CodeTable}

/-- The bits `w` lead from the entry `n` to the entry `v`, through internal nodes. -/
inductive CodeTable.Path (t : CodeTable) : Nat → List Bool → Nat → Prop
  | nil (n : Nat) : CodeTable.Path t n [] n
  | cons {n c v : Nat} {b : Bool} {w : List Bool} : t.firstReal ≤ n → n < t.start → t.child n b = some c →
      CodeTable.Path t c w v → CodeTable.Path t n (b :: w) v

/-- The same, grown at its end. -/
inductive CodeTable.PathEnd (t : CodeTable) : Nat → List Bool → Nat → Prop
  | nil (n : Nat) : CodeTable.PathEnd t n [] n
  | snoc {n m c : Nat} {b : Bool} {w : List Bool} : CodeTable.PathEnd t n w m → t.firstReal ≤ m → m < t.start →
      t.child m b = some c → CodeTable.PathEnd t n (w ++ [b]) c

/-- On a tree an internal node has a child for either bit: lower than itself, with that bit value. -/
theorem CodeTable.Tree.child (ht : t.Tree) {n : Nat} (h1 : t.firstReal ≤ n) (h2 : n < t.start) (b : Bool) :
    ∃ c, t.child n b = some c ∧ c < n ∧ t.arena.bv c = some b ∧ t.IsChild n c := by
  obtain ⟨lo, hi, e1, e2, l1, l2, b1, b2⟩ := ht.links n h1 h2
  cases b
  · exact ⟨hi, by simp [CodeTable.child, CodeTable.childMatches, e1, e2, b1, b2], l2, b2, Or.inr e2⟩
  · exact ⟨lo, by simp [CodeTable.child, CodeTable.childMatches, e1, b1], l1, b1, Or.inl e1⟩

theorem CodeTable.Tree.of_child (ht : t.Tree) {n c : Nat} {b : Bool} (h1 : t.firstReal ≤ n) (h2 : n < t.start)
    (h : t.child n b = some c) : c < n ∧ t.arena.bv c = some b ∧ t.IsChild n c := by
  obtain ⟨c', e, h'⟩ := ht.child h1 h2 b
  rw [h] at e
  cases e
  exact h'

theorem CodeTable.PathEnd.cons {n c v : Nat} {b : Bool} {w : List Bool} (h1 : t.firstReal ≤ n) (h2 : n < t.start)
    (h3 : t.child n b = some c) (h : t.PathEnd c w v) : t.PathEnd n (b :: w) v := by
  induction h with
  | nil => exact .snoc (.nil n) h1 h2 h3
  | snoc _ a b c ih => exact .snoc ih a b c

theorem CodeTable.Path.pathEnd {n v : Nat} {w : List Bool} (h : t.Path n w v) : t.PathEnd n w v := by
  induction h with
  | nil => exact .nil _
  | cons a b c _ ih => exact ih.cons a b c

/-- A path leads downwards. -/
theorem CodeTable.PathEnd.le (ht : t.Tree) {n v : Nat} {w : List Bool} (h : t.PathEnd n w v) :
    v ≤ n ∧ (w ≠ [] → v < n) := by
  induction h with
  | nil => simp
  | snoc _ a b c ih =>
    have := (ht.of_child a b c).1
    exact ⟨by omega, fun _ => by omega⟩

/-- On a tree one path at most leads from one entry to another. -/
theorem CodeTable.PathEnd.unique (ht : t.Tree) {n v : Nat} {w w' : List Bool} (h : t.PathEnd n w v)
    (h' : t.PathEnd n w' v) : w = w' := by
  induction h generalizing w' with
  | nil =>
    rcases Classical.em (w' = []) with hw | hw
    · exact hw.symm
    · have := (h'.le ht).2 hw
      omega
  | snoc hp a b c ih =>
    have hlt := (CodeTable.PathEnd.snoc hp a b c).le ht |>.2 (by simp)
    cases h' with
    | nil => omega
    | snoc hp' a' b' c' =>
      have p1 := ht.of_child a b c
      have p2 := ht.of_child a' b' c'
      have hm := ht.parent _ _ _ a b a' b' p1.2.2 p2.2.2
      subst hm
      have hb := p1.2.1.symm.trans p2.2.1
      cases hb
      rw [ih hp']

/-- A path down to a terminal has at most one bit for each internal node from its start down. -/
theorem CodeTable.Path.length_le (ht : t.Tree) {n v : Nat} {w : List Bool} (h : t.Path n w v) (hv : v < t.firstReal) :
    w.length ≤ n + 1 - t.firstReal := by
  induction h with
  | nil => simp
  | cons a b c _ ih =>
    have h1 := (ht.of_child a b c).1
    have h2 := ih hv
    simp
    omega

/-- What the search for a terminal finds is a path. -/
theorem CodeTable.pathTo_eq_some (ht : t.Tree) {v k n : Nat} {w : List Bool} (hn : n < t.start)
    (h : t.pathTo v k n = some w) : t.Path n w v ∧ v < t.firstReal ∧ w.length ≤ k := by
  induction k generalizing n w with
  | zero =>
    simp only [CodeTable.pathTo] at h
    split at h <;> cases h
    rename_i hh
    obtain ⟨h1, rfl⟩ := hh
    exact ⟨.nil _, h1, by simp⟩
  | succ k ih =>
    by_cases hf : n < t.firstReal
    · simp only [CodeTable.pathTo, if_pos hf] at h
      split at h <;> cases h
      rename_i hh
      subst hh
      exact ⟨.nil _, hf, by simp⟩
    · obtain ⟨lo, hi, e1, e2, l1, l2, b1, b2⟩ := ht.links n (by omega) hn
      simp only [CodeTable.pathTo, if_neg hf, e1, e2, b1, b2] at h
      cases hlo : t.pathTo v k lo with
      | some w' =>
        rw [hlo] at h
        simp only [consBit, Option.some.injEq] at h
        subst h
        obtain ⟨p, hv, hl⟩ := ih (by omega) hlo
        exact ⟨.cons (by omega) hn (by simp [CodeTable.child, CodeTable.childMatches, e1, b1]) p, hv, by simpa using hl⟩
      | none =>
        rw [hlo] at h
        cases hhi : t.pathTo v k hi with
        | none =>
          rw [hhi] at h
          simp [consBit] at h
        | some w' =>
          rw [hhi] at h
          simp only [consBit, Option.some.injEq] at h
          subst h
          obtain ⟨p, hv, hl⟩ := ih (by omega) hhi
          exact ⟨.cons (by omega) hn (by simp [CodeTable.child, CodeTable.childMatches, e1, e2, b1, b2]) p, hv,
            by simpa using hl⟩

/-- The search finds every path to a terminal that is not longer than it may look. -/
theorem CodeTable.Path.pathTo (ht : t.Tree) {v n : Nat} {w : List Bool} (h : t.Path n w v) (hv : v < t.firstReal)
    (k : Nat) (hk : w.length ≤ k) (hn : n < t.start) : t.pathTo v k n = some w := by
  induction h generalizing k with
  | nil n => cases k <;> simp [CodeTable.pathTo, hv]
  | @cons n c v b w h1 h2 h3 hp ih =>
    cases k with
    | zero => simp at hk
    | succ k =>
      obtain ⟨lo, hi, e1, e2, l1, l2, b1, b2⟩ := ht.links n h1 h2
      have hc := (ht.of_child h1 h2 h3).1
      have hrest := ih hv k (by simpa using hk) (by omega)
      simp only [CodeTable.pathTo, if_neg (Nat.not_lt.2 h1), e1, e2, b1, b2]
      cases b
      · have hchi : c = hi := by simpa [CodeTable.child, CodeTable.childMatches, e1, e2, b1, b2] using h3.symm
        subst hchi
        rw [hrest]
        cases hlo : t.pathTo v k lo with
        | none => rfl
        | some w' =>
          obtain ⟨p, _, _⟩ := CodeTable.pathTo_eq_some ht (show lo < t.start by omega) hlo
          have q : t.Path n (true :: w') v :=
            .cons h1 h2 (by simp [CodeTable.child, CodeTable.childMatches, e1, b1]) p
          have := q.pathEnd.unique ht (CodeTable.Path.cons h1 h2 h3 hp).pathEnd
          cases this
      · have hclo : c = lo := by simpa [CodeTable.child, CodeTable.childMatches, e1, b1] using h3.symm
        subst hclo
        rw [hrest]
        rfl

/-- The codeword of a terminal is the path from the root down to it. -/
theorem CodeTable.codeword_eq_some (ht : t.Tree) {v : Nat} {w : List Bool} :
    t.codeword v = some w ↔ t.firstReal < t.start ∧ v < t.firstReal ∧ t.Path (t.start - 1) w v := by
  unfold CodeTable.codeword
  constructor
  · intro h
    split at h
    · cases h
    · obtain ⟨a, b, _⟩ := CodeTable.pathTo_eq_some ht (by omega) h
      exact ⟨by omega, b, a⟩
  · rintro ⟨h1, h2, h3⟩
    rw [if_neg (by omega)]
    exact h3.pathTo ht h2 _ (by have := h3.length_le ht h2; omega) (by omega)

/-- Walking along a path's bits ends at its end, with exactly them consumed. -/
theorem CodeTable.Path.walk {src : Source} {n v : Nat} {w : List Bool} (h : t.Path n w v) (hv : v < t.firstReal)
    (m p : Nat) (hm : w.length ≤ m) (hh : src.Holds p w) : t.walk src m n p = .ok v (p + w.length) := by
  induction h generalizing m p with
  | nil => cases m <;> simp [CodeTable.walk, hv]
  | @cons n c v b w h1 h2 h3 hp ih =>
    cases m with
    | zero => simp at hm
    | succ m =>
      obtain ⟨a1, a2, a3⟩ := Source.holds_cons.1 hh
      rw [CodeTable.walk, if_neg (Nat.not_lt.2 h1), bind_of_ok (consumeBit_of_bit a1 a2)]
      simp only [h3]
      rw [ih hv m (p + 1) (by simpa using hm) a3]
      simp
      omega

/-- What a walk in a tree can do, with as many steps as bits are left: reach a terminal along the bits read, run out of
bits at the end of the buffer, or find a byte of the buffer missing. -/
theorem CodeTable.walk_cases (ht : t.Tree) {src : Source} {m n p : Nat} (hn : n < t.start) (hp : p + m = 8 * src.len) :
    (∃ v w, v < t.firstReal ∧ t.Path n w v ∧ src.Holds p w ∧ t.walk src m n p = .ok v (p + w.length)) ∨
    t.walk src m n p = .error (.raised (.bits (8 * src.len) 1)) (8 * src.len) ∨
    ∃ q a, t.walk src m n p = .error (.halted (.absentInput a)) q := by
  induction m generalizing n p with
  | zero =>
    by_cases hf : n < t.firstReal
    · exact Or.inl ⟨n, [], hf, .nil n, ⟨by simp; omega, by simp⟩, by simp [CodeTable.walk, hf]⟩
    · exact Or.inr (Or.inl (by simp [CodeTable.walk, hf, ← hp]))
  | succ m ih =>
    by_cases hf : n < t.firstReal
    · exact Or.inl ⟨n, [], hf, .nil n, ⟨by simp; omega, by simp⟩, by simp [CodeTable.walk, hf]⟩
    · rw [CodeTable.walk, if_neg hf]
      cases hb : src.bit p with
      | none =>
        refine Or.inr (Or.inr ⟨p, p / 8, bind_of_error ?_⟩)
        rw [consumeBit]
        apply bind_of_error
        simp only [readBits, Source.gather, hb]
        rw [if_neg (by omega), if_neg (by omega)]
      | some b =>
        rw [bind_of_ok (consumeBit_of_bit (by omega) hb)]
        obtain ⟨c, hc, hlt, _, _⟩ := ht.child (show t.firstReal ≤ n by omega) hn b
        simp only [hc]
        rcases ih (n := c) (p := p + 1) (by omega) (by omega) with ⟨v, w, h1, h2, h3, h4⟩ | h | h
        · refine Or.inl ⟨v, b :: w, h1, .cons (by omega) hn hc h2, Source.holds_cons.2 ⟨by omega, hb, h3⟩, ?_⟩
          rw [h4]
          simp
          omega
        · exact Or.inr (Or.inl h)
        · exact Or.inr (Or.inr h)

/-- What `DecodeSymbol` can do on a tree: decode the symbol whose codeword the buffer holds, fault at a degenerate table
with no bit consumed, fault at the end of the buffer, or find a byte of the buffer missing. -/
theorem CodeTable.decodeSymbol_cases (ht : t.Tree) (src : Source) (p : Nat) :
    (p ≤ 8 * src.len ∧ ∃ v w, v < t.firstReal ∧ t.codeword v = some w ∧ src.Holds p w ∧
      t.decodeSymbol src p = .ok v (p + w.length)) ∨
    (t.start ≤ t.firstReal ∧ t.decodeSymbol src p = .error (.raised (.degenerate t.start)) p) ∨
    t.decodeSymbol src p = .error (.raised (.bits (max p (8 * src.len)) 1)) (max p (8 * src.len)) ∨
    ∃ q a, t.decodeSymbol src p = .error (.halted (.absentInput a)) q := by
  unfold CodeTable.decodeSymbol
  split
  · rename_i h
    exact Or.inr (Or.inl ⟨h, rfl⟩)
  · by_cases hp : p ≤ 8 * src.len
    · rcases CodeTable.walk_cases ht (src := src) (m := src.remaining p) (n := t.start - 1) (p := p) (by omega)
        (by simp only [Source.remaining]; omega) with ⟨v, w, h1, h2, h3, h4⟩ | h | h
      · exact Or.inl ⟨hp, v, w, h1, (CodeTable.codeword_eq_some ht).2 ⟨by omega, h1, h2⟩, h3, h4⟩
      · rw [Nat.max_eq_right hp]
        exact Or.inr (Or.inr (Or.inl h))
      · exact Or.inr (Or.inr (Or.inr h))
    · have h0 : src.remaining p = 0 := by
        simp only [Source.remaining]
        omega
      rw [h0, Nat.max_eq_left (by omega)]
      refine Or.inr (Or.inr (Or.inl ?_))
      simp only [CodeTable.walk]
      rw [if_neg (by omega)]

end Sys2Proof.Machine
end

