-- ==== Sys2Proof/Tests/Slice0.lean ====
section
/-! SUPPORT. Tests whose expected results come from the vectors of spec/95_test_vectors.md (named in each comment) or
were worked out by hand from the rules, and one witness for the hypotheses of each statement. -/

namespace Sys2Proof.Tests

set_option Elab.async false

open Sys2Proof.Machine

/-! ## Small states -/

/-- A buffer of bytes as the cursor reads it. -/
def sourceOf (bytes : List Byte) : Source :=
  { memory := Memory.ofBytes bytes, len := bytes.length }

/-- TB-1 loaded with `opt_lbc = 0`, `opt_base = 2`: these instruction bits next at (88, 7), this output produced. -/
def atInstr (bits : List Bool) (out : List Byte) (declen : Word32) : State :=
  { State.reset.loadInstr (packBits bits.length bits) with
    out := Memory.ofBytes out, pos := out.length, declen := some declen }

/-- A Start on these bytes. -/
def started (bytes : List Byte) (budget : Option Nat) : State :=
  State.reset.hostStart bytes budget

/-- The options read for `F = 8`, and a preamble at the start of the buffer. -/
def atPreamble (order : FieldOrder) (bits : List Bool) : State :=
  let bytes := packBits bits.length bits
  { State.reset with
    cfg := { defaultConfig with fieldOrder := order }
    phase := .buildTable, input := Memory.ofBytes bytes, inLen := bytes.length
    firstReal := some 8, byteWidth := some 1, cur := { byteOffset := 0, bitIndex := 7 } }

/-- The state of a run at the end of its loop. -/
def atVerify (out : List Byte) (csum : Word64) : State :=
  { State.reset with
    phase := .verifyChecksum, out := Memory.ofBytes out, pos := out.length, hdrCsum := some csum }

/-- The step's next state passes a check. -/
def goesTo (o : Host.Outcome State Fault Refusal) (check : State → Bool) : Bool :=
  match o with
  | .next t => check t
  | .fault _ => false
  | .refused _ => false

/-- A read's value, its stop and the position it leaves. -/
def outcome {α : Type} (r : EStateM.Result Stop Nat α) : Option α × Option Stop × Nat :=
  match r with
  | .ok a p => (some a, none, p)
  | .error e p => (none, some e, p)

/-- Bits from their digits. -/
def bitsOf (digits : List Nat) : List Bool :=
  digits.map (· == 1)

/-! ## Decoding: words written out from the encodings of 30_encoding.md R85 and R86 -/

/-- DL-1: `0`, code(2) = `101`, then 48 69 21. -/
def litBits : List Bool :=
  bitsOf [0, 1,0,1, 0,1,0,0,1,0,0,0, 0,1,1,0,1,0,0,1, 0,0,1,0,0,0,0,1]

/-- DL-2: `1`, code(4) = `011`, code(0) = `111`, no low bit. -/
def brefBits : List Bool :=
  bitsOf [1, 0,1,1, 1,1,1]

theorem test_decode_lit :
    outcome (decodeInstr referenceTable 0 (sourceOf [0x54, 0x86, 0x92, 0x10]) 0) =
      (some (.lit 2 [0x48, 0x69, 0x21]), none, 4) := by decide

theorem test_decode_bref :
    outcome (decodeInstr referenceTable 0 (sourceOf [0xBE]) 0) = (some (.bref 4 0 0), none, 7) := by decide

/-- `1`, code(6) = `001`, code(1) = `110`, low = `10` at bit 3 of the buffer, `opt_lbc = 2`. -/
theorem test_decode_bref_low_bits :
    outcome (decodeInstr referenceTable 2 (sourceOf [0x13, 0xA0]) 3) = (some (.bref 6 1 2), none, 12) := by decide

theorem test_decode_table_word_lit :
    decodeTableWord 28 0b1000010010010110000100101010 = some (.lit 2 [0x48, 0x69, 0x21]) := by decide

theorem test_decode_table_word_bref : decodeTableWord 7 0b1111101 = some (.bref 4 0 0) := by decide

/-- DL-10's instruction: the second byte is cut off. -/
theorem test_decode_cut_off_lit :
    outcome (decodeInstr referenceTable 0 (sourceOf [0x54, 0x80]) 0) = (some (.lit 2 [0x48]), none, 4) := by decide

theorem test_decode_truncated_codeword :
    outcome (decodeInstr referenceTable 0 (sourceOf [0xBE]) 6) = (none, some (.raised (.bits 8 1)), 8) := by decide

theorem test_encode_lit : encode referenceTable 0 (.lit 2 [0x48, 0x69, 0x21]) = some litBits := by decide

theorem test_encode_bref : encode referenceTable 0 (.bref 4 0 0) = some brefBits := by decide

/-! ## Well-formedness: one ill-formed term for each check -/

theorem test_wellFormed_lit : Instr.wellFormed referenceTable 0 (.lit 2 [0x48, 0x69, 0x21]) = true := by decide

theorem test_wellFormed_bref : Instr.wellFormed referenceTable 2 (.bref 7 7 3) = true := by decide

theorem test_illFormed_symbol_too_big :
    Instr.wellFormed referenceTable 0 (.lit 8 [0, 0, 0, 0, 0, 0, 0, 0, 0]) = false := by decide

theorem test_illFormed_byte_count : Instr.wellFormed referenceTable 0 (.lit 2 [0x48, 0x69]) = false := by decide

theorem test_illFormed_high_symbol : Instr.wellFormed referenceTable 0 (.bref 0 8 0) = false := by decide

theorem test_illFormed_length_symbol : Instr.wellFormed referenceTable 0 (.bref 8 0 0) = false := by decide

theorem test_illFormed_low_too_big : Instr.wellFormed referenceTable 2 (.bref 0 0 4) = false := by decide

/-- TB-13: a degenerate table gives no symbol a codeword. -/
theorem test_illFormed_no_codeword :
    Instr.wellFormed
      { arena := [(3, { freshEntry with orderValue := 7, bitValue := some true })], start := 8, firstReal := 8 } 0
      (.lit 3 [0, 0, 0, 0]) = false := by decide

/-! ## Operations: the vectors BC, FO, TB, CS -/

/-- BC-6, BC-9, BC-12, BC-14, BC-16. -/
theorem test_readBits_vectors :
    outcome (readBits (sourceOf [0xA5, 0x3C, 0xFF]) 16 1) = (some 0x4A79, none, 17) ∧
    outcome (readBits (sourceOf [0xA5, 0x3C, 0xFF]) 16 4) = (some 0x53CF, none, 20) ∧
    outcome (readBits (sourceOf [0xA5, 0x3C, 0xFF]) 0 24) = (some 0, none, 24) ∧
    outcome (readBits (sourceOf [0xA5, 0x3C, 0xFF]) 2 23) = (none, some (.raised (.bits 23 2)), 23) ∧
    outcome (peekBit (sourceOf [0xA5, 0x3C, 0xFF]) 24) = (none, some (.raised (.bits 24 1)), 24) := by decide

/-- FO-4. -/
theorem test_readField_orders :
    outcome (readField (sourceOf [0, 0, 0, 1]) .msbFirst .w32 0) = (some 1, none, 32) ∧
    outcome (readField (sourceOf [0, 0, 0, 1]) .lsbByteFirst .w32 0) = (some 0x01000000, none, 32) := by decide

/-- TB-1, and the table of the host's check interface. -/
theorem test_merge_tb1 :
    mergeStage 8 ((List.range 8).foldl (fun t i => Arena.setOv t i 1) []) = (referenceTable.arena, 15) := by
  decide +kernel

/-- TB-2: symbols 0, 3 and 6. -/
theorem test_codewords_tb2 :
    let r := mergeStage 8 ((List.range 8).foldl (fun t i => Arena.setOv t i (BitVec.ofNat 32 (i + 1))) [])
    let t : CodeTable := { arena := r.1, start := r.2, firstReal := 8 }
    t.codeword 0 = some (bitsOf [0, 0, 0, 0, 1]) ∧ t.codeword 3 = some (bitsOf [0, 1, 1]) ∧
      t.codeword 6 = some (bitsOf [1, 1]) := by decide +kernel

/-- TB-4: a sum that wraps to 0 leaves the third slot without a code. -/
theorem test_merge_tb4 :
    let r := mergeStage 8 (((Arena.setOv [] 0 0x80000000).setOv 1 0x80000000).setOv 2 0xFFFFFFFF)
    r.2 = 9 ∧ r.1.ov 8 = 0 ∧ r.1.bv 0 = some true ∧ r.1.bv 1 = some false ∧ r.1.bv 2 = none := by decide +kernel

/-- CS-6, CS-8, CS-10. -/
theorem test_checksum_vectors :
    checksum [0x48, 0x69, 0x21] = 0x56AE366A ∧
    checksum [0x61, 0x62, 0x61, 0x62, 0x61, 0x62, 0x61, 0x62] = 0xF035B5C84AD652B8 ∧
    checksum [0xFF, 0xFF, 0xFF, 0xFF, 0xFF, 0xFF, 0xFF, 0xFF] = 0xB58C66C09F085A78 := by decide

/-- `DecodeSymbol` vectors SD-1, SD-2 and the end of `IN` inside a codeword. -/
theorem test_decodeSymbol_vectors :
    outcome (referenceTable.decodeSymbol (sourceOf [0xA0]) 0) = (some 2, none, 3) ∧
    outcome (referenceTable.decodeSymbol (sourceOf [0x1F]) 0) = (some 7, none, 3) ∧
    outcome (referenceTable.decodeSymbol (sourceOf [0xA0]) 6) = (none, some (.raised (.bits 8 1)), 8) := by decide

/-! ## One step of each instruction -/

/-- DL-1. -/
theorem test_step_lit :
    goesTo (step (atInstr litBits [] 3)) (fun t =>
      t.pos == 3 && t.out == [(0, 0x48), (1, 0x69), (2, 0x21)] && t.cur == { byteOffset := 91, bitIndex := 3 } &&
        t.phase == .decodeLoop) = true := by decide +kernel

/-- DL-5: the overrun check comes before any literal byte. -/
theorem test_step_lit_overrun :
    goesTo (step (atInstr litBits [] 2)) (fun t =>
      t.pos == 0 && t.fault == some .outputOverrun && t.cur == { byteOffset := 88, bitIndex := 3 }) = true := by
  decide +kernel

/-- DL-2: the copy overlaps itself. -/
theorem test_step_bref :
    goesTo (step (atInstr brefBits [0x61, 0x62] 8)) (fun t =>
      t.pos == 8 && t.out.read 2 == some 0x61 && t.out.read 7 == some 0x62 &&
        t.cur == { byteOffset := 88, bitIndex := 0 }) = true := by decide +kernel

/-- DL-3: `BREF 4, 1, 0` with `pos = 2`. -/
theorem test_step_bref_out_of_range :
    goesTo (step (atInstr (bitsOf [1, 0,1,1, 1,1,0]) [0x61, 0x62] 8)) (fun t =>
      t.pos == 2 && t.fault == some .backrefOutOfRange && t.phase == .failed) = true := by decide +kernel

/-- DL-7's distance: `((1 << 1) | 1) + 3`. -/
theorem test_backrefDistance : backrefDistance 1 1 1 3 = 6 := by decide

/-! ## The host's check interface -/

/-- The loaded table is the one `BuildTable` makes of the loaded preamble. -/
theorem test_loaded_preface_builds_reference_table :
    goesTo (step (atPreamble .msbFirst referencePreamble)) (fun t =>
      t.table == referenceTable.arena && t.start == some 15 && t.etf == some 8 && t.indexed == some false &&
        t.cur == { byteOffset := 33, bitIndex := 7 }) = true := by decide +kernel

/-- The loaded header and options pass their checks with the registers as loaded. -/
theorem test_loaded_preface_passes_header :
    goesTo (step (started referencePreface none)) (fun t =>
      t.declen == some 0xFFFFFFFF && t.hdrCsum == some 0 &&
        goesTo (step t) (fun u => u.hbc == some 3 && u.firstReal == some 8 && u.byteWidth == some 1 &&
          u.tableSize == some 36 && u.phase == .buildTable && u.position == 8 * 0x37)) = true := by decide +kernel

theorem test_withFetchWord_runs_lit :
    goesTo (step (State.reset.withFetchWord 8 0)) (fun t => t.pos == 8 && t.phase == .decodeLoop) = true := by
  decide +kernel

theorem test_withFetchWord_runs_bref :
    goesTo (step (State.reset.withFetchWord 8 1)) (fun t => t.fault == some .backrefOutOfRange) = true := by
  decide +kernel

/-! ## Witnesses: for each statement, concrete values that meet its hypotheses together, at the edges of its clauses -/

theorem next_of_goesTo {o : Host.Outcome State Fault Refusal} {check : State → Bool} (h : goesTo o check = true) :
    ∃ t, o = .next t ∧ check t = true := by
  cases o with
  | next t => exact ⟨t, rfl, h⟩
  | fault _ => cases h
  | refused _ => cases h

theorem witness_sourceComplete (bytes : List Byte) : (sourceOf bytes).Complete :=
  Memory.covers_ofBytes bytes

/-- No bit asked for; one bit past the end; the last bit; the last byte alone; the last two bytes. -/
theorem witness_ReadBitsTakesMostSignificantBitFirst :
    (sourceOf [0xA5, 0x3C]).Complete ∧ 0 < 1 ∧ 8 * (sourceOf [0xA5, 0x3C]).len < 16 + 1 ∧
      15 + 1 ≤ 8 * (sourceOf [0xA5, 0x3C]).len ∧ 1 < (sourceOf [0xA5, 0x3C]).len ∧
      (sourceOf [0xA5, 0x3C]).memory.read 0 = some 0xA5 ∧ (sourceOf [0xA5, 0x3C]).memory.read 1 = some 0x3C := by decide

theorem witness_PeekBitShowsTheBitConsumeBitTakes :
    (sourceOf [0xA5]).Complete ∧ 8 * (sourceOf [0xA5]).len < 8 + 1 ∧ 7 + 1 ≤ 8 * (sourceOf [0xA5]).len := by decide

theorem witness_ReadFieldAssemblesByFieldOrder :
    (sourceOf [0, 2]).Complete ∧ 8 * (sourceOf [0, 2]).len < 1 + FieldWidth.w16.bits ∧
      0 + FieldWidth.w16.bits ≤ 8 * (sourceOf [0, 2]).len := by decide

/-- Too short by one byte; and, each with `L = 0x37`, the last magic byte wrong; the budget one below the length; the
budget equal to it; no budget. -/
theorem witness_ReadHeaderChecksThenLoads :
    let preface := referencePreface.take 0x37
    let short := started (preface.take 0x36) none
    let bad := started (preface.set 15 1) none
    let poor := started preface (some 0xFFFFFFFE)
    let rich := started preface (some 0xFFFFFFFF)
    let free := started preface none
    (short.phase = .readHeader ∧ short.InputComplete ∧ short.inLen < 0x37) ∧
    (bad.phase = .readHeader ∧ bad.InputComplete ∧ bad.inLen = 0x37 ∧
      (∀ b < 15, bad.input.read b = magic[b]?) ∧ bad.input.read 15 ≠ magic[15]?) ∧
    (poor.phase = .readHeader ∧ poor.InputComplete ∧ poor.inLen = 0x37 ∧ (∀ a < 16, poor.input.read a = magic[a]?) ∧ poor.inputLE32 0x20 = 0xFFFFFFFF ∧
      poor.maxOutput = some 0xFFFFFFFE) ∧
    rich.input = poor.input ∧ rich.inLen = 0x37 ∧ rich.maxOutput = some 0xFFFFFFFF ∧
    free.input = poor.input ∧ free.inLen = 0x37 ∧ free.maxOutput = none := by decide +kernel

/-- OPT-9 (valid) and OPT-10 (invalid): five option bytes that differ in one bit at an edge. -/
theorem witness_ReadOptionsAcceptsExactlyValidOptions :
    let good := { started (headerBytes 0 0 ++ optionBytes 3 3 15 12 8) none with phase := .readOptions }
    let bad := { started (headerBytes 0 0 ++ optionBytes 3 3 15 11 8) none with phase := .readOptions }
    0x35 < good.inLen ∧ good.input.read 0x31 = some 3 ∧ good.input.read 0x32 = some 3 ∧
    good.input.read 0x33 = some 15 ∧ good.input.read 0x34 = some 12 ∧ good.input.read 0x35 = some 8 ∧
    optionsValid 3 3 15 12 8 = true ∧ bad.input.read 0x34 = some 11 ∧ optionsValid 3 3 15 11 8 = false := by
  decide +kernel

theorem witness_DerivedOptionRegistersStayInRange :
    optionsValid 3 3 3 0 2 = true ∧ optionsValid 8 3 8 4 2 = true ∧ optionsValid 9 3 9 4 2 = true ∧
      optionsValid 15 15 15 14 8 = true := by decide

theorem witness_MergeWritesTwoBitsAndOneNode : (2 : Nat) ≠ 8 ∧ 2 < 9 ∧ 8 < 9 := by decide

theorem witness_MergeStageBuildsFullTree : 1 ≤ 8 ∧ (mergeStage 8 []).2 = 8 := by decide

/-- No slot, one slot and two slots eligible. -/
theorem witness_MergeCountFollowsEligibleSlots :
    (∀ i, 8 ≤ i → Arena.get ((Arena.setOv [] 1 3).setOv 5 3) i = freshEntry) ∧
    (∀ i < 8, ((Arena.setOv [] 1 3).setOv 5 3).bv i = none) ∧
    ((List.range 8).filter (fun i => Arena.ov [] i != 0)).length = 0 ∧
    ((List.range 8).filter (fun i => (Arena.setOv [] 2 5).ov i != 0)).length = 1 ∧
    ((List.range 8).filter (fun i => ((Arena.setOv [] 1 3).setOv 5 3).ov i != 0)).length = 2 ∧
    (mergeStage 8 ((Arena.setOv [] 1 3).setOv 5 3)).2 = 9 ∧
    (mergeStage 8 ((Arena.setOv [] 1 3).setOv 5 3)).1.ov 8 = 6 := by
  refine ⟨fun i hi => ?_, by decide, by decide, by decide, by decide, by decide +kernel, by decide +kernel⟩
  rw [Arena.get_setOv_other _ _ _ _ (by omega), Arena.get_setOv_other _ _ _ _ (by omega)]
  rfl

/-- TB-2's weights: eight free slots, seven nodes, a tie between a terminal and a node. -/
theorem witness_MergeStageJoinsTheTwoSmallest :
    let t := (List.range 8).foldl (fun t i => Arena.setOv t i (BitVec.ofNat 32 (i + 1))) []
    (∀ i, 8 ≤ i → Arena.get t i = freshEntry) ∧ (∀ i < 8, t.bv i = none) ∧ (mergeStage 8 t).2 = 15 ∧
      (mergeStage 8 t).1.cl 9 = some 2 ∧ (mergeStage 8 t).1.ch 9 = some 8 := by
  refine ⟨fun i hi => ?_, by decide +kernel, by decide +kernel, by decide +kernel, by decide +kernel⟩
  have h : ∀ n t, n ≤ 8 → Arena.get t i = freshEntry →
      Arena.get ((List.range n).foldl (fun t i => Arena.setOv t i (BitVec.ofNat 32 (i + 1))) t) i = freshEntry := by
    intro n
    induction n with
    | zero => exact fun _ _ h => h
    | succ n ih =>
      intro t hn h
      rw [List.range_succ, List.foldl_append, List.foldl_cons, List.foldl_nil, Arena.get_setOv_other _ _ _ _ (by omega)]
      exact ih t (by omega) h
  exact h 8 [] (by omega) rfl

/-- The identity preamble with 7 entries (TB-14's form) under `LSB_BYTE_FIRST`. -/
theorem witness_BuildTableReadsBackEncodedPreamble_identity :
    let ws : List (Nat × Word32) := (List.range 7).map (fun i => (i, BitVec.ofNat 32 (i + 1)))
    let bits := preambleBits .lsbByteFirst 1 7 (ws.map (fun e => (none, e.2)))
    let s := atPreamble .lsbByteFirst bits
    s.phase = .buildTable ∧ s.firstReal = some 8 ∧ s.byteWidth = some 1 ∧ 8 ≤ 2 ^ (8 * 1) ∧ 7 < 2 ^ (8 * 1) ∧
      ws.length = 7 ∧ (∀ e ∈ ws, e.1 < 8) ∧ 8 * 4 < (1 + 4) * ws.length ∧ ws.map Prod.fst = List.range ws.length ∧
      s.position + bits.length ≤ 8 * s.source.len ∧
      ∀ k < bits.length, s.source.bit (s.position + k) = bits[k]? := by decide +kernel

/-- The indexed preamble of P3: two entries, the indices in falling order. -/
theorem witness_BuildTableReadsBackEncodedPreamble_indexed :
    let ws : List (Nat × Word32) := [(5, 3), (1, 3)]
    let bits := preambleBits .msbFirst 1 2 (ws.map (fun e => (some e.1, e.2)))
    let s := atPreamble .msbFirst bits
    s.phase = .buildTable ∧ s.firstReal = some 8 ∧ s.byteWidth = some 1 ∧ (2 : Nat) ≠ 0 ∧ ws.length = 2 ∧
      (∀ e ∈ ws, e.1 < 8) ∧ ¬ 8 * 4 < (1 + 4) * ws.length ∧ s.position + bits.length ≤ 8 * s.source.len ∧
      ∀ k < bits.length, s.source.bit (s.position + k) = bits[k]? := by decide +kernel

/-- TB-11 (nine entries, identity) and TB-10 (one entry, index 8). -/
theorem witness_PreambleIndexOutOfRangeFaults :
    let s := atPreamble .msbFirst (fieldBits .msbFirst 1 9)
    let bits := preambleBits .msbFirst 1 1 [] ++ fieldBits .msbFirst 1 8
    let u := atPreamble .msbFirst bits
    (s.phase = .buildTable ∧ 8 * 4 < (1 + 4) * 9 ∧ 8 < 9 ∧ s.position + 8 ≤ 8 * s.source.len ∧
      ∀ k < 8, s.source.bit (s.position + k) = (fieldBits .msbFirst 1 9)[k]?) ∧
    (u.phase = .buildTable ∧ ¬ 8 * 4 < (1 + 4) * 1 ∧ 0 < 1 ∧ 8 ≤ 8 ∧ 8 < 2 ^ (8 * 1) ∧
      u.position + bits.length ≤ 8 * u.source.len ∧
      ∀ k < bits.length, u.source.bit (u.position + k) = bits[k]?) := by decide +kernel

/-- The count cut off by one bit; TB-12, its first weight cut off; and, with one whole entry, an index cut off by one bit
and the weight behind an index cut off by one bit. -/
theorem witness_CutOffPreambleFaultsTruncated :
    let r := { atPreamble .msbFirst (natBits 8 0) with cur := { byteOffset := 0, bitIndex := 6 } }
    let s := atPreamble .msbFirst (fieldBits .msbFirst 1 0)
    let head := preambleBits .lsbByteFirst 1 2 [(some 5, 3)]
    let u := { atPreamble .lsbByteFirst (false :: head ++ natBits 7 0) with cur := { byteOffset := 0, bitIndex := 6 } }
    let upTo := head ++ fieldBits .lsbByteFirst 1 7
    let w := { atPreamble .lsbByteFirst (false :: upTo ++ natBits 31 0) with
      cur := { byteOffset := 0, bitIndex := 6 } }
    (r.phase = .buildTable ∧ r.InputComplete ∧ r.firstReal = some 8 ∧ r.byteWidth = some 1 ∧ 8 ≤ 2 ^ (8 * 1) ∧
      8 * r.inLen + 1 = r.position + 1 * 8) ∧
    (s.InputComplete ∧ 8 * 4 < (1 + 4) * 8 ∧ 0 < 8 ∧ s.position + 8 = 8 * s.source.len ∧
      ∀ k < 8, s.source.bit (s.position + k) = (preambleBits .msbFirst 1 0 [])[k]?) ∧
    (u.InputComplete ∧ ¬ 8 * 4 < (1 + 4) * 2 ∧ 1 < 2 ∧ u.position + head.length ≤ 8 * u.source.len ∧
      (∀ k < head.length, u.source.bit (u.position + k) = head[k]?) ∧
      8 * u.inLen + 1 = u.position + head.length + 1 * 8) ∧
    (w.InputComplete ∧ w.position + upTo.length ≤ 8 * w.source.len ∧
      (∀ k < upTo.length, w.source.bit (w.position + k) = upTo[k]?) ∧
      8 * w.inLen + 1 = w.position + upTo.length + 32) := by decide +kernel

/-- TB-12, and an index cut off. -/
theorem test_preamble_cut_off :
    goesTo (step (atPreamble .msbFirst (fieldBits .msbFirst 1 0))) (fun t =>
      t.fault == some .truncatedStream && t.etf == some 8 && t.indexed == some false && t.start == none) = true ∧
    goesTo (step (atPreamble .msbFirst (preambleBits .msbFirst 1 2 [(some 5, 3)]))) (fun t =>
      t.fault == some .truncatedStream && t.table.ov 5 == 3 && t.position == 48) = true := by decide +kernel

/-- A degenerate table with one bit left, and with nothing to produce. -/
theorem witness_DegenerateTableFaultsAtFirstSymbol :
    let s := { atInstr [true] [] 1 with start := some 8 }
    let u := { atInstr [true] [] 0 with start := some 8 }
    s.phase = .decodeLoop ∧ s.InputComplete ∧ s.declen = some 1 ∧ s.start = some 8 ∧ s.firstReal = some 8 ∧
      8 ≤ 8 ∧ s.pos ≠ 1 ∧ s.position < 8 * s.inLen ∧ u.pos = 0 ∧ u.declen = some 0 := by
  decide +kernel

theorem referenceTable_tree : referenceTable.Tree := by
  constructor
  · intro n h1 h2
    have h : n = 8 ∨ n = 9 ∨ n = 10 ∨ n = 11 ∨ n = 12 ∨ n = 13 ∨ n = 14 := by
      simp only [referenceTable] at h1 h2
      omega
    rcases h with rfl | rfl | rfl | rfl | rfl | rfl | rfl <;>
      exact ⟨_, _, rfl, rfl, by decide, by decide, rfl, rfl⟩
  · intro n m c h1 h2 h3 h4 hn hm
    have key : ∀ n < 15, ∀ m < 15, 8 ≤ n ∧ 8 ≤ m ∧
        (referenceTable.arena.cl n = referenceTable.arena.cl m ∨ referenceTable.arena.cl n = referenceTable.arena.ch m ∨
          referenceTable.arena.ch n = referenceTable.arena.cl m ∨ referenceTable.arena.ch n = referenceTable.arena.ch m) →
        n = m := by decide +kernel
    refine key n h2 m h4 ⟨h1, h3, ?_⟩
    rcases hn with hn | hn <;> rcases hm with hm | hm <;> rw [hn, hm] <;> simp

/-- Symbol 2 of TB-1 at the last three bits of a byte. -/
theorem witness_DecodeSymbolInvertsCodeword :
    referenceTable.Tree ∧ referenceTable.codeword 2 = some (bitsOf [1, 0, 1]) ∧
      (sourceOf [0x05]).Holds 5 (bitsOf [1, 0, 1]) :=
  ⟨referenceTable_tree, by decide, by unfold Source.Holds; decide⟩

/-- `start - F = 7` bits, ending at the end of the buffer. -/
theorem witness_EveryLongEnoughBitStringDecodes :
    referenceTable.Tree ∧ referenceTable.firstReal < referenceTable.start ∧ (sourceOf [0x05]).Complete ∧
      1 + (referenceTable.start - referenceTable.firstReal) ≤ 8 * (sourceOf [0x05]).len :=
  ⟨referenceTable_tree, by decide, by decide, by decide⟩

/-- Two bits before the end of `IN`; and at its end. -/
theorem witness_SymbolDecodesOrFaultsTruncated :
    referenceTable.Tree ∧ referenceTable.firstReal < referenceTable.start ∧ (sourceOf [0x05]).Complete ∧
      6 ≤ 8 * (sourceOf [0x05]).len ∧ 8 ≤ 8 * (sourceOf [0x05]).len :=
  ⟨referenceTable_tree, by decide, by decide, by decide, by decide⟩

/-- SD-10: TB-2, the bits `000` and the end of `IN` in front of the fourth bit. -/
theorem test_decodeSymbol_cut_off :
    let r := mergeStage 8 ((List.range 8).foldl (fun t i => Arena.setOv t i (BitVec.ofNat 32 (i + 1))) [])
    let t : CodeTable := { arena := r.1, start := r.2, firstReal := 8 }
    outcome (t.decodeSymbol (sourceOf [0]) 5) = (none, some (.raised (.bits 8 1)), 8) := by decide +kernel

/-- No codeword of TB-1 fits where fewer than three bits are left. -/
theorem referenceTable_cut_off (src : Source) (p : Nat) (h : 8 * src.len < p + 3) (v : Nat) (w : List Bool)
    (hv : referenceTable.codeword v = some w) : ¬ src.Holds p w := by
  intro hw
  have hlt : v < 8 := ((CodeTable.codeword_eq_some referenceTable_tree).1 hv).2.1
  have key : ∀ v < 8, (referenceTable.codeword v).map List.length = some 3 := by decide +kernel
  have hl := key v hlt
  rw [hv] at hl
  have : w.length = 3 := by simpa using hl
  have := hw.1
  omega

/-- The length symbol with two bits left after the selector; the distance symbol with one bit left; one low bit with none
left; and DL-10's `LIT`, one of its three bytes there. -/
theorem witness_CutOffInstructionFaultsTruncated :
    let src := sourceOf [0x05]
    referenceTable.Tree ∧ referenceTable.firstReal < referenceTable.start ∧ src.Complete ∧
    (src.Holds 5 [true] ∧ ∀ v w, referenceTable.codeword v = some w → ¬ src.Holds (5 + 1) w) ∧
    (referenceTable.codeword 7 = some (bitsOf [0, 0, 0]) ∧ (sourceOf [0x10]).Holds 3 (true :: bitsOf [0, 0, 0]) ∧
      ∀ v w, referenceTable.codeword v = some w → ¬ (sourceOf [0x10]).Holds (3 + 1 + 3) w) ∧
    ((sourceOf [0x40]).Holds 1 (true :: (bitsOf [0, 0, 0] ++ bitsOf [0, 0, 0])) ∧ (sourceOf [0x40]).Complete ∧
      8 * (sourceOf [0x40]).len < 1 + 1 + 3 + 3 + 1) ∧
    (referenceTable.codeword 2 = some (bitsOf [1, 0, 1]) ∧ (sourceOf [0x54, 0x80]).Complete ∧
      (sourceOf [0x54, 0x80]).Holds 0 (false :: bitsOf [1, 0, 1]) ∧
      8 * (sourceOf [0x54, 0x80]).len < 0 + 1 + 3 + 8 * (2 + 1)) :=
  ⟨referenceTable_tree, by decide, by decide,
    ⟨by unfold Source.Holds; decide, referenceTable_cut_off _ _ (by decide)⟩,
    ⟨by decide, by unfold Source.Holds; decide, referenceTable_cut_off _ _ (by decide)⟩,
    ⟨by unfold Source.Holds; decide, by decide, by decide⟩,
    ⟨by decide, by decide, by unfold Source.Holds; decide, by decide⟩⟩

theorem witness_CodewordsArePrefixFree :
    referenceTable.Tree ∧ referenceTable.codeword 7 = some (bitsOf [0, 0, 0]) ∧
      referenceTable.codeword 7 = some (bitsOf [0, 0, 0] ++ []) :=
  ⟨referenceTable_tree, by decide, by decide⟩

theorem witness_DecodeInvertsEncode_lit :
    referenceTable.Tree ∧ Instr.wellFormed referenceTable 0 (.lit 2 [0x48, 0x69, 0x21]) = true ∧
      encode referenceTable 0 (.lit 2 [0x48, 0x69, 0x21]) = some litBits ∧
      (sourceOf [0x54, 0x86, 0x92, 0x10]).Holds 0 litBits :=
  ⟨referenceTable_tree, by decide, by decide, by unfold Source.Holds; decide⟩

/-- The largest operands with `opt_lbc = 2`, at bit 3 of the buffer. -/
theorem witness_DecodeInvertsEncode_bref :
    referenceTable.Tree ∧ Instr.wellFormed referenceTable 2 (.bref 7 7 3) = true ∧
      encode referenceTable 2 (.bref 7 7 3) = some (bitsOf [1, 0,0,0, 0,0,0, 1,1]) ∧
      (sourceOf [0x10, 0x30]).Holds 3 (bitsOf [1, 0,0,0, 0,0,0, 1,1]) :=
  ⟨referenceTable_tree, by decide, by decide, by unfold Source.Holds; decide⟩

theorem witness_EncodeInvertsDecode :
    referenceTable.Tree ∧ (sourceOf [0xBE]).Complete ∧
      decodeInstr referenceTable 0 (sourceOf [0xBE]) 0 = .ok (.bref 4 0 0) 7 ∧
      decodeInstr referenceTable 0 (sourceOf [0x74, 0x10]) 0 = .ok (.lit 0 [0x41]) 4 ∧ [(0x41 : Byte)].length = 0 + 1 :=
  ⟨referenceTable_tree, by decide, rfl, rfl, rfl⟩

theorem witness_PseudoInstructionsExpand :
    [(0x61 : Byte)] ≠ [] ∧ (2 : Byte).toNat ≤ 2 ∧ (2 : Byte).toNat ≤ 33 := by decide

theorem witness_OperandsAssembleAsStated : 7 < 8 ∧ 0 < 8 ∧ 3 < 2 ^ (2 : Byte).toNat := by decide

/-- Exactly room for the run; one byte less. -/
theorem witness_LiteralRunWritesItsBytes :
    (atInstr [] [0x61] 4).declen = some 4 ∧ [(0x48 : Byte), 0x69, 0x21].length = 2 + 1 ∧
      (atInstr [] [0x61] 4).pos + (2 + 1) ≤ (4 : Word32).toNat := by decide +kernel

/-- The operands alone; and DL-10's stream, cut off in its second byte, with room for the run and with one byte less. -/
theorem witness_CutOffLiteralRunFaultsTruncated :
    let s := atInstr (litBits.take 16) [] 3
    let u := atInstr (litBits.take 16) [] 2
    ((atInstr [] [] 3).declen = some 3 ∧ [(0x48 : Byte)].length < 2 + 1 ∧
      (atInstr [] [] 3).pos + (2 + 1) ≤ (3 : Word32).toNat) ∧
    (s.phase = .decodeLoop ∧ s.InputComplete ∧ s.declen = some 3 ∧ s.start = some 15 ∧ s.firstReal = some 8 ∧
      s.table = referenceTable.arena ∧ referenceTable.codeword 2 = some (bitsOf [1, 0, 1]) ∧
      s.position + 4 ≤ 8 * s.source.len ∧
      (∀ k < 4, s.source.bit (s.position + k) = (false :: bitsOf [1, 0, 1])[k]?) ∧
      8 * s.inLen < s.position + 1 + 3 + 8 * (2 + 1) ∧ s.pos ≠ (3 : Word32).toNat ∧
      s.pos + (2 + 1) ≤ (3 : Word32).toNat) ∧
    (u.source = s.source ∧ u.declen = some 2 ∧ u.pos ≠ (2 : Word32).toNat ∧ (2 : Word32).toNat < u.pos + (2 + 1)) := by
  decide +kernel

/-- DL-2: the distance equal to `pos`, the copy ending at `declen`. -/
theorem witness_BackrefCopiesByteByByte :
    let s := atInstr [] [0x61, 0x62] 8
    s.optBase = some 2 ∧ s.optLbc = some 0 ∧ s.declen = some 8 ∧ s.OutputExact ∧ 1 ≤ backrefDistance 0 0 0 2 ∧
      backrefDistance 0 0 0 2 ≤ s.pos ∧ s.pos + backrefCount 4 2 ≤ (8 : Word32).toNat := by decide +kernel

theorem witness_BackrefBeforeOutputFaults :
    let s := atInstr [] [0x61, 0x62] 8
    s.optBase = some 2 ∧ s.optLbc = some 0 ∧ s.pos < backrefDistance 1 0 0 2 := by decide +kernel

/-- DL-4 and DL-5: one byte too many. -/
theorem witness_InstructionPastDeclenFaultsOverrun :
    let s := atInstr [] [0x61, 0x62] 7
    let u := atInstr [] [] 2
    u.declen = some 2 ∧ (2 : Word32).toNat < u.pos + (2 + 1) ∧ s.optBase = some 2 ∧ s.optLbc = some 0 ∧
      s.declen = some 7 ∧ backrefDistance 0 0 0 2 ≤ s.pos ∧ (7 : Word32).toNat < s.pos + (4 + (2 : Byte).toNat) := by
  decide +kernel

/-- Both instructions, each completing and each failing. -/
theorem witness_InstructionsChangeOnlyOutputAndCursor :
    (∃ t, exec (.lit 0 [0x41]) (atInstr [] [] 1) = .next t ∧ (t.phase == .decodeLoop) = true) ∧
    (∃ t, exec (.lit 0 [0x41]) (atInstr [] [] 0) = .next t ∧ (t.phase == .failed) = true) ∧
    (∃ t, exec (.bref 0 0 0) (atInstr [] [0x61, 0x62] 4) = .next t ∧ (t.phase == .decodeLoop) = true) ∧
    ∃ t, exec (.bref 0 0 0) (atInstr [] [0x61] 4) = .next t ∧ (t.phase == .failed) = true :=
  ⟨next_of_goesTo (by decide +kernel), next_of_goesTo (by decide +kernel), next_of_goesTo (by decide +kernel),
    next_of_goesTo (by decide +kernel)⟩

/-- Each register unwritten in turn. -/
theorem witness_UnwrittenRegisterStopsTheInstruction :
    let s := atInstr [] [0x61, 0x62] 8
    let u := { s with declen := none }
    State.reset.declen = none ∧ State.reset.optBase = none ∧ s.optBase = some 2 ∧
      { s with optLbc := none }.optLbc = none ∧
      u.optBase = some 2 ∧ u.optLbc = some 0 ∧ backrefDistance 0 0 0 2 ≤ u.pos ∧ u.declen = none := by
  decide +kernel

/-- The output complete; the input exhausted. -/
theorem witness_LoopExitsAtDeclenOrExhaustion :
    let s := atInstr [true] [0x61] 1
    let u := atInstr [] [0x61] 2
    s.phase = .decodeLoop ∧ s.declen = some 1 ∧ s.pos = (1 : Word32).toNat ∧ s.position < 8 * s.inLen ∧
      u.pos ≠ (2 : Word32).toNat ∧ 8 * u.inLen ≤ u.position := by decide +kernel

/-- An instruction decoded; a decoding that faults (one bit left of a byte, after the selector). -/
theorem witness_StepRunsTheDecodedInstruction :
    let s := atInstr litBits [] 3
    let u := { atInstr [true] [] 3 with cur := { byteOffset := 88, bitIndex := 0 } }
    (s.phase = .decodeLoop ∧ s.declen = some 3 ∧ s.start = some 15 ∧ s.firstReal = some 8 ∧ s.optLbc = some 0 ∧
      s.pos ≠ (3 : Word32).toNat ∧ s.position < 8 * s.inLen ∧
      outcome (decodeInstr referenceTable 0 s.source s.position) = (some (.lit 2 [0x48, 0x69, 0x21]), none, 708)) ∧
    (u.position < 8 * u.inLen ∧
      outcome (decodeInstr referenceTable 0 u.source u.position) = (none, some (.raised (.bits 712 1)), 712)) := by
  decide +kernel

theorem witness_StepRunsEncodedLiteral :
    let s := atInstr litBits [] 3
    s.phase = .decodeLoop ∧ s.declen = some 3 ∧ s.start = some 15 ∧ s.firstReal = some 8 ∧ s.optLbc = some 0 ∧
      s.table = referenceTable.arena ∧ encode referenceTable 0 (.lit 2 [0x48, 0x69, 0x21]) = some litBits ∧
      s.position + litBits.length ≤ 8 * s.source.len ∧
      (∀ k < litBits.length, s.source.bit (s.position + k) = litBits[k]?) ∧ s.pos + (2 + 1) ≤ (3 : Word32).toNat := by
  decide +kernel

theorem witness_StepRunsEncodedBackref :
    let s := atInstr brefBits [0x61, 0x62] 8
    s.phase = .decodeLoop ∧ s.declen = some 8 ∧ s.optBase = some 2 ∧ s.OutputExact ∧
      s.table = referenceTable.arena ∧ encode referenceTable 0 (.bref 4 0 0) = some brefBits ∧
      Instr.wellFormed referenceTable 0 (.bref 4 0 0) = true ∧ s.position + brefBits.length ≤ 8 * s.source.len ∧
      (∀ k < brefBits.length, s.source.bit (s.position + k) = brefBits[k]?) ∧
      1 ≤ 0 * 2 ^ (0 : Byte).toNat + 0 + (2 : Byte).toNat ∧ 0 * 2 ^ (0 : Byte).toNat + 0 + (2 : Byte).toNat ≤ s.pos ∧
      s.pos ≠ (8 : Word32).toNat ∧ s.pos + (4 + (2 : Byte).toNat) ≤ (8 : Word32).toNat := by decide +kernel

/-- P4's two bytes with the right checksum, and with P4-bad's. -/
theorem witness_VerifyChecksumDecidesTheRun :
    let s := atVerify [0x61, 0x62] 0x5FF107
    s.phase = .verifyChecksum ∧ s.hdrCsum = some 0x5FF107 ∧ [(0x61 : Byte), 0x62].length = s.pos ∧
      (∀ k < s.pos, s.out.read k = [(0x61 : Byte), 0x62][k]?) ∧ checksum [0x61, 0x62] = 0x5FF107 ∧
      checksum [0x61, 0x62] ≠ 0x5FF106 := by decide +kernel

theorem witness_OutputIsDeliveredOnlyInDone :
    let s := { atVerify [0x61, 0x62] 0x5FF107 with phase := .done }
    s.phase = .done ∧ s.OutputExact ∧ (atVerify [0x61] 0).phase ≠ .done := by decide +kernel

/-- A failed state, and one that is not. -/
theorem witness_HostReadsRegistersAndFaultKind :
    (State.reset.takeFault (.headerShort 0)).phase = .failed ∧ State.reset.phase ≠ .failed := by decide

/-- A failed run's status shows code 1 and the registers its header check left. -/
theorem test_hostView_failed :
    (State.reset.takeFault (.headerShort 0)).hostView.fault = 1 ∧
      (State.reset.takeFault (.headerShort 0)).hostView.declen = none := by decide

/-- A failed state and a live one, each with its fault register as the rule has it; the live one takes a fault. -/
theorem witness_FaultIsWrittenOnceWithFailed :
    let s := State.reset.takeFault (.headerShort 0)
    let u := started [] none
    (s.phase = .failed ↔ s.fault ≠ none) ∧ s.phase = .failed ∧ (u.phase = .failed ↔ u.fault ≠ none) ∧
      goesTo (step s) (fun t => t == s) = true ∧ goesTo (step u) (fun t => t.fault == some .headerInvalid) = true := by
  decide +kernel

/-- Steps that fail, stay and move on. -/
theorem witness_PhaseMovesForwardOnly :
    goesTo (step (started [] none)) (fun t => t.phase == .failed) = true ∧
      goesTo (step (atInstr brefBits [0x61, 0x62] 8)) (fun t => t.phase == .decodeLoop) = true ∧
      goesTo (step (started referencePreface none)) (fun t => t.phase == .readOptions) = true := by decide +kernel

theorem witness_NoStepLeavesIdleOrAFinalPhase :
    State.reset.phase = .idle ∧ (State.reset.takeFault (.headerShort 0)).phase.isFinal = true := by decide

/-- Steps of four phases. -/
theorem witness_RegistersAreWrittenByTheirStepAlone :
    goesTo (step (started referencePreface none)) (fun t => t.declen.isSome) = true ∧
      goesTo (step (atPreamble .msbFirst referencePreamble)) (fun t => t.start.isSome) = true ∧
      goesTo (step (atInstr litBits [] 3)) (fun t => t.pos == 3) = true ∧
      goesTo (step (atVerify [0x61, 0x62] 0x5FF107)) (fun t => t.phase == .done) = true := by decide +kernel

/-- Start in `Idle`, and one with no effect in `ReadHeader`. -/
theorem witness_StartResetsTheRun :
    State.reset.phase = .idle ∧ (started [0x4C] none).phase ≠ .idle ∧ (started [0x4C] none).phase ≠ .done ∧
      (started [0x4C] none).phase ≠ .failed := by decide

/-- A fresh engine and one that ended a run. -/
theorem witness_RunsShareNoState :
    let s := State.reset
    let t := { atVerify [0x61, 0x62] 0x5FF107 with phase := .done }
    s.cfg = t.cfg ∧ s.phase.acceptsStart = true ∧ t.phase.acceptsStart = true ∧ s ≠ t := by decide +kernel

theorem witness_StepKeepsCanonicalForm :
    let s := atInstr brefBits [0x61, 0x62] 8
    Memory.wf s.input = true ∧ Memory.wf s.out = true ∧ Arena.wf s.table = true ∧
      goesTo (step s) (fun t => t.pos == 8) = true := by decide +kernel

theorem witness_StartEstablishesInvariant :
    offsetsInHeader State.reset.cfg ∧ State.reset.phase.acceptsStart = true :=
  ⟨by unfold offsetsInHeader; decide, rfl⟩

theorem referenceTable_high (i : Nat) (h : 15 ≤ i) : Arena.get referenceTable.arena i = freshEntry := by
  simp only [referenceTable, Arena.get]
  repeat rw [if_neg (by omega)]

/-- The invariant holds of a state in the loop, with output produced and an instruction next. -/
theorem inv_atInstr : (atInstr brefBits [0x61, 0x62] 8).Inv where
  offsets := by unfold offsetsInHeader; decide
  input := Memory.covers_ofBytes _
  output := Memory.covers_ofBytes _
  fault := by decide +kernel
  unbuilt := fun h => by cases h
  header := fun _ => ⟨by decide +kernel, 8, 0, rfl, rfl, by decide +kernel⟩
  options := fun _ => ⟨3, 3, 3, 0, 2, rfl, rfl, rfl, rfl, rfl, by decide, rfl, rfl, rfl, rfl⟩
  table := fun _ => ⟨⟨8, 8, false, 15, rfl, rfl, rfl, rfl, by decide, by decide, by decide, referenceTable_tree,
    referenceTable_high⟩, by decide +kernel⟩

theorem witness_StepKeepsInvariant :
    (atInstr brefBits [0x61, 0x62] 8).Inv ∧
      ∃ t, step (atInstr brefBits [0x61, 0x62] 8) = .next t ∧ (t.pos == 8) = true :=
  ⟨inv_atInstr, next_of_goesTo (by decide +kernel)⟩

theorem witness_StepOfARunNeverStops : (atInstr brefBits [0x61, 0x62] 8).Inv :=
  inv_atInstr

theorem witness_EveryRunEnds :
    (atInstr brefBits [0x61, 0x62] 8).Inv ∧ (atInstr brefBits [0x61, 0x62] 8).phase = .decodeLoop ∧
      (atInstr brefBits [0x61, 0x62] 8).declen = some 8 ∧ offsetsInHeader State.reset.cfg ∧
      State.reset.phase.acceptsStart = true :=
  ⟨inv_atInstr, rfl, rfl, by unfold offsetsInHeader; decide, rfl⟩

/-- A header whose tail and byte 0x36 differ; and a state of no run whose step stops. -/
theorem witness_IgnoredHeaderBytesHaveNoEffect :
    let s := started referencePreface none
    let m := (s.input.write 0x10 0xFF).write 0x36 0xFF
    let u := { State.reset with phase := .readOptions }
    s.cfg = defaultConfig ∧ 8 * 0x37 ≤ s.position ∧ (∀ a, ¬ ignoredAddress a → m.read a = s.input.read a) ∧
      m ≠ s.input ∧ goesTo (step s) (fun t => t.phase == .readOptions) = true ∧
      u.cfg = defaultConfig ∧ 8 * 0x37 ≤ u.position ∧ step u = .fault (.absentInput 0x31) := by
  refine ⟨rfl, by decide, fun a ha => ?_, by decide +kernel, by decide +kernel, rfl, by decide, rfl⟩
  have h1 : a ≠ 0x36 := fun h => ha (Or.inr (Or.inr h))
  have h2 : a ≠ 0x10 := fun h => ha (Or.inl (by omega))
  rw [Memory.read_write_other _ _ _ _ h1, Memory.read_write_other _ _ _ _ h2]

/-- One byte appended behind the last instruction, with bits left; and with the output complete. -/
theorem witness_AppendedBytesMatterOnlyAtTheEnd :
    let s := atInstr brefBits [0x61, 0x62] 8
    let m := s.input.write s.inLen 0xFF
    let u := atInstr [] [0x61] 1
    s.inLen ≤ s.inLen + 1 ∧ (∀ a < s.inLen, m.read a = s.input.read a) ∧
      goesTo (step s) (fun t => t.phase == .decodeLoop) = true ∧ s.position < 8 * s.inLen ∧
      goesTo (step u) (fun t => t.phase == .verifyChecksum) = true ∧ 8 * u.inLen ≤ u.position ∧ u.declen = some 1 ∧
      u.pos = (1 : Word32).toNat := by
  refine ⟨by decide +kernel, fun a ha => ?_, by decide +kernel, by decide +kernel, by decide +kernel, by decide +kernel,
    rfl, rfl⟩
  exact Memory.read_write_other _ _ _ _ (Nat.ne_of_lt ha)

end Sys2Proof.Tests
end

section
/-! PROOFS. The statements of 00_scope.md: R11 (the cursor and the bit position) and R7 (the ranges of the registers
derived from the options). -/

namespace Sys2Proof.Machine

/-! ### The fields of the cursor at a position -/

@[simp] theorem Cursor.ofPosition_byteOffset (p : Nat) : (Cursor.ofPosition p).byteOffset = p / 8 := rfl

@[simp] theorem Cursor.ofPosition_bitIndex_val (p : Nat) : (Cursor.ofPosition p).bitIndex.val = 7 - p % 8 := rfl

/-! ### The option check and the derived registers -/

/-- The six clauses of 41_header_options.md R126, as a proposition. -/
theorem optionsValid_iff (raw min ub lbc base : Byte) :
    optionsValid raw min ub lbc base = true ↔
      (3 ≤ raw.toNat ∧ raw.toNat ≤ 15) ∧ (3 ≤ min.toNat ∧ min.toNat ≤ 15) ∧
      (min.toNat ≤ ub.toNat ∧ ub.toNat ≤ 15) ∧ lbc.toNat < ub.toNat ∧
      (2 ≤ base.toNat ∧ base.toNat ≤ 8) ∧ ub.toNat - lbc.toNat ≤ huffBitCount raw min := by
  simp only [optionsValid, huffBitCount, Bool.and_eq_true, decide_eq_true_eq, and_assoc]

/-- Both arguments of the maximum lie in 3..15, so it does; no other clause of the check is needed. -/
theorem huffBitCount_range {raw min ub lbc base : Byte} (h : optionsValid raw min ub lbc base = true) :
    3 ≤ huffBitCount raw min ∧ huffBitCount raw min ≤ 15 := by
  obtain ⟨⟨hraw, hraw'⟩, ⟨_, hmin'⟩, _⟩ := (optionsValid_iff ..).mp h
  exact ⟨Nat.le_trans hraw (Nat.le_max_left ..), Nat.max_le.mpr ⟨hraw', hmin'⟩⟩

/-- The rounded quotient is one byte up to eight bits and two bytes up to sixteen. -/
theorem byteWidthOf_eq_ite {hbc : Nat} (hpos : 1 ≤ hbc) (hle : hbc ≤ 16) :
    byteWidthOf hbc = if hbc ≤ 8 then 1 else 2 := by
  unfold byteWidthOf
  split <;> omega

theorem tableSizeOf_le_tableSizeOf {f g : Nat} (h : f ≤ g) : tableSizeOf f ≤ tableSizeOf g :=
  Nat.div_le_div_right (Nat.mul_le_mul h (Nat.succ_le_succ h))

/-! ### The statements -/

/-- Settles O5: the two conversions are inverse to each other, and the fields are R11's quotient and remainder. -/
theorem cursorAndPositionAgree : Obligations.CursorAndPositionAgree :=
  ⟨Cursor.position_ofPosition, Cursor.ofPosition_position,
    fun p => ⟨Cursor.ofPosition_byteOffset p, Cursor.ofPosition_bitIndex_val p⟩⟩

/-- Settles O8: `hbc` lies in 3..15, and `F` and `tableSize` are monotone in it, so their bounds are the values at 3
and at 15. -/
theorem derivedOptionRegistersStayInRange : Obligations.DerivedOptionRegistersStayInRange := by
  intro raw min ub lbc base hvalid
  obtain ⟨hlow, hhigh⟩ := huffBitCount_range hvalid
  have hFlow : 2 ^ 3 ≤ 2 ^ huffBitCount raw min := Nat.pow_le_pow_right Nat.two_pos hlow
  have hFhigh : 2 ^ huffBitCount raw min ≤ 2 ^ 15 := Nat.pow_le_pow_right Nat.two_pos hhigh
  have hwidth := byteWidthOf_eq_ite (hbc := huffBitCount raw min) (by omega) (by omega)
  exact ⟨hlow, hhigh, hFlow, hFhigh, hwidth, tableSizeOf_le_tableSizeOf hFlow, tableSizeOf_le_tableSizeOf hFhigh⟩

end Sys2Proof.Machine
end

section
/-! PROOFS. How far the reads of a step move `cur` (40_bitcursor.md R102 to R107, 43_symbol_decoder.md R171,
44_decode_loop.md R181 to R185): a read that completes ends at or before the end of `IN`. -/

namespace Sys2Proof.Machine

/-! ### Fixed-width reads -/

/-- A read of at least one bit that completes took a number of that width from bits that `IN` has. -/
theorem readBits_ok_bounds {src : Source} {n p v q : Nat} (hn : n ≠ 0) (h : readBits src n p = .ok v q) :
    v < 2 ^ n ∧ q = p + n ∧ q ≤ 8 * src.len := by
  have hle : p + n ≤ 8 * src.len := by
    refine Nat.le_of_not_lt fun hgt => ?_
    rw [readBits, if_neg hn, if_pos hgt] at h
    cases h
  obtain ⟨hq, hv, _⟩ := readBits_ok_holds h (by omega)
  exact ⟨hv, hq, by omega⟩

/-- The byte loop of a least-significant-byte-first field: each byte read widens the number by eight bits. -/
theorem readBytesLow_ok_bounds {src : Source} {k n v p w q : Nat} (hv : v < 2 ^ (8 * k))
    (h : readBytesLow src k n v p = .ok w q) :
    w < 2 ^ (8 * (k + n)) ∧ q = p + 8 * n ∧ (n ≠ 0 → q ≤ 8 * src.len) := by
  induction n generalizing k v p with
  | zero =>
    cases h
    exact ⟨hv, rfl, fun h0 => absurd rfl h0⟩
  | succ n ih =>
    obtain ⟨b, p', hb, hrest⟩ := bind_eq_ok.1 h
    obtain ⟨hlt, hp', hend⟩ := readBits_ok_bounds (by omega) hb
    have hshift : b <<< (8 * k) < 2 ^ (8 * (k + 1)) := by
      rw [Nat.shiftLeft_eq, show 8 * (k + 1) = 8 + 8 * k by omega, Nat.pow_add]
      exact Nat.mul_lt_mul_of_pos_right hlt (Nat.two_pow_pos _)
    have hwide : v < 2 ^ (8 * (k + 1)) := Nat.lt_of_lt_of_le hv (Nat.pow_le_pow_right Nat.two_pos (by omega))
    obtain ⟨hw, hq, hq'⟩ := ih (Nat.or_lt_two_pow hwide hshift) hrest
    refine ⟨by rwa [show k + (n + 1) = k + 1 + n by omega], by omega, fun _ => ?_⟩
    by_cases h0 : n = 0
    · omega
    · exact hq' h0

/-- A preamble field that completes has a value of its width, and its bits are bits that `IN` has, in either order. -/
theorem readField_ok_bounds {src : Source} {order : FieldOrder} {w : FieldWidth} {p v q : Nat}
    (h : readField src order w p = .ok v q) : v < 2 ^ w.bits ∧ q = p + w.bits ∧ q ≤ 8 * src.len := by
  have low {n : Nat} (hn : n ≠ 0) (h : readBytesLow src 0 n 0 p = .ok v q) :
      v < 2 ^ (8 * n) ∧ q = p + 8 * n ∧ q ≤ 8 * src.len := by
    obtain ⟨hv, hq, hend⟩ := readBytesLow_ok_bounds (by decide) h
    exact ⟨by simpa using hv, hq, hend hn⟩
  cases w with
  | w8 => exact readBits_ok_bounds (by decide) h
  | w16 =>
    cases order with
    | msbFirst => exact readBits_ok_bounds (by decide) h
    | lsbByteFirst => exact low (by decide) h
  | w32 =>
    cases order with
    | msbFirst =>
      obtain ⟨hi, p1, hhi, hrest⟩ := bind_eq_ok.1 h
      obtain ⟨lo, p2, hlo, hend⟩ := bind_eq_ok.1 hrest
      obtain ⟨vhi, qhi, _⟩ := readBits_ok_bounds (by decide) hhi
      obtain ⟨vlo, qlo, endlo⟩ := readBits_ok_bounds (by decide) hlo
      cases hend
      refine ⟨Nat.or_lt_two_pow ?_ ?_, ?_, endlo⟩
      · simp only [FieldWidth.bits, Nat.shiftLeft_eq]
        omega
      · simp only [FieldWidth.bits]
        omega
      · simp only [FieldWidth.bits]
        omega
    | lsbByteFirst => exact low (by decide) h

/-- The entry count and an index have at most 16 bits (30_encoding.md R79, R80). -/
theorem indexWidth_bits_le (bw : Nat) : (indexWidth bw).bits ≤ 16 := by
  unfold indexWidth
  split <;> decide

/-- A preamble field read at `cur`: its value's width, and `cur` left at or before the end of `IN`. -/
theorem readPreamble_ok_bounds {w : FieldWidth} {s u : State} {v : Nat} (h : readPreamble w s = .ok v u) :
    v < 2 ^ w.bits ∧ ∃ p, u = s.moveTo p ∧ p ≤ 8 * s.inLen := by
  obtain ⟨p, hread, rfl⟩ := readStream_eq_ok.1 h
  obtain ⟨hv, _, hp⟩ := readField_ok_bounds hread
  exact ⟨hv, p, rfl, hp⟩

/-- An index leaves the cursor inside `IN`: the identity form reads nothing. -/
theorem readIndex_ok_bounds {indexed : Bool} {bw k v : Nat} {s u : State} (hs : s.position ≤ 8 * s.inLen)
    (h : readIndex indexed bw k s = .ok v u) : ∃ p, u = s.moveTo p ∧ p ≤ 8 * s.inLen := by
  cases indexed with
  | false =>
    cases h
    exact ⟨s.position, (State.moveTo_position_self s).symm, hs⟩
  | true => exact (readPreamble_ok_bounds h).2

/-- A fill loop that completes leaves the cursor inside `IN`. -/
theorem fillLoop_ok_position {f bw : Nat} {indexed : Bool} {n k : Nat} {s u : State}
    (hs : s.position ≤ 8 * s.inLen) (h : fillLoop f bw indexed k n s = .ok () u) :
    u.position ≤ 8 * u.inLen := by
  induction n generalizing k s with
  | zero =>
    cases h
    exact hs
  | succ n ih =>
    obtain ⟨idx, s1, hidx, h⟩ := bind_eq_ok.1 h
    obtain ⟨p, rfl, _⟩ := readIndex_ok_bounds hs hidx
    split at h
    · cases h
    · obtain ⟨w, s2, hw, h⟩ := bind_eq_ok.1 h
      obtain ⟨_, q, rfl, hq⟩ := readPreamble_ok_bounds hw
      exact ih (by simpa [State.storeWeight] using hq) h

/-! ### Instructions -/

theorem consumeBit_ok_le {src : Source} {p q : Nat} {b : Bool} (h : consumeBit src p = .ok b q) :
    q ≤ 8 * src.len := by
  obtain ⟨v, p', hv, hend⟩ := bind_eq_ok.1 h
  cases hend
  obtain ⟨_, _, hle⟩ := readBits_ok_bounds (by decide) hv
  exact hle

/-- A walk ends inside `IN`: at its start, or behind a bit it read. -/
theorem CodeTable.walk_ok_le {t : CodeTable} {src : Source} {n node p v q : Nat} (hp : p ≤ 8 * src.len)
    (h : t.walk src n node p = .ok v q) : q ≤ 8 * src.len := by
  induction n generalizing node p with
  | zero =>
    simp only [CodeTable.walk] at h
    split at h <;> cases h
    exact hp
  | succ n ih =>
    rw [CodeTable.walk, ite_run] at h
    split at h
    · cases h
      exact hp
    · obtain ⟨b, p', hb, h⟩ := bind_eq_ok.1 h
      cases hc : t.child node b with
      | none =>
        rw [hc] at h
        cases h
      | some c =>
        rw [hc] at h
        exact ih (consumeBit_ok_le hb) h

theorem CodeTable.decodeSymbol_ok_le {t : CodeTable} {src : Source} {p v q : Nat} (hp : p ≤ 8 * src.len)
    (h : t.decodeSymbol src p = .ok v q) : q ≤ 8 * src.len := by
  unfold CodeTable.decodeSymbol at h
  split at h
  · cases h
  · exact CodeTable.walk_ok_le hp h

/-- A decoded instruction ends inside `IN`, a `LIT` with its literal bytes, which are `X + 1` at most. -/
theorem decodeInstr_ok_bounds {t : CodeTable} {lbc : Nat} {src : Source} {p q : Nat} {i : Instr}
    (h : decodeInstr t lbc src p = .ok i q) :
    q ≤ 8 * src.len ∧ ∀ x bytes, i = .lit x bytes → bytes.length ≤ x + 1 ∧ q + 8 * bytes.length ≤ 8 * src.len := by
  obtain ⟨sel, p0, _, h⟩ := bind_eq_ok.1 h
  obtain ⟨b, p1, hb, h⟩ := bind_eq_ok.1 h
  obtain ⟨x, p2, hx, h⟩ := bind_eq_ok.1 h
  have hp2 : p2 ≤ 8 * src.len := CodeTable.decodeSymbol_ok_le (consumeBit_ok_le hb) hx
  cases sel with
  | true =>
    obtain ⟨high, p3, hhigh, h⟩ := bind_eq_ok.1 h
    obtain ⟨low, p4, hlow, h⟩ := bind_eq_ok.1 h
    obtain ⟨rfl, _, hend, _⟩ := readBits_ok_holds hlow (CodeTable.decodeSymbol_ok_le hp2 hhigh)
    cases h
    exact ⟨by simpa using hend, nofun⟩
  | false =>
    change decodeLiterals src x p2 = _ at h
    unfold decodeLiterals at h
    split at h <;> cases h
    rename_i bytes hbytes
    obtain ⟨hlen, hend, _⟩ := literalBytes_ok hp2 hbytes
    refine ⟨hp2, fun x' bytes' heq => ?_⟩
    cases heq
    exact ⟨hlen, by simpa using hend⟩

end Sys2Proof.Machine
end

section
/-! PROOFS. The merge stage from any arena (42_table_builder.md R147 to R150, 10_state.md R34): its nodes are a full
tree, it ends at `2F - 1` at the latest, and it writes no entry from there on. -/

namespace Sys2Proof.Machine

/-! ### The fields a merge leaves -/

@[simp] theorem Arena.cl_setBv (t : Arena) (i j : Nat) (b : Bool) : (t.setBv i b).cl j = t.cl j := by
  by_cases h : j = i
  · subst h
    simp [Arena.cl]
  · simp [Arena.cl, Arena.get_setBv_other _ _ _ _ h]

@[simp] theorem Arena.ch_setBv (t : Arena) (i j : Nat) (b : Bool) : (t.setBv i b).ch j = t.ch j := by
  by_cases h : j = i
  · subst h
    simp [Arena.ch]
  · simp [Arena.ch, Arena.get_setBv_other _ _ _ _ h]

@[simp] theorem Arena.ov_setBv (t : Arena) (i j : Nat) (b : Bool) : (t.setBv i b).ov j = t.ov j := by
  by_cases h : j = i
  · subst h
    simp [Arena.ov]
  · simp [Arena.ov, Arena.get_setBv_other _ _ _ _ h]

theorem Arena.bv_setBv (t : Arena) (i j : Nat) (b : Bool) :
    (t.setBv i b).bv j = if j = i then some b else t.bv j := by
  split
  · rename_i h
    subst h
    simp [Arena.bv]
  · rename_i h
    simp [Arena.bv, Arena.get_setBv_other _ _ _ _ h]

@[simp] theorem Arena.bv_setNode (t : Arena) (i j : Nat) (w : Word32) (lo hi : Nat) :
    (t.setNode i w lo hi).bv j = t.bv j := by
  by_cases h : j = i
  · subst h
    simp [Arena.bv]
  · simp [Arena.bv, Arena.get_setNode_other _ _ _ _ _ _ h]

section Merge

variable {t : Arena} {c a b : Nat}

theorem mergeNode_bv (i : Nat) :
    (mergeNode t c a b).bv i = if i = b then some false else if i = a then some true else t.bv i := by
  simp only [mergeNode, Arena.bv_setNode, Arena.bv_setBv]

theorem mergeNode_cl_new : (mergeNode t c a b).cl c = some a := by
  simp [mergeNode, Arena.cl]

theorem mergeNode_ch_new : (mergeNode t c a b).ch c = some b := by
  simp [mergeNode, Arena.ch]

theorem mergeNode_cl_other {n : Nat} (h : n ≠ c) : (mergeNode t c a b).cl n = t.cl n := by
  rw [mergeNode, Arena.cl, Arena.get_setNode_other _ _ _ _ _ _ h]
  exact (Arena.cl_setBv ..).trans (Arena.cl_setBv ..)

theorem mergeNode_ch_other {n : Nat} (h : n ≠ c) : (mergeNode t c a b).ch n = t.ch n := by
  rw [mergeNode, Arena.ch, Arena.get_setNode_other _ _ _ _ _ _ h]
  exact (Arena.ch_setBv ..).trans (Arena.ch_setBv ..)

theorem mergeNode_ov_other {n : Nat} (h : n ≠ c) : (mergeNode t c a b).ov n = t.ov n := by
  rw [mergeNode, Arena.ov, Arena.get_setNode_other _ _ _ _ _ _ h]
  exact (Arena.ov_setBv ..).trans (Arena.ov_setBv ..)

end Merge

/-! ### What a scan finds -/

/-- One slot scanned: the choice stays, or the slot, which is eligible, takes the first or the second place beside the
first one's holder. -/
theorem scanSlot_cases (t : Arena) (best : Option Nat × Option Nat) (i : Nat) :
    scanSlot t best i = best ∨
      t.eligible i = true ∧ (scanSlot t best i = (some i, best.1) ∨ scanSlot t best i = (best.1, some i)) := by
  by_cases he : t.eligible i = true
  · obtain ⟨first, second⟩ := best
    cases first with
    | none => exact Or.inr ⟨he, Or.inl (by simp [scanSlot, he])⟩
    | some a =>
      by_cases hlt : t.ov i < t.ov a
      · exact Or.inr ⟨he, Or.inl (by simp [scanSlot, he, hlt])⟩
      · cases second with
        | none => exact Or.inr ⟨he, Or.inr (by simp [scanSlot, he, hlt])⟩
        | some b =>
          by_cases hlt' : t.ov i < t.ov b
          · exact Or.inr ⟨he, Or.inr (by simp [scanSlot, he, hlt, hlt'])⟩
          · exact Or.inl (by simp [scanSlot, he, hlt, hlt'])
  · exact Or.inl (scanSlot_of_not_eligible he)

/-- The slots that a scan below `n` may choose: different ones, eligible, below `n`. -/
structure ScanFound (t : Arena) (n : Nat) (best : Option Nat × Option Nat) : Prop where
  first : ∀ a, best.1 = some a → a < n ∧ t.eligible a = true
  second : ∀ b, best.2 = some b → b < n ∧ t.eligible b = true
  different : ∀ a b, best.1 = some a → best.2 = some b → a ≠ b

theorem twoSmallest_found (t : Arena) (n : Nat) : ScanFound t n (twoSmallest t n) := by
  induction n with
  | zero => exact ⟨nofun, nofun, nofun⟩
  | succ n ih =>
    have hfirst : ∀ a, (twoSmallest t n).1 = some a → a < n + 1 ∧ t.eligible a = true :=
      fun a ha => ⟨Nat.lt_succ_of_lt (ih.first a ha).1, (ih.first a ha).2⟩
    rw [twoSmallest_succ]
    rcases scanSlot_cases t (twoSmallest t n) n with h | ⟨he, h | h⟩
    · rw [h]
      exact ⟨hfirst, fun b hb => ⟨Nat.lt_succ_of_lt (ih.second b hb).1, (ih.second b hb).2⟩, ih.different⟩
    · rw [h]
      refine ⟨fun a ha => ?_, hfirst, fun a b ha hb => ?_⟩
      · cases ha
        exact ⟨Nat.lt_succ_self n, he⟩
      · cases ha
        exact Nat.ne_of_gt (ih.first b hb).1
    · rw [h]
      refine ⟨hfirst, fun b hb => ?_, fun a b ha hb => ?_⟩
      · cases hb
        exact ⟨Nat.lt_succ_self n, he⟩
      · cases hb
        exact Nat.ne_of_lt (ih.first a ha).1

/-! ### A merge grows the tree -/

theorem CodeTable.Tree.of_start_le {t : CodeTable} (h : t.start ≤ t.firstReal) : t.Tree :=
  ⟨fun _ h1 h2 => by omega, fun _ _ _ h1 h2 => by omega⟩

/-- A child of a node has its bit value. -/
theorem CodeTable.Tree.bv_of_isChild {t : CodeTable} (ht : t.Tree) {n x : Nat} (h1 : t.firstReal ≤ n)
    (h2 : n < t.start) (hx : t.IsChild n x) : t.arena.bv x ≠ none := by
  obtain ⟨lo, hi, hlo, hhi, _, _, blo, bhi⟩ := ht.links n h1 h2
  rcases hx with hx | hx
  · cases hlo.symm.trans hx
    simp [blo]
  · cases hhi.symm.trans hx
    simp [bhi]

section Grow

variable {t : Arena} {f c a b : Nat}

/-- A bit value once set stays, since a merge sets those of eligible slots alone. -/
theorem mergeNode_bv_of_some {i : Nat} {x : Bool} (ha : t.bv a = none) (hb : t.bv b = none) (hi : t.bv i = some x) :
    (mergeNode t c a b).bv i = some x := by
  have hia : i ≠ a := fun h => by simp [h, ha] at hi
  have hib : i ≠ b := fun h => by simp [h, hb] at hi
  rw [mergeNode_bv, if_neg hib, if_neg hia, hi]

theorem isChild_mergeNode_new {st x : Nat} :
    CodeTable.IsChild ⟨mergeNode t c a b, st, f⟩ c x ↔ x = a ∨ x = b := by
  simp only [CodeTable.IsChild, mergeNode_cl_new, mergeNode_ch_new, Option.some.injEq, eq_comm]

theorem isChild_mergeNode_other {st st' n x : Nat} (h : n ≠ c) :
    CodeTable.IsChild ⟨mergeNode t c a b, st, f⟩ n x ↔ CodeTable.IsChild ⟨t, st', f⟩ n x := by
  simp only [CodeTable.IsChild, mergeNode_cl_other h, mergeNode_ch_other h]

/-- Joining two different slots without a bit value under the next node keeps the tree: the slots had no parent, since
a child has a bit value. -/
theorem CodeTable.Tree.mergeNode (ht : CodeTable.Tree ⟨t, c, f⟩) (hab : a ≠ b) (hac : a < c) (hbc : b < c)
    (ha : t.bv a = none) (hb : t.bv b = none) : CodeTable.Tree ⟨mergeNode t c a b, c + 1, f⟩ where
  links n h1 h2 := by
    by_cases hn : n = c
    · subst hn
      refine ⟨a, b, mergeNode_cl_new, mergeNode_ch_new, hac, hbc, ?_, ?_⟩
      · rw [mergeNode_bv, if_neg hab, if_pos rfl]
      · rw [mergeNode_bv, if_pos rfl]
    · obtain ⟨lo, hi, hlo, hhi, llo, lhi, blo, bhi⟩ := ht.links n h1 (Nat.lt_of_le_of_ne (Nat.le_of_lt_succ h2) hn)
      exact ⟨lo, hi, (mergeNode_cl_other hn).trans hlo, (mergeNode_ch_other hn).trans hhi, llo, lhi,
        mergeNode_bv_of_some ha hb blo, mergeNode_bv_of_some ha hb bhi⟩
  parent n m x h1 h2 h3 h4 hn hm := by
    have old {k : Nat} (hk : f ≤ k) (hk' : k < c + 1) (hkc : k ≠ c)
        (hx : CodeTable.IsChild ⟨Machine.mergeNode t c a b, c + 1, f⟩ k x) : t.bv x ≠ none :=
      ht.bv_of_isChild hk (Nat.lt_of_le_of_ne (Nat.le_of_lt_succ hk') hkc) ((isChild_mergeNode_other hkc).1 hx)
    have new {k : Nat} (hkc : k = c) (hx : CodeTable.IsChild ⟨Machine.mergeNode t c a b, c + 1, f⟩ k x) :
        t.bv x = none := by
      subst hkc
      rcases isChild_mergeNode_new.1 hx with rfl | rfl
      · exact ha
      · exact hb
    by_cases hnc : n = c <;> by_cases hmc : m = c
    · exact hnc.trans hmc.symm
    · exact absurd (new hnc hn) (old h3 h4 hmc hm)
    · exact absurd (new hmc hm) (old h1 h2 hnc hn)
    · exact ht.parent n m x h1 (Nat.lt_of_le_of_ne (Nat.le_of_lt_succ h2) hnc) h3
        (Nat.lt_of_le_of_ne (Nat.le_of_lt_succ h4) hmc) ((isChild_mergeNode_other hnc).1 hn)
        ((isChild_mergeNode_other hmc).1 hm)

end Grow

/-! ### A merge leaves one eligible slot fewer -/

/-- How many slots below `n` are eligible (42_table_builder.md R146). -/
def eligibleCount (t : Arena) (n : Nat) : Nat :=
  (List.range n).countP t.eligible

theorem eligibleCount_succ (t : Arena) (n : Nat) :
    eligibleCount t (n + 1) = eligibleCount t n + if t.eligible n = true then 1 else 0 := by
  simp only [eligibleCount, List.range_succ, List.countP_append, List.countP_singleton]

theorem eligibleCount_le (t : Arena) (n : Nat) : eligibleCount t n ≤ n := by
  have h := List.countP_le_length (p := t.eligible) (l := List.range n)
  rwa [List.length_range] at h

theorem eligibleCount_congr {t u : Arena} {n : Nat} (h : ∀ i < n, t.eligible i = u.eligible i) :
    eligibleCount t n = eligibleCount u n :=
  List.countP_congr fun i hi => by rw [h i (List.mem_range.1 hi)]

section Count

variable {t : Arena} {c a b : Nat} {x : Bool}

theorem eligible_setBv_same : (t.setBv a x).eligible a = false := by
  simp only [Arena.eligible, Arena.bv_setBv, if_pos, Bool.and_eq_false_iff]
  exact Or.inr rfl

theorem eligible_setBv_other {i : Nat} (h : i ≠ a) : (t.setBv a x).eligible i = t.eligible i := by
  simp only [Arena.eligible, Arena.ov_setBv, Arena.bv_setBv, if_neg h]

/-- An eligible slot that gets a bit value is one eligible slot fewer. -/
theorem eligibleCount_setBv {n : Nat} (ha : a < n) (he : t.eligible a = true) :
    eligibleCount (t.setBv a x) n + 1 = eligibleCount t n := by
  induction n with
  | zero => exact absurd ha (Nat.not_lt_zero a)
  | succ n ih =>
    rw [eligibleCount_succ, eligibleCount_succ]
    by_cases han : a = n
    · subst han
      rw [eligible_setBv_same, he, eligibleCount_congr fun i hi => eligible_setBv_other (Nat.ne_of_lt hi)]
      rfl
    · rw [eligible_setBv_other (Ne.symm han), ← ih (by omega)]
      omega

theorem eligible_mergeNode_old {i : Nat} (h : i ≠ c) :
    (mergeNode t c a b).eligible i = ((t.setBv a true).setBv b false).eligible i := by
  simp only [Arena.eligible, mergeNode_ov_other h, Arena.ov_setBv, mergeNode_bv, Arena.bv_setBv]

/-- A merge takes two eligible slots and adds at most the new node. -/
theorem eligibleCount_mergeNode (hab : a ≠ b) (hac : a < c) (hbc : b < c) (ha : t.eligible a = true)
    (hb : t.eligible b = true) :
    eligibleCount (mergeNode t c a b) (c + 1) + 1 ≤ eligibleCount t c ∧ 2 ≤ eligibleCount t c := by
  have hb' : (t.setBv a true).eligible b = true := (eligible_setBv_other (Ne.symm hab)).trans hb
  have hlow := eligibleCount_setBv (x := true) hac ha
  have hhigh := eligibleCount_setBv (x := false) hbc hb'
  have hold := eligibleCount_congr (n := c) fun i hi =>
    eligible_mergeNode_old (t := t) (a := a) (b := b) (Nat.ne_of_lt hi)
  have hnew : (if (mergeNode t c a b).eligible c = true then 1 else 0) ≤ 1 := by split <;> decide
  rw [eligibleCount_succ]
  omega

end Count

/-! ### The loop -/

/-- What holds before every round of the merge stage that began with the arena `t0`: the nodes made so far are a tree,
each of them cost one eligible slot, and no entry from `c` on was written. -/
structure MergeInv (f : Nat) (t0 t : Arena) (c : Nat) : Prop where
  first : f ≤ c
  last : c ≤ 2 * f - 1
  count : eligibleCount t c + c ≤ 2 * f
  tree : CodeTable.Tree ⟨t, c, f⟩
  frame : ∀ i, c ≤ i → Arena.get t i = Arena.get t0 i

theorem MergeInv.init {f : Nat} (hf : 1 ≤ f) (t : Arena) : MergeInv f t t f where
  first := Nat.le_refl f
  last := by omega
  count := by
    have := eligibleCount_le t f
    omega
  tree := .of_start_le (Nat.le_refl f)
  frame _ _ := rfl

/-- A round that merges keeps it. -/
theorem MergeInv.merge {f c a b : Nat} {t0 t : Arena} (h : MergeInv f t0 t c)
    (hs : twoSmallest t c = (some a, some b)) : MergeInv f t0 (mergeNode t c a b) (c + 1) := by
  have hfound := twoSmallest_found t c
  rw [hs] at hfound
  obtain ⟨hac, hae⟩ := hfound.first a rfl
  obtain ⟨hbc, hbe⟩ := hfound.second b rfl
  have hab := hfound.different a b rfl rfl
  obtain ⟨hless, htwo⟩ := eligibleCount_mergeNode hab hac hbc hae hbe
  have hcount := h.count
  exact {
    first := Nat.le_succ_of_le h.first
    last := by omega
    count := by omega
    tree := h.tree.mergeNode hab hac hbc ((Arena.eligible_iff ..).1 hae).2 ((Arena.eligible_iff ..).1 hbe).2
    frame := fun i hi => (mergeNode_get_other (by omega) (by omega) (by omega)).trans (h.frame i (by omega)) }

/-- The lone slot's bit value, set when no node was made, keeps it. -/
theorem MergeInv.setLone {f c a : Nat} {t0 t : Arena} (h : MergeInv f t0 t c) (hc : c ≤ f) (ha : a < c) :
    MergeInv f t0 (t.setBv a true) c where
  first := h.first
  last := h.last
  count := by
    have := eligibleCount_le (t.setBv a true) c
    omega
  tree := .of_start_le hc
  frame i hi := (Arena.get_setBv_other _ _ _ _ (by omega)).trans (h.frame i hi)

theorem mergeLoop_keeps_mergeInv {f : Nat} {t0 : Arena} (n : Nat) {t : Arena} {c : Nat} (h : MergeInv f t0 t c) :
    MergeInv f t0 (mergeLoop f n t c).1 (mergeLoop f n t c).2 := by
  induction n generalizing t c with
  | zero => exact h
  | succ n ih =>
    rw [mergeLoop]
    split
    · rename_i hs
      exact ih (h.merge hs)
    · rename_i a hs
      have hfound := twoSmallest_found t c
      rw [hs] at hfound
      dsimp only
      split
      · rename_i hc
        exact h.setLone hc (hfound.first a rfl).1
      · exact h
    · exact h

theorem mergeStage_mergeInv {f : Nat} (hf : 1 ≤ f) (t : Arena) :
    MergeInv f t (mergeStage f t).1 (mergeStage f t).2 :=
  mergeLoop_keeps_mergeInv (f + 1) (MergeInv.init hf t)

end Sys2Proof.Machine
end

section
/-! PROOFS. What one step can do, in any state and phase (10_state.md R21): one constructor per way a step goes on. -/

namespace Sys2Proof.Machine

/-! ### What an instruction does to the output -/

/-- What an instruction can change while it runs: `cur`, `OUT` and `pos`, the output staying exact and canonical
(10_state.md R30, R33). -/
structure Produces (s u : State) : Prop where
  frame : u = { s with cur := u.cur, out := u.out, pos := u.pos }
  covers : s.OutputExact → u.OutputExact
  wf : Memory.wf s.out = true → Memory.wf u.out = true

theorem Produces.refl (s : State) : Produces s s := ⟨rfl, id, id⟩

theorem Produces.trans {s u v : State} (h : Produces s u) (h' : Produces u v) : Produces s v where
  frame := by
    have hv := h'.frame
    rw [h.frame] at hv
    exact hv
  covers hs := h'.covers (h.covers hs)
  wf hs := h'.wf (h.wf hs)

theorem Produces.moveTo (s : State) (p : Nat) : Produces s (s.moveTo p) := ⟨rfl, id, id⟩

theorem Produces.pushByte (s : State) (b : Byte) : Produces s (s.pushByte b) :=
  ⟨rfl, fun hs => Memory.Covers.write hs b, fun hs => Memory.wf_write _ _ b hs⟩

theorem Produces.exists_eq {s u : State} (h : Produces s u) :
    ∃ cur out pos, u = { s with cur := cur, out := out, pos := pos } :=
  ⟨_, _, _, h.frame⟩

theorem Produces.foldl_putLiteral (bytes : List Byte) (s : State) :
    Produces s (bytes.foldl State.putLiteral s) := by
  induction bytes generalizing s with
  | nil => exact .refl s
  | cons b bytes ih => exact ((Produces.moveTo s (s.position + 8)).trans (.pushByte _ b)).trans (ih _)

theorem copyBytes_produces {dist n : Nat} {s u : State} (h : copyBytes dist n s = .ok () u) : Produces s u := by
  induction n generalizing s with
  | zero =>
    cases h
    exact .refl _
  | succ n ih =>
    rw [copyBytes, get_bind_run] at h
    obtain ⟨b, s', hread, hrest⟩ := bind_eq_ok.1 h
    obtain ⟨_, _, rfl⟩ := memReadOut_eq_ok.1 hread
    exact (Produces.pushByte s' b).trans (ih hrest)

/-! ### The two instructions -/

/-- A step that begins with a register read goes on only where the register holds a value. -/
theorem settle_readReg_bind {α β : Type} {r : RegName} {get : State → Option α} {f : α → Engine β} {s t : State}
    (h : settle ((readReg r get >>= f) s) = .next t) : ∃ v, get s = some v ∧ settle (f v s) = .next t := by
  cases hv : get s with
  | none =>
    rw [bind_of_error (readReg_eq_error.2 ⟨hv, rfl, rfl⟩)] at h
    cases h
  | some v =>
    rw [bind_of_ok (readReg_some hv)] at h
    exact ⟨v, rfl, h⟩

/-- A `LIT` that goes on fails with the bytes it put, or puts all of its bytes and stays within `declen`. -/
theorem execLit_next {x : Nat} {bytes : List Byte} {s t : State} (h : execLit x bytes s = .next t) :
    (∃ u i, Produces s u ∧ t = u.takeFault i) ∨
    ∃ d, s.declen = some d ∧ Produces s t ∧ t.pos ≤ d.toNat ∧ x + 1 ≤ bytes.length ∧
      t.position = s.position + 8 * (x + 1) := by
  rw [execLit, literalRun] at h
  obtain ⟨d, hd, h⟩ := settle_readReg_bind h
  rw [get_bind_run] at h
  split at h
  · cases h
    exact Or.inl ⟨s, _, .refl s, rfl⟩
  · rename_i hroom
    by_cases hlen : x + 1 ≤ bytes.length
    · rw [literalLength, putLiterals_enough _ _ _ hlen, settle_ok] at h
      cases h
      have hput := foldl_putLiteral_eq (bytes.take (x + 1)) s
      rw [List.length_take_of_le hlen] at hput
      refine Or.inr ⟨d, hd, .foldl_putLiteral _ s, ?_, hlen, ?_⟩
      · rw [hput]
        exact Nat.le_of_not_lt hroom
      · rw [hput]
        exact Cursor.position_ofPosition _
    · rw [literalLength, putLiterals_short _ _ _ (by omega), settle_raised] at h
      cases h
      exact Or.inl ⟨_, _, .foldl_putLiteral bytes s, rfl⟩

/-- A `BREF` that goes on fails before it copies, or copies its bytes, stays within `declen` and leaves the cursor. -/
theorem execBref_next {x high low : Nat} {s t : State} (h : execBref x high low s = .next t) :
    (∃ i, t = s.takeFault i) ∨
    ∃ d, s.declen = some d ∧ Produces s t ∧ t.pos ≤ d.toNat ∧ t.position = s.position := by
  rw [execBref, backrefCopy] at h
  obtain ⟨base, _, h⟩ := settle_readReg_bind h
  obtain ⟨lbc, _, h⟩ := settle_readReg_bind h
  rw [get_bind_run] at h
  split at h
  · cases h
    exact Or.inl ⟨_, rfl⟩
  obtain ⟨d, hd, h⟩ := settle_readReg_bind h
  split at h
  · cases h
    exact Or.inl ⟨_, rfl⟩
  · rename_i hroom
    rcases copyBytes_cases (backrefDistance high low lbc base) (backrefCount x base) s with
      ⟨u, hcopy, hu, _⟩ | ⟨a, u, hstop⟩
    · rw [hcopy] at h
      cases h
      refine Or.inr ⟨d, hd, copyBytes_produces hcopy, ?_, ?_⟩
      · rw [hu]
        exact Nat.le_of_not_lt hroom
      · rw [hu]
        rfl
    · rw [hstop] at h
      cases h

/-- A step in the loop leaves it, fails, or runs an instruction that keeps `pos` within `declen` and `cur` within
`IN`. -/
theorem decodeLoopStep_next_bounds {s t : State} (h : decodeLoopStep s = .next t) :
    t = s.withPhase .verifyChecksum ∨
    (∃ u i, Produces s u ∧ t = u.takeFault i) ∨
    ∃ d, s.declen = some d ∧ Produces s t ∧ t.pos ≤ d.toNat ∧ t.position ≤ 8 * s.inLen := by
  rcases decodeLoopStep_next h with ⟨_, _, rfl⟩ | ⟨d, st, f, hd, _, _, _, _, ⟨i, p, hdec, hexec⟩ | ⟨i, p, _, rfl⟩⟩
  · exact Or.inl rfl
  · obtain ⟨hp, hbytes⟩ := decodeInstr_ok_bounds hdec
    cases i with
    | lit x bytes =>
      obtain ⟨hlen, hend⟩ := hbytes x bytes rfl
      rcases execLit_next hexec with ⟨u, i, hu, rfl⟩ | ⟨d', hd', ht, hpos, hall, hcur⟩
      · exact Or.inr (Or.inl ⟨u, i, (Produces.moveTo s p).trans hu, rfl⟩)
      · refine Or.inr (Or.inr ⟨d', hd', (Produces.moveTo s p).trans ht, hpos, ?_⟩)
        have hend' : p + 8 * bytes.length ≤ 8 * s.inLen := hend
        rw [hcur, State.position_moveTo]
        omega
    | bref x high low =>
      rcases execBref_next hexec with ⟨i, rfl⟩ | ⟨d', hd', ht, hpos, hcur⟩
      · exact Or.inr (Or.inl ⟨_, i, .moveTo s p, rfl⟩)
      · refine Or.inr (Or.inr ⟨d', hd', (Produces.moveTo s p).trans ht, hpos, ?_⟩)
        rw [hcur, State.position_moveTo]
        exact hp
  · exact Or.inr (Or.inl ⟨_, i, .moveTo s p, rfl⟩)

/-! ### The table -/

theorem entriesToFill_eq_or (f raw : Nat) : entriesToFill f raw = f ∨ entriesToFill f raw = raw := by
  unfold entriesToFill
  split
  · exact Or.inl rfl
  · exact Or.inr rfl

/-- `BuildTable` that completes: the count it read has at most 16 bits, and the preamble ends inside `IN`. -/
theorem buildTable_ok {s t : State} (hok : buildTable s = .ok () t) :
    ∃ f e x u, s.firstReal = some f ∧ (e = f ∨ e < 2 ^ 16) ∧ FillStep f (s.withPreamble e x) u ∧
      u.position ≤ 8 * s.inLen ∧ t = u.mergeTable f := by
  obtain ⟨bw, s1, hbw, hread⟩ := bind_eq_ok.1 hok
  obtain ⟨_, rfl⟩ := readReg_eq_ok.1 hbw
  obtain ⟨raw, s2, hraw, hregs⟩ := bind_eq_ok.1 hread
  obtain ⟨hlt, p, rfl, hp⟩ := readPreamble_ok_bounds hraw
  obtain ⟨f, s3, hreg, hbuild⟩ := bind_eq_ok.1 hregs
  obtain ⟨hf, rfl⟩ := readReg_eq_ok.1 hreg
  rw [update_bind_run] at hbuild
  split at hbuild
  · cases hbuild
  obtain ⟨_, u, hfill, hend⟩ := bind_eq_ok.1 hbuild
  cases hend
  have hcur := fillLoop_ok_position (by simpa using hp) hfill
  rcases fillLoop_cases (f := f) (bw := bw) (indexed := isIndexed f bw (entriesToFill f raw)) (entriesToFill f raw) 0
    ((s1.moveTo p).withPreamble (entriesToFill f raw) (isIndexed f bw (entriesToFill f raw))) with
    ⟨u', hfill', hstep⟩ | ⟨_, _, herr, _⟩
  · cases hfill'.symm.trans hfill
    refine ⟨f, entriesToFill f raw, isIndexed f bw (entriesToFill f raw), u, hf, ?_,
      ⟨hstep.frame, hstep.high, hstep.wf⟩, ?_, rfl⟩
    · have hle := Nat.pow_le_pow_right Nat.two_pos (indexWidth_bits_le bw)
      exact (entriesToFill_eq_or f raw).imp_right fun he => by omega
    · rw [hstep.frame] at hcur ⊢
      exact hcur
  · cases herr.symm.trans hfill

theorem FillStep.exists_eq {f : Nat} {s u : State} (h : FillStep f s u) :
    ∃ table cur, u = { s with table := table, cur := cur } :=
  ⟨_, _, h.frame⟩

/-! ### The step -/

/-- The ways a step goes on, by the phase it starts in. -/
inductive StepForm (s : State) : State → Prop
  | stays (hphase : s.phase = .idle ∨ s.phase.isFinal = true) : StepForm s s
  | headerFails (hphase : s.phase = .readHeader) (i : FaultInfo) : StepForm s (s.takeFault i)
  | budgetFails (hphase : s.phase = .readHeader) (d : Word32) (c : Word64) (i : FaultInfo) :
      StepForm s ((s.withHeader d c).takeFault i)
  | headerRead (hphase : s.phase = .readHeader) (hlen : minStreamLength ≤ s.inLen) (d : Word32) (c : Word64) :
      StepForm s ((s.withHeader d c).withPhase .readOptions)
  | optionsFail (hphase : s.phase = .readOptions) (raw min ub lbc base : Byte) (i : FaultInfo) :
      StepForm s ((s.withOptions raw min ub lbc base).takeFault i)
  | optionsRead (hphase : s.phase = .readOptions) (raw min ub lbc base : Byte)
      (hvalid : optionsValid raw min ub lbc base = true) :
      StepForm s (((s.withOptions raw min ub lbc base).withDerived (huffBitCount raw min)).withPhase .buildTable)
  | tableFails (hphase : s.phase = .buildTable) (e : Option Nat) (x : Option Bool) (table : Arena) (cur : Cursor)
      (i : FaultInfo) (hwf : Arena.wf s.table = true → Arena.wf table = true) :
      StepForm s (({ s with etf := e, indexed := x, table := table, cur := cur } : State).takeFault i)
  | tableBuilt (hphase : s.phase = .buildTable) (f e : Nat) (x : Bool) (table : Arena) (cur : Cursor)
      (hf : s.firstReal = some f) (he : e = f ∨ e < 2 ^ 16)
      (hfill : FillStep f (s.withPreamble e x) { s.withPreamble e x with table := table, cur := cur })
      (hcur : cur.position ≤ 8 * s.inLen) :
      StepForm s (({ s.withPreamble e x with table := table, cur := cur } : State).mergeTable f)
  | loopLeft (hphase : s.phase = .decodeLoop) : StepForm s (s.withPhase .verifyChecksum)
  | loopFails (hphase : s.phase = .decodeLoop) (cur : Cursor) (out : Memory) (pos : Nat) (i : FaultInfo)
      (hout : Produces s { s with cur := cur, out := out, pos := pos }) :
      StepForm s (({ s with cur := cur, out := out, pos := pos } : State).takeFault i)
  | instrRun (hphase : s.phase = .decodeLoop) (cur : Cursor) (out : Memory) (pos : Nat) (d : Word32)
      (hd : s.declen = some d) (hout : Produces s { s with cur := cur, out := out, pos := pos })
      (hpos : pos ≤ d.toNat) (hcur : cur.position ≤ 8 * s.inLen) :
      StepForm s { s with cur := cur, out := out, pos := pos }
  | checksumMatches (hphase : s.phase = .verifyChecksum) : StepForm s (s.withPhase .done)
  | checksumFails (hphase : s.phase = .verifyChecksum) (i : FaultInfo) : StepForm s (s.takeFault i)

theorem stepForm_readHeader {s t : State} (hphase : s.phase = .readHeader) (h : settle (readHeader s) = .next t) :
    StepForm s t := by
  rcases readHeader_next h with ⟨i, rfl⟩ | ⟨d, c, i, rfl⟩ | ⟨hlen, d, c, rfl⟩
  · exact .headerFails hphase i
  · exact .budgetFails hphase d c i
  · exact .headerRead hphase hlen d c

theorem stepForm_readOptions {s t : State} (hphase : s.phase = .readOptions)
    (h : settle (readOptions s) = .next t) : StepForm s t := by
  obtain ⟨raw, min, ub, lbc, base, ⟨i, rfl⟩ | ⟨hvalid, rfl⟩⟩ := readOptions_next h
  · exact .optionsFail hphase raw min ub lbc base i
  · exact .optionsRead hphase raw min ub lbc base hvalid

theorem stepForm_buildTable {s t : State} (hphase : s.phase = .buildTable) (h : settle (buildTable s) = .next t) :
    StepForm s t := by
  rcases settle_eq_next.1 h with ⟨⟨⟩, hok⟩ | ⟨i, u, _, rfl⟩
  · obtain ⟨f, e, x, u, hf, he, hfill, hcur, rfl⟩ := buildTable_ok hok
    obtain ⟨table, cur, rfl⟩ := hfill.exists_eq
    exact .tableBuilt hphase f e x table cur hf he hfill hcur
  · rcases buildTable_next h with ⟨e, x, table, cur, i', heq, hwf⟩ | ⟨f, _, _, v, _, _, _, heq⟩
    · rw [heq]
      exact .tableFails hphase e x table cur i' hwf
    · exact nomatch (congrArg State.phase heq : Phase.failed = .decodeLoop)

theorem stepForm_decodeLoop {s t : State} (hphase : s.phase = .decodeLoop) (h : decodeLoopStep s = .next t) :
    StepForm s t := by
  rcases decodeLoopStep_next_bounds h with rfl | ⟨u, i, hu, rfl⟩ | ⟨d, hd, ht, hpos, hcur⟩
  · exact .loopLeft hphase
  · obtain ⟨cur, out, pos, rfl⟩ := hu.exists_eq
    exact .loopFails hphase cur out pos i hu
  · obtain ⟨cur, out, pos, rfl⟩ := ht.exists_eq
    exact .instrRun hphase cur out pos d hd ht hpos hcur

theorem stepForm_verifyChecksum {s t : State} (hphase : s.phase = .verifyChecksum)
    (h : settle (verifyChecksum s) = .next t) : StepForm s t := by
  rcases verifyChecksum_next h with rfl | ⟨i, rfl⟩
  · exact .checksumMatches hphase
  · exact .checksumFails hphase i

/-- In `Idle`, `Done` and `Failed` a step changes nothing. -/
theorem step_of_idle_or_final {s : State} (h : s.phase = .idle ∨ s.phase.isFinal = true) : step s = .next s := by
  unfold step
  cases hp : s.phase with
  | idle | done | failed => rfl
  | readHeader | readOptions | buildTable | decodeLoop | verifyChecksum => simp [hp, Phase.isFinal] at h

theorem step_form {s t : State} (h : step s = .next t) : StepForm s t := by
  unfold step at h
  cases hp : s.phase with
  | idle =>
    rw [hp] at h
    cases h
    exact .stays (Or.inl hp)
  | done | failed =>
    rw [hp] at h
    cases h
    exact .stays (Or.inr (by rw [hp]; rfl))
  | readHeader =>
    rw [hp] at h
    exact stepForm_readHeader hp h
  | readOptions =>
    rw [hp] at h
    exact stepForm_readOptions hp h
  | buildTable =>
    rw [hp] at h
    exact stepForm_buildTable hp h
  | decodeLoop =>
    rw [hp] at h
    exact stepForm_decodeLoop hp h
  | verifyChecksum =>
    rw [hp] at h
    exact stepForm_verifyChecksum hp h

end Sys2Proof.Machine
end

section
/-! PROOFS. The statements of 10_state.md: the phases (R21), the fault register (R22), who writes which register (R25 to
R27, R30), the start of a run (R43, R44), the canonical form, and the invariant of a run. -/

namespace Sys2Proof.Machine

/-! ### The phases -/

/-- Settles O42: it is what `step` answers in these phases. -/
theorem noStepLeavesIdleOrAFinalPhase : Obligations.NoStepLeavesIdleOrAFinalPhase :=
  fun _ h => step_of_idle_or_final h

theorem Phase.idle_or_isFinal_iff {p : Phase} :
    p = .idle ∨ p.isFinal = true ↔ p = .idle ∨ p = .done ∨ p = .failed := by
  cases p <;> simp [Phase.isFinal]

theorem StepForm.phase_moves {s t : State} (h : StepForm s t) :
    t.phase = .failed ∨
    (t.phase = s.phase ∧ (s.phase = .idle ∨ s.phase = .decodeLoop ∨ s.phase = .done)) ∨
    (t.phase.rank = s.phase.rank + 1 ∧ s.phase ≠ .idle ∧ s.phase ≠ .done ∧ s.phase ≠ .failed) := by
  cases h with
  | stays hphase =>
    rcases Phase.idle_or_isFinal_iff.1 hphase with hp | hp | hp
    · exact Or.inr (Or.inl ⟨rfl, Or.inl hp⟩)
    · exact Or.inr (Or.inl ⟨rfl, Or.inr (Or.inr hp)⟩)
    · exact Or.inl hp
  | headerFails | budgetFails | optionsFail | tableFails | loopFails | checksumFails => exact Or.inl rfl
  | instrRun hphase => exact Or.inr (Or.inl ⟨rfl, Or.inr (Or.inl hphase)⟩)
  | headerRead hphase | optionsRead hphase | tableBuilt hphase | loopLeft hphase | checksumMatches hphase =>
    refine Or.inr (Or.inr ?_)
    simp [hphase, Phase.rank]

/-- Settles O41, along the ways a step goes on. -/
theorem phaseMovesForwardOnly : Obligations.PhaseMovesForwardOnly :=
  fun _ _ h => (step_form h).phase_moves

/-! ### The fault register -/

/-- A step fails with a fault written, or leaves the fault register as it was and does not enter `Failed`. -/
theorem StepForm.fault_cases {s t : State} (h : StepForm s t) :
    t = s ∨ (∃ k, t.phase = .failed ∧ t.fault = some k) ∨
      (s.phase ≠ .failed ∧ t.phase ≠ .failed ∧ t.fault = s.fault) := by
  cases h with
  | stays => exact Or.inl rfl
  | headerFails | budgetFails | optionsFail | tableFails | loopFails | checksumFails =>
    exact Or.inr (Or.inl ⟨_, rfl, rfl⟩)
  | headerRead hphase | optionsRead hphase | tableBuilt hphase | loopLeft hphase | instrRun hphase
  | checksumMatches hphase =>
    refine Or.inr (Or.inr ?_)
    simp [hphase]

theorem StepForm.failed_iff_fault {s t : State} (h : StepForm s t) (hs : s.phase = .failed ↔ s.fault ≠ none) :
    t.phase = .failed ↔ t.fault ≠ none := by
  rcases h.fault_cases with rfl | ⟨k, hp, hk⟩ | ⟨hsp, hp, hk⟩
  · exact hs
  · simp [hp, hk]
  · rw [hk, ← hs]
    exact iff_of_false hp hsp

theorem hostStart_of_accepts {s : State} (h : s.phase.acceptsStart = true) (bytes : List Byte) (m : Option Nat) :
    s.hostStart bytes m = startState s.cfg bytes m :=
  if_pos h

/-- Settles O40: a faulted state is in `Failed`, which no step leaves, and Start begins with no fault. -/
theorem faultIsWrittenOnceWithFailed : Obligations.FaultIsWrittenOnceWithFailed := by
  intro s hs
  refine ⟨fun t h => ⟨(step_form h).failed_iff_fault hs, fun hfault => ?_, fun ht => ?_⟩, fun bytes m hp => ?_⟩
  · rw [step_of_idle_or_final (Or.inr (by rw [hs.2 hfault]; rfl))] at h
    cases h
    rfl
  · rcases (step_form h).fault_cases with rfl | ⟨_, hp, _⟩ | ⟨_, _, hk⟩
    · rfl
    · exact absurd hp ht
    · exact hk
  · rw [hostStart_of_accepts (by rw [hp]; rfl)]
    rfl

/-! ### Who writes which register -/

/-- Settles O43: each way a step goes on updates the registers of its own phase alone. -/
theorem registersAreWrittenByTheirStepAlone : Obligations.RegistersAreWrittenByTheirStepAlone := by
  intro s t h
  cases step_form h with
  | stays => simp
  | headerFails hphase | budgetFails hphase | headerRead hphase => simp [hphase]
  | optionsFail hphase | optionsRead hphase => simp [hphase]
  | tableFails hphase | tableBuilt hphase => simp [hphase]
  | loopLeft hphase | loopFails hphase | instrRun hphase => simp [hphase]
  | checksumMatches hphase | checksumFails hphase => simp [hphase]

/-! ### The canonical form -/

theorem Arena.wf_mergeStage (f : Nat) {t : Arena} (h : Arena.wf t = true) : Arena.wf (mergeStage f t).1 = true :=
  mergeLoop_wf (f + 1) t f h

/-- Settles O47: `IN` is not written, an instruction keeps the form of `OUT`, filling and merging that of the arena. -/
theorem stepKeepsCanonicalForm : Obligations.StepKeepsCanonicalForm := by
  rintro s t ⟨hin, hout, htable⟩ h
  cases step_form h with
  | stays | headerFails | budgetFails | headerRead | optionsFail | optionsRead | loopLeft | checksumMatches
  | checksumFails => exact ⟨hin, hout, htable⟩
  | tableFails _ _ _ _ _ _ hwf => exact ⟨hin, hout, hwf htable⟩
  | tableBuilt _ f _ _ _ _ _ _ hfill => exact ⟨hin, hout, Arena.wf_mergeStage f (hfill.wf htable)⟩
  | loopFails _ _ _ _ _ hprod | instrRun _ _ _ _ _ _ hprod => exact ⟨hin, hprod.wf hout, htable⟩

/-! ### The start of a run -/

/-- Settles O46: Start makes its state of the parameters, the buffer and the budget alone. -/
theorem runsShareNoState : Obligations.RunsShareNoState := by
  intro s t bytes m n hcfg hs ht
  rw [hostStart_of_accepts hs, hostStart_of_accepts ht, hcfg]

theorem startState_inv {cfg : Config} (h : offsetsInHeader cfg) (bytes : List Byte) (m : Option Nat) :
    (startState cfg bytes m).Inv where
  offsets := h
  input := Memory.covers_ofBytes bytes
  output := rfl
  fault := by simp [startState, State.reset]
  unbuilt _ := ⟨rfl, rfl, rfl⟩
  header := nofun
  options := nofun
  table := nofun

theorem startState_canonical (cfg : Config) (bytes : List Byte) (m : Option Nat) :
    (startState cfg bytes m).Canonical :=
  ⟨Memory.wf_ofBytes bytes, rfl, rfl⟩

/-- Settles O49: the buffer covers its length, and every other part of the state is at its value of R43. -/
theorem startEstablishesInvariant : Obligations.StartEstablishesInvariant := by
  intro s bytes m hoffsets haccepts
  rw [hostStart_of_accepts haccepts]
  exact ⟨startState_inv hoffsets bytes m, startState_canonical s.cfg bytes m⟩

/-! ### The invariant of a run -/

/-- A phase behind `BuildTable` is behind the header and the options too, and is not the failed one. -/
theorem Phase.of_afterTable {p : Phase} (h : p.afterTable = true) :
    p.beforeTable = false ∧ p.afterHeader = true ∧ p.afterOptions = true ∧ p ≠ .failed := by
  cases p with
  | decodeLoop | verifyChecksum | done => exact ⟨rfl, rfl, rfl, nofun⟩
  | idle | readHeader | readOptions | buildTable | failed => cases h

namespace State.Inv

variable {s : State}

theorem fault_eq_none (h : s.Inv) (hphase : s.phase ≠ .failed) : s.fault = none := by
  cases hfault : s.fault with
  | none => rfl
  | some k => exact absurd (h.fault.2 (by rw [hfault]; exact Option.some_ne_none k)) hphase

/-- In `Failed` only the buffers, the parameters and the fault register count. -/
theorem takeFault {u : State} (hoffsets : offsetsInHeader u.cfg) (hinput : u.InputComplete)
    (houtput : u.OutputExact) (i : FaultInfo) : (u.takeFault i).Inv where
  offsets := hoffsets
  input := hinput
  output := houtput
  fault := by simp
  unbuilt := nofun
  header := nofun
  options := nofun
  table := nofun

theorem headerRead (h : s.Inv) (hphase : s.phase = .readHeader) (hlen : minStreamLength ≤ s.inLen) (d : Word32)
    (c : Word64) : ((s.withHeader d c).withPhase .readOptions).Inv := by
  have hunbuilt : s.Unbuilt := h.unbuilt (by rw [hphase]; rfl)
  have ⟨_, hpos, _⟩ := hunbuilt
  exact {
    offsets := h.offsets
    input := h.input
    output := h.output
    fault := by simp [h.fault_eq_none, hphase]
    unbuilt := fun _ => hunbuilt
    header := fun _ => ⟨hlen, d, c, rfl, rfl, by simp [hpos]⟩
    options := nofun
    table := nofun }

theorem optionsRead (h : s.Inv) (hphase : s.phase = .readOptions) {raw min ub lbc base : Byte}
    (hvalid : optionsValid raw min ub lbc base = true) :
    (((s.withOptions raw min ub lbc base).withDerived (huffBitCount raw min)).withPhase .buildTable).Inv where
  offsets := h.offsets
  input := h.input
  output := h.output
  fault := by simp [h.fault_eq_none, hphase]
  unbuilt _ := h.unbuilt (by rw [hphase]; rfl)
  header _ := h.header (by rw [hphase]; rfl)
  options _ := ⟨raw, min, ub, lbc, base, rfl, rfl, rfl, rfl, rfl, hvalid, rfl, rfl, rfl, rfl⟩
  table := nofun

/-- With the options written, `F` is a power of two from 8 to 32768 (10_state.md R26). -/
theorem firstReal_bounds (h : s.OptionsWritten) {f : Nat} (hf : s.firstReal = some f) : 1 ≤ f ∧ f < 2 ^ 16 := by
  obtain ⟨raw, min, ub, lbc, base, _, _, _, _, _, hvalid, _, hf', _⟩ := h
  cases hf.symm.trans hf'
  obtain ⟨_, hhigh⟩ := huffBitCount_range hvalid
  exact ⟨Nat.two_pow_pos _, Nat.pow_lt_pow_right (by decide) (by omega)⟩

/-- The table was empty before the fill, which writes below `F` alone, so the merge stage's facts are the invariant's. -/
theorem tableBuilt (h : s.Inv) (hphase : s.phase = .buildTable) {f e : Nat} {x : Bool} {table : Arena} {cur : Cursor}
    (hf : s.firstReal = some f) (he : e = f ∨ e < 2 ^ 16)
    (hfill : FillStep f (s.withPreamble e x) { s.withPreamble e x with table := table, cur := cur })
    (hcur : cur.position ≤ 8 * s.inLen) :
    (({ s.withPreamble e x with table := table, cur := cur } : State).mergeTable f).Inv := by
  obtain ⟨hempty, _, _⟩ := h.unbuilt (by rw [hphase]; rfl)
  have hoptions : s.OptionsWritten := h.options (by rw [hphase]; rfl)
  obtain ⟨hfpos, hflt⟩ := firstReal_bounds hoptions hf
  have hmerge := mergeStage_mergeInv hfpos table
  have hfresh : ∀ i, 2 * f - 1 ≤ i → Arena.get (mergeStage f table).1 i = freshEntry := by
    intro i hi
    rw [hmerge.frame i (Nat.le_trans hmerge.last hi), show Arena.get table i = Arena.get s.table i from hfill.high i (by omega),
      hempty]
    rfl
  exact {
    offsets := h.offsets
    input := h.input
    output := h.output
    fault := by simp [h.fault_eq_none, hphase]
    unbuilt := nofun
    header := fun _ => h.header (by rw [hphase]; rfl)
    options := fun _ => hoptions
    table := fun _ => ⟨⟨f, e, x, _, hf, rfl, rfl, rfl, by omega, hmerge.first, hmerge.last, hmerge.tree, hfresh⟩,
      hcur⟩ }

theorem instrRun (h : s.Inv) (hphase : s.phase = .decodeLoop) {cur : Cursor} {out : Memory} {pos : Nat} {d : Word32}
    (hd : s.declen = some d) (hout : Produces s { s with cur := cur, out := out, pos := pos }) (hpos : pos ≤ d.toNat)
    (hcur : cur.position ≤ 8 * s.inLen) : State.Inv { s with cur := cur, out := out, pos := pos } := by
  obtain ⟨hlen, _, c, _, hc, _⟩ := h.header (by rw [hphase]; rfl)
  obtain ⟨htable, _⟩ := h.table (by rw [hphase]; rfl)
  exact {
    offsets := h.offsets
    input := h.input
    output := hout.covers h.output
    fault := h.fault
    unbuilt := fun hp => by simp [hphase, Phase.beforeTable] at hp
    header := fun _ => ⟨hlen, d, c, hd, hc, hpos⟩
    options := fun _ => h.options (by rw [hphase]; rfl)
    table := fun _ => ⟨htable, hcur⟩ }

/-- A move between phases behind `BuildTable` keeps everything those phases rely on. -/
theorem withPhase (h : s.Inv) {p : Phase} (hs : s.phase.afterTable = true) (hp : p.afterTable = true) :
    (s.withPhase p).Inv where
  offsets := h.offsets
  input := h.input
  output := h.output
  fault := by
    obtain ⟨_, _, _, hlive⟩ := Phase.of_afterTable hs
    obtain ⟨_, _, _, hlive'⟩ := Phase.of_afterTable hp
    simp [h.fault_eq_none hlive, hlive']
  unbuilt hb := by
    obtain ⟨hnot, _⟩ := Phase.of_afterTable hp
    exact absurd hb (Bool.eq_false_iff.1 hnot)
  header _ := by
    obtain ⟨_, hheader, _⟩ := Phase.of_afterTable hs
    exact h.header hheader
  options _ := by
    obtain ⟨_, _, hoptions, _⟩ := Phase.of_afterTable hs
    exact h.options hoptions
  table _ := h.table hs

end State.Inv

/-- Settles O50, along the ways a step goes on: a fault leaves the buffers as the step made them, and each step that
goes on establishes what the next phase relies on. -/
theorem stepKeepsInvariant : Obligations.StepKeepsInvariant := by
  intro s t hinv h
  cases step_form h with
  | stays => exact hinv
  | headerFails | budgetFails | optionsFail | tableFails | checksumFails =>
    refine .takeFault ?_ ?_ ?_ _
    · exact hinv.offsets
    · exact hinv.input
    · exact hinv.output
  | headerRead hphase hlen d c => exact hinv.headerRead hphase hlen d c
  | optionsRead hphase _ _ _ _ _ hvalid => exact hinv.optionsRead hphase hvalid
  | tableBuilt hphase _ _ _ _ _ hf he hfill hcur => exact hinv.tableBuilt hphase hf he hfill hcur
  | loopLeft hphase => exact hinv.withPhase (by rw [hphase]; rfl) rfl
  | loopFails _ _ _ _ _ hout =>
    refine .takeFault ?_ ?_ (hout.covers hinv.output) _
    · exact hinv.offsets
    · exact hinv.input
  | instrRun hphase _ _ _ _ hd hout hpos hcur => exact hinv.instrRun hphase hd hout hpos hcur
  | checksumMatches hphase => exact hinv.withPhase (by rw [hphase]; rfl) rfl

end Sys2Proof.Machine
end

section
/-! PROOFS. The statements of 20_memory.md: the byte-by-byte copy of `BREF` (R60, with 44_decode_loop.md R187) and the
delivery of `OUT` (R66). -/

namespace Sys2Proof.Machine

/-! ### The copy of a back reference -/

theorem exec_bref (x high low : Nat) (s : State) : exec (.bref x high low) s = execBref x high low s :=
  rfl

/-- With its registers written, its source in the output and room for the copy, `BREF` is its copy loop
(44_decode_loop.md R185, R188). -/
theorem backrefCopy_of_room {x high low : Nat} {s : State} {base lbc : Byte} {d : Word32}
    (hbase : s.optBase = some base) (hlbc : s.optLbc = some lbc) (hd : s.declen = some d)
    (hsource : backrefDistance high low lbc base ≤ s.pos)
    (hroom : s.pos + backrefCount x base ≤ d.toNat) :
    backrefCopy x high low s = copyBytes (backrefDistance high low lbc base) (backrefCount x base) s := by
  rw [backrefCopy, bind_of_ok (show readOptBase s = .ok base s from readReg_some hbase),
    bind_of_ok (show readOptLbc s = .ok lbc s from readReg_some hlbc), get_bind_run, if_neg (Nat.not_lt.2 hsource),
    bind_of_ok (show readDeclen s = .ok d s from readReg_some hd), if_neg (Nat.not_lt.2 hroom)]

/-- With the output exact, a copy from inside it completes: each byte equals the one `dist` before it, every other byte
stays, and only `OUT` and `pos` change. -/
theorem copyBytes_of_outputExact {dist : Nat} {s : State} (n : Nat) (hout : s.OutputExact) (hpos : 1 ≤ dist)
    (hle : dist ≤ s.pos) :
    ∃ t, copyBytes dist n s = .ok () t ∧ t = { s with out := t.out, pos := s.pos + n } ∧
      (∀ k < n, t.out.read (s.pos + k) = t.out.read (s.pos + k - dist)) ∧
      ∀ a, a < s.pos ∨ s.pos + n ≤ a → t.out.read a = s.out.read a := by
  obtain ⟨u, hu⟩ := copyBytes_completes dist n s hpos hle fun _ ha => hout.read_of_lt ha
  rcases copyBytes_cases dist n s with hdone | ⟨a, t, hstop⟩
  · exact hdone
  · rw [hu] at hstop
    cases hstop

/-- A run of bytes from `pos` on, each equal to the one `dist` before it, repeats the last `dist` bytes before `pos`. -/
theorem Memory.read_periodic {m : Memory} {pos dist n : Nat} (hpos : 1 ≤ dist) (hle : dist ≤ pos)
    (hcopy : ∀ k < n, m.read (pos + k) = m.read (pos + k - dist)) {k : Nat} (hk : k < n) :
    m.read (pos + k) = m.read (pos - dist + k % dist) := by
  induction k using Nat.strongRecOn with
  | _ k ih =>
    by_cases hfirst : k < dist
    · rw [hcopy k hk, Nat.mod_eq_of_lt hfirst, Nat.sub_add_comm hle]
    · have hge : dist ≤ k := Nat.le_of_not_lt hfirst
      calc m.read (pos + k)
          = m.read (pos + (k - dist)) := by rw [hcopy k hk, Nat.add_sub_assoc hge]
        _ = m.read (pos - dist + (k - dist) % dist) := ih (k - dist) (by omega) (by omega)
        _ = m.read (pos - dist + k % dist) := by rw [← Nat.mod_eq_sub_mod hge]

/-- Settles O27: the instruction is its copy loop, whose bytes are periodic, and the period's first bytes, those below
`pos`, are the output's as they were. -/
theorem backrefCopiesByteByByte : Obligations.BackrefCopiesByteByByte := by
  intro x high low s base lbc d hbase hlbc hd hout hpos hsource hroom
  obtain ⟨t, hrun, hframe, hcopy, hother⟩ := copyBytes_of_outputExact (backrefCount x base) hout hpos hsource
  refine ⟨t, ?_, hcopy, fun k hk => ?_, hother, hframe⟩
  · rw [exec_bref, execBref, backrefCopy_of_room hbase hlbc hd hsource hroom, hrun, settle_ok]
  · have hmod : k % backrefDistance high low lbc base < backrefDistance high low lbc base := Nat.mod_lt k hpos
    rw [Memory.read_periodic hpos hsource hcopy hk, hother _ (Or.inl (by omega))]

/-! ### The delivery of the output -/

/-- A space that covers `n` reads out as `n` bytes, each the byte at its address. -/
theorem Memory.Covers.readRange_zero {m : Memory} {n : Nat} (h : Memory.Covers m n) :
    ∃ bs, m.readRange 0 n = .ok bs ∧ bs.length = n ∧ ∀ k < n, m.read k = bs[k]? := by
  obtain ⟨bs, hbs⟩ := Memory.readRange_exists (m := m) (a := 0) (n := n) fun k hk => h.read_of_lt (by omega)
  obtain ⟨hlen, hread⟩ := Memory.readRange_ok hbs
  exact ⟨bs, hbs, hlen, fun k hk => by rw [← hread k hk, Nat.zero_add]⟩

theorem State.result_of_ne_done {s : State} (h : s.phase ≠ .done) : s.result = none :=
  if_neg h

theorem State.result_of_done {s : State} {bs : List Byte} (h : s.phase = .done)
    (hread : s.out.readRange 0 s.pos = .ok bs) : s.result = some bs := by
  rw [State.result, if_pos h, hread]

/-- Settles O38: outside `Done` there is no result, and in `Done` an exact output can be read whole. -/
theorem outputIsDeliveredOnlyInDone : Obligations.OutputIsDeliveredOnlyInDone := by
  refine fun s => ⟨State.result_of_ne_done, fun hdone hout => ?_⟩
  obtain ⟨bs, hread, hlen, hbytes⟩ := hout.readRange_zero
  exact ⟨bs, State.result_of_done hdone hread, hlen, hbytes⟩

end Sys2Proof.Machine
end

section
/-! PROOFS. The statements of 30_encoding.md about codewords and instructions: the code is complete and no codeword
begins another (R87, R90), the decoder and the encoder are inverse to each other (R84 to R89), operands and
pseudo-instructions (R88, R94). -/

namespace Sys2Proof.Machine

/-! ### Codewords -/

section Codewords

variable {t : CodeTable}

/-- The bits of a path determine its end, since a bit selects one child: of two paths to terminals neither goes on
where the other ends. -/
theorem CodeTable.Path.end_unique {n v v' : Nat} {w rest : List Bool} (h : t.Path n w v) (hv : v < t.firstReal)
    (h' : t.Path n (w ++ rest) v') : v = v' ∧ rest = [] := by
  induction h with
  | nil n =>
    cases h' with
    | nil => exact ⟨rfl, rfl⟩
    | cons hinner => exact absurd hv (Nat.not_lt.2 hinner)
  | cons _ _ hchild _ ih =>
    cases h' with
    | cons _ _ hchild' hrest =>
      cases hchild.symm.trans hchild'
      exact ih hv hrest

/-- Settles O18: both codewords are paths from the root, and the first one ends at a terminal. -/
theorem codewordsArePrefixFree : Obligations.CodewordsArePrefixFree := by
  intro t v v' w rest ht hw hw'
  obtain ⟨_, hv, hpath⟩ := (CodeTable.codeword_eq_some ht).1 hw
  obtain ⟨_, _, hpath'⟩ := (CodeTable.codeword_eq_some ht).1 hw'
  exact hpath.end_unique hv hpath'

/-- In a tree every bit leads on from an internal node to a lower entry, so as many bits as there are internal nodes
from `n` down lead to a terminal. -/
theorem CodeTable.Tree.exists_path (ht : t.Tree) {src : Source} (hsrc : src.Complete) {n p : Nat} (hn : n < t.start)
    (hp : p + (n + 1 - t.firstReal) ≤ 8 * src.len) :
    ∃ v w, v < t.firstReal ∧ t.Path n w v ∧ src.Holds p w := by
  induction n using Nat.strongRecOn generalizing p with
  | _ n ih =>
    by_cases hterm : n < t.firstReal
    · exact ⟨n, [], hterm, .nil n, by simp; omega, by simp⟩
    · obtain ⟨b, hb⟩ := hsrc.bit (p := p) (by omega)
      obtain ⟨c, hchild, hlt, _⟩ := ht.child (Nat.le_of_not_lt hterm) hn b
      obtain ⟨v, w, hv, hpath, hholds⟩ := ih c hlt (p := p + 1) (by omega) (by omega)
      exact ⟨v, b :: w, hv, .cons (Nat.le_of_not_lt hterm) hn hchild hpath,
        Source.holds_cons.2 ⟨by omega, hb, hholds⟩⟩

/-- Where the buffer holds a symbol's codeword, the symbol is decoded and the codeword passed. -/
theorem CodeTable.decodeSymbol_of_codeword (ht : t.Tree) {src : Source} {v p : Nat} {w : List Bool}
    (hw : t.codeword v = some w) (hholds : src.Holds p w) : t.decodeSymbol src p = .ok v (p + w.length) := by
  obtain ⟨hroot, hv, hpath⟩ := (CodeTable.codeword_eq_some ht).1 hw
  have hend : p + w.length ≤ 8 * src.len := hholds.1
  rw [CodeTable.decodeSymbol, if_neg (Nat.not_le.2 hroot)]
  exact hpath.walk hv _ p (by simp only [Source.remaining]; omega) hholds

/-- A symbol that is decoded has a codeword, and the bits passed are it. -/
theorem CodeTable.codeword_of_decodeSymbol (ht : t.Tree) {src : Source} {v p q : Nat}
    (h : t.decodeSymbol src p = .ok v q) :
    v < t.firstReal ∧ ∃ w, t.codeword v = some w ∧ src.Holds p w ∧ q = p + w.length := by
  rcases CodeTable.decodeSymbol_cases ht src p with
    ⟨_, v', w, hv, hw, hholds, hdec⟩ | ⟨_, hdec⟩ | hdec | ⟨_, _, hdec⟩ <;> rw [h] at hdec <;> cases hdec
  exact ⟨hv, w, hw, hholds, rfl⟩

/-- Settles O17: the root is the last of `start - F` internal nodes. -/
theorem everyLongEnoughBitStringDecodes : Obligations.EveryLongEnoughBitStringDecodes := by
  intro t src p ht hroot hsrc hlen
  obtain ⟨v, w, hv, hpath, hholds⟩ := ht.exists_path hsrc (n := t.start - 1) (p := p) (by omega) (by omega)
  have hw : t.codeword v = some w := (CodeTable.codeword_eq_some ht).2 ⟨hroot, hv, hpath⟩
  exact ⟨v, w, hv, hw, hholds, CodeTable.decodeSymbol_of_codeword ht hw hholds⟩

end Codewords

/-! ### Well-formed instructions and their encodings -/

theorem symbolWellFormed_iff {t : CodeTable} {x : Nat} :
    symbolWellFormed t x = true ↔ x < t.firstReal ∧ ∃ w, t.codeword x = some w := by
  rw [symbolWellFormed, Bool.and_eq_true, decide_eq_true_eq, Option.isSome_iff_exists]

theorem wellFormed_lit_iff {t : CodeTable} {lbc x : Nat} {bytes : List Byte} :
    Instr.wellFormed t lbc (.lit x bytes) = true ↔ symbolWellFormed t x = true ∧ bytes.length = x + 1 := by
  rw [Instr.wellFormed, Bool.and_eq_true, beq_iff_eq]

theorem wellFormed_bref_iff {t : CodeTable} {lbc x high low : Nat} :
    Instr.wellFormed t lbc (.bref x high low) = true ↔
      symbolWellFormed t x = true ∧ symbolWellFormed t high = true ∧ low < 2 ^ lbc := by
  rw [Instr.wellFormed, Bool.and_eq_true, Bool.and_eq_true, decide_eq_true_eq, and_assoc]

theorem encodeHead_lit {t : CodeTable} {lbc x : Nat} {bytes : List Byte} {cx : List Bool}
    (hx : t.codeword x = some cx) : encodeHead t lbc (.lit x bytes) = some (false :: cx) := by
  simp only [encodeHead, hx]

theorem encodeHead_bref {t : CodeTable} {lbc x high low : Nat} {cx ch : List Bool}
    (hx : t.codeword x = some cx) (hh : t.codeword high = some ch) :
    encodeHead t lbc (.bref x high low) = some (true :: (cx ++ (ch ++ natBits lbc low))) := by
  simp only [encodeHead, hx, hh]

theorem encode_of_head {t : CodeTable} {lbc : Nat} {i : Instr} {h : List Bool} (hh : encodeHead t lbc i = some h) :
    encode t lbc i = some (h ++ encodeTail i) := by
  simp only [encode, hh]

/-! ### Decoding an encoding -/

/-- What an instruction has behind its length symbol `x` (44_decode_loop.md R183, R185): for `BREF` the high distance
symbol and the low bits, for `LIT` its bytes. -/
def decodeRest (t : CodeTable) (lbc : Nat) (src : Source) (sel : Bool) (x : Nat) : BitReader Instr :=
  if sel then do
    let high ← t.decodeSymbol src
    let low ← readBits src lbc
    return .bref x high low
  else decodeLiterals src x

theorem decodeInstr_eq (t : CodeTable) (lbc : Nat) (src : Source) :
    decodeInstr t lbc src = (do
      let sel ← peekBit src
      let _ ← consumeBit src
      let x ← t.decodeSymbol src
      decodeRest t lbc src sel x) :=
  rfl

/-- The selector bit is peeked, consumed, and followed by the length symbol (44_decode_loop.md R181, R182). -/
theorem decodeInstr_run {t : CodeTable} {lbc : Nat} {src : Source} {p q x : Nat} {sel : Bool}
    (hp : p < 8 * src.len) (hsel : src.bit p = some sel) (hx : t.decodeSymbol src (p + 1) = .ok x q) :
    decodeInstr t lbc src p = decodeRest t lbc src sel x q := by
  rw [decodeInstr_eq, bind_of_ok (peekBit_of_bit hp hsel), bind_of_ok (consumeBit_of_bit hp hsel), bind_of_ok hx]

/-- A `LIT`'s head, with its bytes behind it, decodes to the `LIT`; the position is left in front of the bytes. -/
theorem decodeInstr_lit {t : CodeTable} (ht : t.Tree) {lbc x p : Nat} {src : Source} {bytes : List Byte}
    {cx : List Bool} (hx : t.codeword x = some cx) (hlen : bytes.length = x + 1)
    (hholds : src.Holds p (false :: cx ++ bytesBits bytes)) :
    decodeInstr t lbc src p = .ok (.lit x bytes) (p + (false :: cx).length) := by
  obtain ⟨hp, hsel, hrest⟩ := Source.holds_cons.1 hholds
  obtain ⟨hcx, hbytes⟩ := Source.holds_append.1 hrest
  rw [decodeInstr_run hp hsel (CodeTable.decodeSymbol_of_codeword ht hx hcx), decodeRest, if_neg Bool.false_ne_true,
    decodeLiterals, ← hlen, literalBytes_of_holds bytes _ hbytes, List.length_cons, Nat.add_assoc,
    Nat.add_comm 1 cx.length]

/-- A `BREF`'s head decodes to the `BREF` and is passed. -/
theorem decodeInstr_bref {t : CodeTable} (ht : t.Tree) {lbc x high low p : Nat} {src : Source} {cx ch : List Bool}
    (hx : t.codeword x = some cx) (hh : t.codeword high = some ch) (hlow : low < 2 ^ lbc)
    (hholds : src.Holds p (true :: (cx ++ (ch ++ natBits lbc low)))) :
    decodeInstr t lbc src p = .ok (.bref x high low) (p + (true :: (cx ++ (ch ++ natBits lbc low))).length) := by
  obtain ⟨hp, hsel, hrest⟩ := Source.holds_cons.1 hholds
  obtain ⟨hcx, hrest⟩ := Source.holds_append.1 hrest
  obtain ⟨hch, hbits⟩ := Source.holds_append.1 hrest
  rw [decodeInstr_run hp hsel (CodeTable.decodeSymbol_of_codeword ht hx hcx), decodeRest, if_pos rfl,
    bind_of_ok (CodeTable.decodeSymbol_of_codeword ht hh hch), bind_of_ok (readBits_of_holds hbits hlow), pure_run]
  congr 1
  simp only [List.length_cons, List.length_append, natBits_length]
  omega

/-- Settles O20, by the instruction: its codewords are those of its symbols, and its parts decode one after the other. -/
theorem decodeInvertsEncode : Obligations.DecodeInvertsEncode := by
  intro t lbc i src p bits ht hwf henc hholds
  cases i with
  | lit x bytes =>
    obtain ⟨hsym, hlen⟩ := wellFormed_lit_iff.1 hwf
    obtain ⟨_, cx, hcx⟩ := symbolWellFormed_iff.1 hsym
    have hhead := encodeHead_lit (lbc := lbc) (bytes := bytes) hcx
    cases (encode_of_head hhead).symm.trans henc
    refine ⟨false :: cx, hhead, rfl, decodeInstr_lit ht hcx hlen hholds, fun x' bytes' heq => ?_, nofun⟩
    cases heq
    refine ⟨cx, hcx, rfl, ?_⟩
    simp only [encodeTail, List.length_append, List.length_cons, bytesBits_length, hlen]
    omega
  | bref x high low =>
    obtain ⟨hsym, hsymh, hlow⟩ := wellFormed_bref_iff.1 hwf
    obtain ⟨_, cx, hcx⟩ := symbolWellFormed_iff.1 hsym
    obtain ⟨_, ch, hch⟩ := symbolWellFormed_iff.1 hsymh
    have hhead := encodeHead_bref (lbc := lbc) (low := low) hcx hch
    cases (encode_of_head hhead).symm.trans henc
    rw [encodeTail, List.append_nil] at hholds ⊢
    refine ⟨_, hhead, (List.append_nil _).symm, decodeInstr_bref ht hcx hch hlow hholds, nofun,
      fun x' high' low' heq => ?_⟩
    cases heq
    refine ⟨cx, ch, hcx, hch, by rw [List.append_assoc], ?_⟩
    simp only [List.length_cons, List.length_append, natBits_length]
    omega

/-! ### Encoding what was decoded -/

/-- A bit that is peeked is a bit of the buffer, and the position stays. -/
theorem peekBit_ok {src : Source} {p q : Nat} {b : Bool} (h : peekBit src p = .ok b q) :
    p < 8 * src.len ∧ src.bit p = some b ∧ q = p := by
  unfold peekBit at h
  split at h
  · cases h
  · split at h <;> cases h
    exact ⟨by omega, by assumption, rfl⟩

/-- An instruction that decodes begins with its selector and its length symbol. -/
theorem decodeInstr_ok {t : CodeTable} {lbc : Nat} {src : Source} {p q : Nat} {i : Instr}
    (h : decodeInstr t lbc src p = .ok i q) :
    ∃ sel x p', p < 8 * src.len ∧ src.bit p = some sel ∧ t.decodeSymbol src (p + 1) = .ok x p' ∧
      decodeRest t lbc src sel x p' = .ok i q := by
  obtain ⟨sel, p0, hpeek, h'⟩ := bind_eq_ok.1 h
  obtain ⟨hp, hsel, rfl⟩ := peekBit_ok hpeek
  obtain ⟨b, p1, hb, h'⟩ := bind_eq_ok.1 h'
  cases (consumeBit_of_bit hp hsel).symm.trans hb
  obtain ⟨x, p', hx, h'⟩ := bind_eq_ok.1 h'
  exact ⟨sel, x, p', hp, hsel, hx, h'⟩

/-- Settles O21, by the selector: each symbol decoded has the codeword read, and each number and byte read stands in the
buffer. -/
theorem encodeInvertsDecode : Obligations.EncodeInvertsDecode := by
  intro t lbc i src p q ht _ hdec hall
  obtain ⟨sel, x, p', hp, hsel, hx, hrest⟩ := decodeInstr_ok hdec
  obtain ⟨hxlt, cx, hcx, hxholds, rfl⟩ := CodeTable.codeword_of_decodeSymbol ht hx
  have hxwf := symbolWellFormed_iff.2 ⟨hxlt, cx, hcx⟩
  have hxend : p + 1 + cx.length ≤ 8 * src.len := hxholds.1
  cases sel with
  | false =>
    rw [decodeRest, if_neg Bool.false_ne_true, decodeLiterals] at hrest
    split at hrest <;> cases hrest
    rename_i bytes hbytes
    obtain ⟨_, hbholds⟩ := literalBytes_ok hxend hbytes
    exact ⟨wellFormed_lit_iff.2 ⟨hxwf, hall x bytes rfl⟩, _, encode_of_head (encodeHead_lit hcx),
      Source.holds_cons.2 ⟨hp, hsel, Source.holds_append.2 ⟨hxholds, hbholds⟩⟩⟩
  | true =>
    rw [decodeRest, if_pos rfl] at hrest
    obtain ⟨high, p2, hhigh, hrest⟩ := bind_eq_ok.1 hrest
    obtain ⟨low, p3, hlow, hend⟩ := bind_eq_ok.1 hrest
    cases hend
    obtain ⟨hhlt, ch, hch, hhholds, rfl⟩ := CodeTable.codeword_of_decodeSymbol ht hhigh
    obtain ⟨_, hlt, hlholds⟩ := readBits_ok_holds hlow hhholds.1
    refine ⟨wellFormed_bref_iff.2 ⟨hxwf, symbolWellFormed_iff.2 ⟨hhlt, ch, hch⟩, hlt⟩, _,
      encode_of_head (encodeHead_bref hcx hch), ?_⟩
    rw [encodeTail, List.append_nil]
    exact Source.holds_cons.2
      ⟨hp, hsel, Source.holds_append.2 ⟨hxholds, Source.holds_append.2 ⟨hhholds, hlholds⟩⟩⟩

/-- Settles O22: each word is evaluated over TB-1. -/
theorem writtenOutWordsDecode : Obligations.WrittenOutWordsDecode := by
  refine ⟨?_, ?_, ?_, ?_⟩
  · decide
  · decide
  · decide
  · decide

/-! ### Operands -/

/-- R88: a field below `2^l` fills the bits that the shift left free. -/
theorem shiftLeft_or_eq_mul_add (high : Nat) {low l : Nat} (h : low < 2 ^ l) :
    high <<< l ||| low = high * 2 ^ l + low := by
  rw [Nat.shiftLeft_eq, Nat.mul_comm, Nat.two_pow_add_eq_or_of_lt h]

theorem backrefDistance_eq (high : Nat) {low : Nat} {lbc : Byte} (base : Byte) (h : low < 2 ^ lbc.toNat) :
    backrefDistance high low lbc base = high * 2 ^ lbc.toNat + low + base.toNat := by
  rw [backrefDistance, shiftLeft_or_eq_mul_add high h]

/-- Settles O24: with `high <= f - 1` and `low <= 2^l - 1` the distance is at most `(f - 1) * 2^l + 2^l - 1` and the
base. -/
theorem operandsAssembleAsStated : Obligations.OperandsAssembleAsStated := by
  intro f x high low lbc base hx hhigh hlow
  have htop : (high + 1) * 2 ^ lbc.toNat ≤ f * 2 ^ lbc.toNat := Nat.mul_le_mul_right _ hhigh
  rw [Nat.succ_mul] at htop
  rw [backrefDistance_eq high base hlow, shiftLeft_or_eq_mul_add high hlow, literalLength, backrefCount]
  refine ⟨rfl, ?_, ?_, rfl, ?_, ?_, rfl, rfl, ?_, ?_⟩ <;> omega

/-- Settles O23: the high and low parts of `dist - base` are its quotient and remainder by `2^l`. -/
theorem pseudoInstructionsExpand : Obligations.PseudoInstructionsExpand := by
  refine ⟨fun bytes hne => ?_, fun count dist lbc base hcount hdist => ?_⟩
  · have hpos : 0 < bytes.length := List.length_pos_iff.2 hne
    exact ⟨bytes.length - 1, by simp [pseudoLiteral, hne], by rw [literalLength]; omega⟩
  · have hlow : (dist - base.toNat) % 2 ^ lbc.toNat < 2 ^ lbc.toNat := Nat.mod_lt _ (Nat.two_pow_pos _)
    refine ⟨_, _, _, if_pos ⟨hcount, hdist⟩, rfl, rfl, (Nat.and_two_pow_sub_one_eq_mod ..).symm, hlow,
      Nat.sub_add_cancel hcount, ?_⟩
    rw [backrefDistance_eq _ base hlow, Nat.shiftRight_eq_div_pow, Nat.div_add_mod', Nat.sub_add_cancel hdist]

end Sys2Proof.Machine
end

section
/-! PROOFS. The table preamble (30_encoding.md R79 to R82): the fields the encoder writes are read back, in either order
(40_bitcursor.md R107), and `BuildTable` stores the entries (42_table_builder.md R141 to R147). -/

namespace Sys2Proof.Machine

/-! ### Fields -/

/-- The bits of a number are those of its high part and then those of its low part. -/
theorem natBits_add (m n v : Nat) : natBits (m + n) v = natBits m (v >>> n) ++ natBits n v := by
  induction m with
  | zero => simp [natBits]
  | succ m ih =>
    rw [Nat.succ_add, natBits, natBits, ih, Nat.testBit_shiftRight, Nat.add_comm m n, List.cons_append]

/-- A number of `m + n` bits is its high part shifted and its `n` low bits. -/
theorem shiftRight_shiftLeft_or_mod (v n : Nat) : (v >>> n) <<< n ||| v % 2 ^ n = v := by
  rw [shiftLeft_or_eq_mul_add _ (Nat.mod_lt _ (Nat.two_pow_pos n)), Nat.shiftRight_eq_div_pow, Nat.div_add_mod']

/-- The low bytes of a number, from byte `k` on, the least significant first. -/
def lowByteBits (k n v : Nat) : List Bool :=
  (List.range' k n).flatMap fun j => natBits 8 (v >>> (8 * j))

theorem fieldBits_lsbByteFirst (n v : Nat) : fieldBits .lsbByteFirst n v = lowByteBits 0 n v := by
  rw [fieldBits, lowByteBits, List.range_eq_range']

theorem lowByteBits_succ (k n v : Nat) :
    lowByteBits k (n + 1) v = natBits 8 (v >>> (8 * k) % 2 ^ 8) ++ lowByteBits (k + 1) n v := by
  rw [lowByteBits, List.range'_succ, List.flatMap_cons, ← natBits_mod]
  rfl

@[simp] theorem lowByteBits_length (k n v : Nat) : (lowByteBits k n v).length = 8 * n := by
  induction n generalizing k with
  | zero => rfl
  | succ n ih =>
    rw [lowByteBits_succ, List.length_append, natBits_length, ih]
    omega

@[simp] theorem fieldBits_length (order : FieldOrder) (n v : Nat) : (fieldBits order n v).length = 8 * n := by
  cases order with
  | msbFirst => exact natBits_length _ _
  | lsbByteFirst => rw [fieldBits_lsbByteFirst, lowByteBits_length]

/-- One byte more of a number, put above its low bytes. -/
theorem mod_or_byte_shiftLeft (v k : Nat) :
    v % 2 ^ (8 * k) ||| (v >>> (8 * k) % 2 ^ 8) <<< (8 * k) = v % 2 ^ (8 * (k + 1)) := by
  rw [Nat.or_comm, shiftLeft_or_eq_mul_add _ (Nat.mod_lt _ (Nat.two_pow_pos _)), Nat.shiftRight_eq_div_pow,
    Nat.mul_succ, Nat.pow_add, Nat.mod_mul, Nat.mul_comm, Nat.add_comm]

/-- The byte loop of a least-significant-byte-first field reads the number's next bytes. -/
theorem readBytesLow_of_holds {src : Source} {k n v p : Nat} (h : src.Holds p (lowByteBits k n v)) :
    readBytesLow src k n (v % 2 ^ (8 * k)) p = .ok (v % 2 ^ (8 * (k + n))) (p + 8 * n) := by
  induction n generalizing k p with
  | zero => rfl
  | succ n ih =>
    rw [lowByteBits_succ, Source.holds_append, natBits_length] at h
    obtain ⟨hbyte, hrest⟩ := h
    rw [readBytesLow, bind_of_ok (readBits_of_holds hbyte (Nat.mod_lt _ (by decide))), mod_or_byte_shiftLeft, ih hrest,
      Nat.succ_add_eq_add_succ, Nat.add_assoc, Nat.mul_succ, Nat.add_comm 8]

/-- A field that the encoder wrote is read back, in either order. -/
theorem readField_of_holds {src : Source} {order : FieldOrder} {w : FieldWidth} {n v p : Nat} (hw : w.bits = 8 * n)
    (hv : v < 2 ^ (8 * n)) (h : src.Holds p (fieldBits order n v)) :
    readField src order w p = .ok v (p + 8 * n) := by
  have low (h : src.Holds p (fieldBits .lsbByteFirst n v)) :
      readBytesLow src 0 n 0 p = .ok v (p + 8 * n) := by
    rw [fieldBits_lsbByteFirst] at h
    have hread := readBytesLow_of_holds h
    rwa [Nat.zero_add, Nat.mod_eq_of_lt hv, Nat.mul_zero, Nat.pow_zero, Nat.mod_one] at hread
  cases w with
  | w8 =>
    obtain rfl : n = 1 := by simp only [FieldWidth.bits] at hw; omega
    cases order with
    | msbFirst => exact readBits_of_holds h hv
    | lsbByteFirst => exact readBits_of_holds (by simpa [fieldBits] using h) hv
  | w16 =>
    obtain rfl : n = 2 := by simp only [FieldWidth.bits] at hw; omega
    cases order with
    | msbFirst => exact readBits_of_holds h hv
    | lsbByteFirst => exact low h
  | w32 =>
    obtain rfl : n = 4 := by simp only [FieldWidth.bits] at hw; omega
    cases order with
    | msbFirst =>
      have hhigh : v >>> 16 < 2 ^ 16 := by rw [Nat.shiftRight_eq_div_pow]; omega
      have hsplit := natBits_add 16 16 v
      rw [natBits_mod 16 v] at hsplit
      rw [fieldBits, hsplit, Source.holds_append, natBits_length] at h
      obtain ⟨hhi, hlo⟩ := h
      rw [readField, bind_of_ok (readBits_of_holds hhi hhigh),
        bind_of_ok (readBits_of_holds hlo (Nat.mod_lt _ (by decide))), shiftRight_shiftLeft_or_mod, pure_run]
    | lsbByteFirst => exact low h

/-- The same at `cur`, which passes the field. -/
theorem readPreamble_of_holds {s : State} {w : FieldWidth} {n v : Nat} (hw : w.bits = 8 * n) (hv : v < 2 ^ (8 * n))
    (h : s.source.Holds s.position (fieldBits s.cfg.fieldOrder n v)) :
    readPreamble w s = .ok v (s.moveTo (s.position + 8 * n)) :=
  readStream_eq_ok.2 ⟨_, readField_of_holds hw hv h, rfl⟩

theorem indexWidth_bits {bw : Nat} (h : bw = 1 ∨ bw = 2) : (indexWidth bw).bits = 8 * bw := by
  rcases h with rfl | rfl <;> rfl

/-! ### Entries -/

/-- The index that the encoder writes for a slot: none in the identity form (30_encoding.md R80, R81). -/
def writtenIndex (indexed : Bool) (i : Nat) : Option Nat :=
  if indexed then some i else none

/-- The bits of the entries for these slots and weights (30_encoding.md R80). -/
def entriesBits (order : FieldOrder) (bw : Nat) (indexed : Bool) (ws : List (Nat × Word32)) : List Bool :=
  ws.flatMap fun e => entryBits order bw (writtenIndex indexed e.1) e.2

theorem entriesBits_cons (order : FieldOrder) (bw : Nat) (indexed : Bool) (i : Nat) (w : Word32)
    (ws : List (Nat × Word32)) :
    entriesBits order bw indexed ((i, w) :: ws) =
      entryBits order bw (writtenIndex indexed i) w ++ entriesBits order bw indexed ws :=
  rfl

/-- The length of one entry: a 32-bit weight, behind an index in the indexed form. -/
theorem entryBits_length (order : FieldOrder) (bw : Nat) (indexed : Bool) (i : Nat) (w : Word32) :
    (entryBits order bw (writtenIndex indexed i) w).length = (if indexed then 8 * bw else 0) + 32 := by
  cases indexed <;> simp [writtenIndex, entryBits]

theorem entriesBits_length (order : FieldOrder) (bw : Nat) (indexed : Bool) (ws : List (Nat × Word32)) :
    (entriesBits order bw indexed ws).length = ws.length * ((if indexed then 8 * bw else 0) + 32) := by
  rw [entriesBits, List.length_flatMap]
  simp only [entryBits_length, List.map_const', List.sum_replicate_nat]

/-- The index of an entry: read where it was written, the entry's number where the slots are numbered in order. -/
theorem readIndex_of_holds {s : State} {bw k i : Nat} {indexed : Bool} {w : Word32} (hbw : bw = 1 ∨ bw = 2)
    (hi : i < 2 ^ (8 * bw)) (hk : indexed = false → i = k)
    (h : s.source.Holds s.position (entryBits s.cfg.fieldOrder bw (writtenIndex indexed i) w)) :
    ∃ p, readIndex indexed bw k s = .ok i (s.moveTo p) ∧
      p + 32 = s.position + (entryBits s.cfg.fieldOrder bw (writtenIndex indexed i) w).length ∧
      s.source.Holds p (fieldBits s.cfg.fieldOrder 4 w.toNat) := by
  rw [entryBits_length]
  cases indexed with
  | false =>
    refine ⟨s.position, ?_, rfl, h⟩
    rw [hk rfl, State.moveTo_position_self]
    rfl
  | true =>
    obtain ⟨hidx, hw⟩ := Source.holds_append.1 h
    rw [fieldBits_length] at hw
    exact ⟨_, readPreamble_of_holds (indexWidth_bits hbw) hi hidx, Nat.add_assoc .., hw⟩

/-- The weights of these entries stored in order (42_table_builder.md R143, R145). -/
def Arena.store (t : Arena) (ws : List (Nat × Word32)) : Arena :=
  ws.foldl (fun t e => t.setOv e.1 e.2) t

/-- The fill loop reads back the entries that the encoder wrote for slots below `F`, in the identity form for slots
numbered in order. -/
theorem fillLoop_of_holds {f bw : Nat} {indexed : Bool} (hbw : bw = 1 ∨ bw = 2) (hf : f ≤ 2 ^ (8 * bw))
    {ws : List (Nat × Word32)} {k : Nat} {s : State} (hlt : ∀ e ∈ ws, e.1 < f)
    (hids : indexed = false → ws.map Prod.fst = List.range' k ws.length)
    (h : s.source.Holds s.position (entriesBits s.cfg.fieldOrder bw indexed ws)) :
    fillLoop f bw indexed k ws.length s =
      .ok () ((s.withTable (s.table.store ws)).moveTo
        (s.position + (entriesBits s.cfg.fieldOrder bw indexed ws).length)) := by
  induction ws generalizing k s with
  | nil =>
    show _ = EStateM.Result.ok () (s.moveTo s.position)
    rw [State.moveTo_position_self]
    rfl
  | cons e ws ih =>
    obtain ⟨i, w⟩ := e
    have hi : i < f := hlt (i, w) List.mem_cons_self
    have hids' (hx : indexed = false) : i = k ∧ ws.map Prod.fst = List.range' (k + 1) ws.length := by
      have hcons := hids hx
      rwa [List.map_cons, List.length_cons, List.range'_succ, List.cons.injEq] at hcons
    rw [entriesBits_cons] at h ⊢
    obtain ⟨hentry, hrest⟩ := Source.holds_append.1 h
    obtain ⟨p, hidx, hp, hw⟩ := readIndex_of_holds hbw (by omega) (fun hx => (hids' hx).1) hentry
    have hread : readPreamble .w32 (s.moveTo p) = .ok w.toNat (s.moveTo (p + 32)) := by
      rw [readPreamble_of_holds (n := 4) rfl w.isLt (by rwa [State.position_moveTo]), State.position_moveTo,
        State.moveTo_moveTo]
    have hstored : ((s.moveTo (p + 32)).storeWeight i w.toNat) =
        (s.withTable (s.table.setOv i w)).moveTo (p + 32) := by
      rw [State.storeWeight, BitVec.ofNat_toNat, BitVec.setWidth_eq]
      rfl
    rw [List.length_cons, fillLoop, bind_of_ok hidx, if_neg (Nat.not_le.2 hi), bind_of_ok hread, update_bind_run,
      hstored, hp, ih (fun e he => hlt e (List.mem_cons_of_mem _ he)) (fun hx => (hids' hx).2)
        (by rwa [State.position_moveTo]), State.position_moveTo, List.length_append, Nat.add_assoc]
    rfl

/-! ### The step -/

/-- A preamble in the encoder's form: the count, then the entries. -/
theorem preambleBits_eq (order : FieldOrder) (bw c : Nat) (indexed : Bool) (ws : List (Nat × Word32)) :
    preambleBits order bw c (ws.map fun e => (writtenIndex indexed e.1, e.2)) =
      fieldBits order bw c ++ entriesBits order bw indexed ws := by
  rw [preambleBits, entriesBits, List.flatMap_map]

/-- Slots numbered in order and below `F` are at most `F`. -/
theorem length_le_of_map_fst_eq_range {f : Nat} {ws : List (Nat × Word32)}
    (hids : ws.map Prod.fst = List.range ws.length) (hlt : ∀ e ∈ ws, e.1 < f) : ws.length ≤ f := by
  refine Nat.le_of_not_lt fun hgt => ?_
  have hmem : f ∈ ws.map Prod.fst := by rwa [hids, List.mem_range]
  obtain ⟨e, he, rfl⟩ := List.mem_map.1 hmem
  exact Nat.lt_irrefl _ (hlt e he)

/-- `BuildTable` reads back the count and the entries that the encoder wrote, and merges. -/
theorem buildTable_of_holds {s : State} {f bw c : Nat} {ws : List (Nat × Word32)} {indexed : Bool}
    (hf : s.firstReal = some f) (hwidth : s.byteWidth = some bw) (hbw : bw = 1 ∨ bw = 2) (hfle : f ≤ 2 ^ (8 * bw))
    (hc : c < 2 ^ (8 * bw)) (hn : entriesToFill f c = ws.length) (hform : isIndexed f bw ws.length = indexed)
    (hlt : ∀ e ∈ ws, e.1 < f) (hids : indexed = false → ws.map Prod.fst = List.range ws.length)
    (h : s.source.Holds s.position
      (fieldBits s.cfg.fieldOrder bw c ++ entriesBits s.cfg.fieldOrder bw indexed ws)) :
    buildTable s = .ok () ((((s.withPreamble ws.length indexed).withTable (s.table.store ws)).moveTo
      (s.position + (fieldBits s.cfg.fieldOrder bw c ++ entriesBits s.cfg.fieldOrder bw indexed ws).length)).mergeTable
        f) := by
  obtain ⟨hcount, hentries⟩ := Source.holds_append.1 h
  have hroom : ¬ (indexed = false ∧ f < ws.length) := fun ⟨hx, hgt⟩ =>
    absurd (length_le_of_map_fst_eq_range (hids hx) hlt) (Nat.not_le.2 hgt)
  rw [fieldBits_length] at hentries
  have hcur : ((s.moveTo (s.position + 8 * bw)).withPreamble ws.length indexed).position = s.position + 8 * bw :=
    State.position_moveTo s _
  have hfill := fillLoop_of_holds (k := 0) (s := (s.moveTo (s.position + 8 * bw)).withPreamble ws.length indexed) hbw
    hfle hlt (fun hx => by rw [hids hx, List.range_eq_range']) (by rwa [hcur])
  rw [hcur] at hfill
  rw [buildTable, bind_of_ok (show readByteWidth s = .ok bw s from readReg_some hwidth),
    bind_of_ok (readPreamble_of_holds (indexWidth_bits hbw) hc hcount),
    bind_of_ok (show readFirstReal (s.moveTo _) = .ok f (s.moveTo _) from readReg_some hf), hn, hform, update_bind_run,
    if_neg hroom, bind_of_ok hfill, update_run, List.length_append, fieldBits_length, ← Nat.add_assoc]
  rfl

/-- Settles O13: what is read back is the count and each entry's index and weight; the two forms differ in whether the
index is written. -/
theorem buildTableReadsBackEncodedPreamble : Obligations.BuildTableReadsBackEncodedPreamble := by
  intro s f bw c ws hphase hf hwidth hbw hfle hc hlen hlt identity entries bits t hids hholds
  have hform : isIndexed f bw ws.length = !decide identity := rfl
  have hentries : entries = ws.map fun e => (writtenIndex (!decide identity) e.1, e.2) := by
    refine List.map_congr_left fun e _ => ?_
    by_cases h : identity <;> simp [h, writtenIndex]
  have hbits : bits = fieldBits s.cfg.fieldOrder bw c ++ entriesBits s.cfg.fieldOrder bw (!decide identity) ws := by
    rw [← preambleBits_eq, ← hentries]
  have hstep := buildTable_of_holds hf hwidth hbw hfle hc hlen.symm hform hlt (fun hx => hids (by simpa using hx))
    (by rwa [← hbits])
  rw [← hbits] at hstep
  refine ⟨?_, ?_⟩
  · rw [hbits, List.length_append, fieldBits_length, entriesBits_length]
    by_cases h : identity <;> simp [h, Nat.mul_comm]
  · rw [step, hphase]
    exact congrArg settle hstep

end Sys2Proof.Machine
end

section
/-! PROOFS. Which bytes of `IN` a step depends on (30_encoding.md R72, R75, R76, R92; 70_reset_and_hazards.md R243): two
computations that differ in their input alone are followed side by side, first bit reads, then the steps. -/

namespace Sys2Proof.Machine

/-! ### Two computations side by side -/

section Follows

variable {ε σ α β : Type} {stops : Prop} {c : σ → σ} {fits : σ → Prop}

/-- Where the result `r` completes, `r'` completes with the same value and the state carried over by `c`; where `r`
stops, `r'` stops so too, if `stops` are compared. The state reached fits the comparison again. -/
def Follows (stops : Prop) (c : σ → σ) (fits : σ → Prop) (r r' : EStateM.Result ε σ α) : Prop :=
  match r with
  | .ok a u => r' = .ok a (c u) ∧ fits u
  | .error e u => stops → r' = .error e (c u) ∧ fits u

theorem Follows.ok {u : σ} (hu : fits u) (a : α) :
    Follows stops c fits (.ok a u : EStateM.Result ε σ α) (.ok a (c u)) :=
  ⟨rfl, hu⟩

theorem Follows.error {u : σ} (hu : fits u) (e : ε) :
    Follows stops c fits (.error e u : EStateM.Result ε σ α) (.error e (c u)) :=
  fun _ => ⟨rfl, hu⟩

/-- In a sequence the second parts are compared from the state that the first part reaches. -/
theorem Follows.bind {x x' : EStateM ε σ α} {f f' : α → EStateM ε σ β} {s s' : σ}
    (hx : Follows stops c fits (x s) (x' s'))
    (hf : ∀ a u, x s = .ok a u → fits u → Follows stops c fits (f a u) (f' a (c u))) :
    Follows stops c fits ((x >>= f) s) ((x' >>= f') s') := by
  cases h : x s with
  | ok a u =>
    rw [h] at hx
    obtain ⟨hx', hu⟩ := hx
    rw [bind_of_ok h, bind_of_ok hx']
    exact hf a u h hu
  | error e u =>
    rw [h] at hx
    rw [bind_of_error h]
    intro hstops
    obtain ⟨hx', hu⟩ := hx hstops
    exact ⟨bind_of_error hx', hu⟩

end Follows

/-! ### Bit reads -/

/-- Every read of `r` from bit `lo` on is a read of `r'`. -/
def ReadsAlike {α : Type} (stops : Prop) (lo : Nat) (r r' : BitReader α) : Prop :=
  ∀ p, lo ≤ p → Follows stops id (lo ≤ ·) (r p) (r' p)

section ReadsAlike

variable {α β : Type} {stops : Prop} {lo : Nat}

theorem ReadsAlike.pure (a : α) : ReadsAlike stops lo (pure a : BitReader α) (pure a) :=
  fun _ hp => .ok hp a

theorem ReadsAlike.throw (e : Stop) : ReadsAlike stops lo (throw e : BitReader α) (throw e) :=
  fun _ hp => .error hp e

theorem ReadsAlike.bind {r r' : BitReader α} {f f' : α → BitReader β} (hr : ReadsAlike stops lo r r')
    (hf : ∀ a, ReadsAlike stops lo (f a) (f' a)) : ReadsAlike stops lo (r >>= f) (r' >>= f') :=
  fun p hp => (hr p hp).bind fun a q _ hq => hf a q hq

/-- With stops compared, alike reads are the same. -/
theorem ReadsAlike.eq {r r' : BitReader α} (h : ReadsAlike stops lo r r') (hstops : stops) {p : Nat} (hp : lo ≤ p) :
    r' p = r p := by
  have hfollows := h p hp
  cases hr : r p with
  | ok a q =>
    rw [hr] at hfollows
    exact hfollows.1
  | error e q =>
    rw [hr] at hfollows
    exact (hfollows hstops).1

end ReadsAlike

/-- `src'` has the bits of `src` from bit `lo` to its end, and may go on behind it, unless stops are compared. -/
structure Source.Continues (stops : Prop) (lo : Nat) (src src' : Source) : Prop where
  len_le : src.len ≤ src'.len
  len_eq : stops → src'.len = src.len
  bit : ∀ q, lo ≤ q → q < 8 * src.len → src'.bit q = src.bit q

namespace Source.Continues

variable {stops : Prop} {lo : Nat} {src src' : Source} (h : Source.Continues stops lo src src')

include h

theorem gather {p n : Nat} (v : Nat) (hp : lo ≤ p) (hn : p + n ≤ 8 * src.len) :
    src'.gather p n v = src.gather p n v := by
  induction n generalizing p v with
  | zero => rfl
  | succ n ih =>
    simp only [Source.gather, h.bit p hp (by omega)]
    cases src.bit p with
    | none => rfl
    | some b => exact ih _ (by omega) (by omega)

theorem readBits (n : Nat) : ReadsAlike stops lo (readBits src n) (Machine.readBits src' n) := by
  intro p hp
  have hle := h.len_le
  unfold Machine.readBits
  by_cases h0 : n = 0
  · rw [if_pos h0, if_pos h0]
    exact .ok hp 0
  · rw [if_neg h0, if_neg h0]
    by_cases hend : 8 * src.len < p + n
    · rw [if_pos hend]
      intro hstops
      rw [h.len_eq hstops, if_pos hend]
      exact ⟨rfl, hp⟩
    · rw [if_neg hend, if_neg (by omega), h.gather 0 hp (by omega)]
      cases src.gather p n 0 with
      | ok v => exact .ok (by omega) v
      | error a => exact .error hp _

theorem peekBit : ReadsAlike stops lo (peekBit src) (Machine.peekBit src') := by
  intro p hp
  have hle := h.len_le
  unfold Machine.peekBit
  by_cases hend : 8 * src.len < p + 1
  · rw [if_pos hend]
    intro hstops
    rw [h.len_eq hstops, if_pos hend]
    exact ⟨rfl, hp⟩
  · rw [if_neg hend, if_neg (by omega), h.bit p hp (by omega)]
    cases src.bit p with
    | some b => exact .ok hp b
    | none => exact .error hp _

theorem consumeBit : ReadsAlike stops lo (consumeBit src) (Machine.consumeBit src') :=
  (h.readBits 1).bind fun _ => .pure _

theorem readBytesLow (k n v : Nat) :
    ReadsAlike stops lo (readBytesLow src k n v) (Machine.readBytesLow src' k n v) := by
  induction n generalizing k v with
  | zero => exact .pure v
  | succ n ih => exact (h.readBits 8).bind fun _ => ih _ _

theorem readField (order : FieldOrder) (w : FieldWidth) :
    ReadsAlike stops lo (readField src order w) (Machine.readField src' order w) := by
  cases w with
  | w8 => exact h.readBits 8
  | w16 =>
    cases order with
    | msbFirst => exact h.readBits 16
    | lsbByteFirst => exact h.readBytesLow 0 2 0
  | w32 =>
    cases order with
    | msbFirst => exact (h.readBits 16).bind fun _ => (h.readBits 16).bind fun _ => .pure _
    | lsbByteFirst => exact h.readBytesLow 0 4 0

/-- More rounds than bits are left change no walk that completes. -/
theorem walk (t : CodeTable) {m m' : Nat} (hm : m ≤ m') (hm' : stops → m' = m) (node : Nat) :
    ReadsAlike stops lo (t.walk src m node) (t.walk src' m' node) := by
  induction m generalizing m' node with
  | zero =>
    intro p hp
    by_cases hterm : node < t.firstReal
    · cases m' <;> simp only [CodeTable.walk, if_pos hterm] <;> exact .ok hp node
    · simp only [CodeTable.walk, if_neg hterm]
      intro hstops
      rw [hm' hstops]
      simp only [CodeTable.walk, if_neg hterm]
      exact ⟨rfl, hp⟩
  | succ m ih =>
    obtain ⟨m', rfl⟩ : ∃ j, m' = j + 1 := ⟨m' - 1, by omega⟩
    simp only [CodeTable.walk]
    by_cases hterm : node < t.firstReal
    · rw [if_pos hterm, if_pos hterm]
      exact .pure node
    · rw [if_neg hterm, if_neg hterm]
      refine h.consumeBit.bind fun b => ?_
      cases t.child node b with
      | none => exact .throw _
      | some child => exact ih (by omega) (fun hstops => by have := hm' hstops; omega) child

theorem decodeSymbol (t : CodeTable) : ReadsAlike stops lo (t.decodeSymbol src) (t.decodeSymbol src') := by
  intro p hp
  have hle := h.len_le
  unfold CodeTable.decodeSymbol
  by_cases hroot : t.start ≤ t.firstReal
  · rw [if_pos hroot, if_pos hroot]
    exact .error hp _
  · rw [if_neg hroot, if_neg hroot]
    refine h.walk t ?_ (fun hstops => ?_) _ p hp
    · simp only [Source.remaining]
      omega
    · rw [Source.remaining, Source.remaining, h.len_eq hstops]

/-- With stops compared, a cut-off run of literal bytes is cut off at the same byte. -/
theorem literalBytes_eq (hstops : stops) (n : Nat) {p : Nat} (hp : lo ≤ p) :
    literalBytes src' n p = literalBytes src n p := by
  induction n generalizing p with
  | zero => rfl
  | succ n ih =>
    simp only [literalBytes, (h.readBits 8).eq hstops hp]
    cases hr : Machine.readBits src 8 p with
    | ok v q =>
      have hq := readBits_position hr
      simp only [ih (p := q) (by omega)]
    | error e q => cases e <;> rfl

/-- A run that has all its bytes has the same in the longer buffer. -/
theorem literalBytes_ok {n p : Nat} {bytes : List Byte} (hp : lo ≤ p) (hread : literalBytes src n p = .ok bytes)
    (hlen : bytes.length = n) : literalBytes src' n p = .ok bytes := by
  induction n generalizing p bytes with
  | zero => exact hread
  | succ n ih =>
    have hbyte := h.readBits 8 p hp
    rw [literalBytes] at hread ⊢
    split at hread
    · rename_i v q hv
      rw [hv] at hbyte
      obtain ⟨hv', hq⟩ := hbyte
      rw [hv']
      split at hread
      · rename_i rest hrest
        cases hread
        simp only [id, ih hq hrest (Nat.succ.inj hlen)]
      · cases hread
    · cases hread
      cases hlen
    · cases hread

/-- A `LIT`'s bytes: as in the shorter buffer, unless its end cuts them off and stops are not compared. -/
theorem decodeLiterals {x p : Nat} (hp : lo ≤ p)
    (hfull : stops ∨ ∀ bytes q, decodeLiterals src x p = .ok (.lit x bytes) q → bytes.length = x + 1) :
    Follows stops id (lo ≤ ·) (decodeLiterals src x p) (Sys2Proof.decodeLiterals src' x p) := by
  unfold Sys2Proof.decodeLiterals at hfull ⊢
  cases hread : literalBytes src (x + 1) p with
  | ok bytes =>
    rw [hread] at hfull
    have hread' : literalBytes src' (x + 1) p = .ok bytes := by
      rcases hfull with hstops | hlen
      · rw [h.literalBytes_eq hstops _ hp, hread]
      · exact h.literalBytes_ok hp hread (hlen bytes p rfl)
    rw [hread']
    exact .ok hp _
  | error e =>
    intro hstops
    rw [h.literalBytes_eq hstops _ hp, hread]
    exact ⟨rfl, hp⟩

/-- An instruction decodes as in the shorter buffer, but for a `LIT` that its end cuts off. -/
theorem decodeInstr (t : CodeTable) (lbc : Nat) {p : Nat} (hp : lo ≤ p)
    (hfull : stops ∨ ∀ x bytes q, decodeInstr t lbc src p = .ok (.lit x bytes) q → bytes.length = x + 1) :
    Follows stops id (lo ≤ ·) (decodeInstr t lbc src p) (Sys2Proof.decodeInstr t lbc src' p) := by
  rw [decodeInstr_eq] at hfull
  rw [decodeInstr_eq, decodeInstr_eq]
  refine (h.peekBit p hp).bind fun sel p0 hsel hp0 => ?_
  refine (h.consumeBit p0 hp0).bind fun b p1 hb hp1 => ?_
  refine (h.decodeSymbol t p1 hp1).bind fun x p2 hx hp2 => ?_
  rw [bind_of_ok hsel, bind_of_ok hb, bind_of_ok hx] at hfull
  cases sel with
  | true =>
    exact ((h.decodeSymbol t).bind fun _ => (h.readBits lbc).bind fun _ => .pure _) p2 hp2
  | false => exact h.decodeLiterals hp2 (hfull.imp_right fun hlen bytes q => hlen x bytes q)

end Source.Continues

end Sys2Proof.Machine
end

section
/-! PROOFS. The steps over a changed input: each computation of the engine goes the same way where it reads the same
bytes (30_encoding.md R72, R75, R76, R92; 70_reset_and_hazards.md R243). -/

namespace Sys2Proof.Machine

/-- Another input for the engine: `memory` and `len` in place of `IN` and `L`, compared for states with the parameters
`cfg` whose cursor is at byte `first` or behind it. With `stops`, the runs that fail or stop are compared too. -/
structure InputChange where
  stops : Prop
  cfg : Config
  first : Nat
  memory : Memory
  len : Nat

namespace InputChange

variable (k : InputChange)

/-- The state with the other input. -/
def apply (s : State) : State :=
  { s with input := k.memory, inLen := k.len }

@[simp] theorem apply_inLen (s : State) : (k.apply s).inLen = k.len := rfl

@[simp] theorem apply_pos (s : State) : (k.apply s).pos = s.pos := rfl

@[simp] theorem apply_out (s : State) : (k.apply s).out = s.out := rfl

@[simp] theorem apply_position (s : State) : (k.apply s).position = s.position := rfl

/-- The addresses that a rule reads: the magic, the header's three fields, the options and the stream (30_encoding.md
R70 to R78). -/
def Reads (a : Nat) : Prop :=
  a < 0x10 ∨ (0x20 ≤ a ∧ a < 0x2C) ∨
    a ∈ [k.cfg.optionOffsets.raw, k.cfg.optionOffsets.min, k.cfg.optionOffsets.ub, k.cfg.optionOffsets.lbc,
      k.cfg.optionOffsets.base] ∨
    k.first ≤ a

/-- The states in which the two inputs can be compared: the other one has the same byte wherever a rule reads, and is
longer only if stops are not compared. -/
structure Fits (s : State) : Prop where
  cfg : s.cfg = k.cfg
  len_le : s.inLen ≤ k.len
  len_eq : k.stops → k.len = s.inLen
  read : ∀ a, k.Reads a → a < s.inLen → k.memory.read a = s.input.read a
  cursor : 8 * k.first ≤ s.position

/-- From every state that can be compared, the computation goes the same way over either input. -/
def Alike {α : Type} (x : Engine α) : Prop :=
  ∀ s, k.Fits s → Follows k.stops k.apply k.Fits (x s) (x (k.apply s))

variable {k} {α β : Type} {s : State}

/-- A state with the same parameters and input and the cursor not before the stream can be compared too. -/
theorem Fits.of_frame {u : State} (h : k.Fits s) (hcfg : u.cfg = s.cfg) (hinput : u.input = s.input)
    (hlen : u.inLen = s.inLen) (hcur : s.position ≤ u.position) : k.Fits u where
  cfg := hcfg.trans h.cfg
  len_le := by rw [hlen]; exact h.len_le
  len_eq := by rw [hlen]; exact h.len_eq
  read := by rw [hinput, hlen]; exact h.read
  cursor := Nat.le_trans h.cursor hcur

theorem Fits.moveTo {p : Nat} (h : k.Fits s) (hp : 8 * k.first ≤ p) : k.Fits (s.moveTo p) where
  cfg := h.cfg
  len_le := h.len_le
  len_eq := h.len_eq
  read := h.read
  cursor := by rwa [State.position_moveTo]

theorem Fits.takeFault (h : k.Fits s) (i : FaultInfo) : k.Fits (s.takeFault i) :=
  h.of_frame rfl rfl rfl (Nat.le_refl _)

theorem Fits.pushByte (h : k.Fits s) (b : Byte) : k.Fits (s.pushByte b) :=
  h.of_frame rfl rfl rfl (Nat.le_refl _)

theorem Fits.source (h : k.Fits s) : Source.Continues k.stops (8 * k.first) s.source (k.apply s).source where
  len_le := h.len_le
  len_eq := h.len_eq
  bit q hq hend := by
    have hread : (k.apply s).source.memory.read (q / 8) = s.source.memory.read (q / 8) :=
      h.read (q / 8) (Or.inr (Or.inr (Or.inr (by omega)))) (by simp only [State.source] at hend; omega)
    rw [Source.bit, Source.bit, hread]

/-! ### The primitive operations -/

theorem Alike.pure (a : α) : k.Alike (pure a : Engine α) :=
  fun _ hs => .ok hs a

theorem Alike.raise (i : FaultInfo) : k.Alike (raise i : Engine α) :=
  fun _ hs => .error hs _

theorem Alike.bind {x : Engine α} {f : α → Engine β} (hx : k.Alike x) (hf : ∀ a, k.Alike (f a)) :
    k.Alike (x >>= f) :=
  fun s hs => (hx s hs).bind fun a u _ hu => hf a u hu

/-- A computation that begins with the state as it is: what it goes on with may depend on all but the input. -/
theorem Alike.get_bind {f : State → Engine α} (heq : ∀ s, f (k.apply s) = f s)
    (hf : ∀ s, k.Fits s → k.Alike (f s)) : k.Alike (get >>= f) := by
  intro s hs
  rw [get_bind_run, get_bind_run, heq]
  exact hf s hs s hs

theorem Alike.ite {c : Prop} [Decidable c] {x y : Engine α} (hx : k.Alike x) (hy : k.Alike y) :
    k.Alike (if c then x else y) := by
  split
  · exact hx
  · exact hy

/-- A write to registers that neither reads nor writes the input and does not move the cursor back. -/
theorem Alike.update {f : State → State} (hf : ∀ s, f (k.apply s) = k.apply (f s))
    (hfits : ∀ s, k.Fits s → k.Fits (f s)) : k.Alike (update f) := by
  intro s hs
  rw [update_run, update_run, hf]
  exact .ok (hfits s hs) ()

/-- Such a write that leaves the cursor where it is. -/
theorem Alike.update_registers {f : State → State} (hf : ∀ s, f (k.apply s) = k.apply (f s))
    (hkeep : ∀ s, (f s).cfg = s.cfg ∧ (f s).input = s.input ∧ (f s).inLen = s.inLen ∧ (f s).cur = s.cur) :
    k.Alike (Machine.update f) := by
  refine .update hf fun s hs => ?_
  obtain ⟨hcfg, hinput, hlen, hcur⟩ := hkeep s
  exact hs.of_frame hcfg hinput hlen (Nat.le_of_eq (by rw [State.position, State.position, hcur]))

theorem Alike.readReg {r : RegName} {get : State → Option α} (hget : ∀ s, get (k.apply s) = get s) :
    k.Alike (readReg r get) := by
  intro s hs
  simp only [Machine.readReg, hget]
  cases get s with
  | some v => exact .ok hs v
  | none => exact .error hs _

theorem Alike.memReadIn {a : Nat} (ha : k.Reads a) : k.Alike (memReadIn a) := by
  intro s hs
  simp only [Machine.memReadIn]
  by_cases hlt : a < s.inLen
  · rw [if_pos hlt, apply_inLen, if_pos (Nat.lt_of_lt_of_le hlt hs.len_le),
      show (k.apply s).input.read a = s.input.read a from hs.read a ha hlt]
    cases s.input.read a with
    | some b => exact .ok hs b
    | none => exact .error hs _
  · rw [if_neg hlt]
    intro hstops
    rw [apply_inLen, hs.len_eq hstops, if_neg hlt]
    exact ⟨rfl, hs⟩

theorem Alike.memReadOut (a : Nat) : k.Alike (memReadOut a) := by
  intro s hs
  simp only [Machine.memReadOut]
  by_cases hlt : a < s.pos
  · rw [if_pos hlt, if_pos (by rwa [apply_pos]), apply_out]
    cases s.out.read a with
    | some b => exact .ok hs b
    | none => exact .error hs _
  · rw [if_neg hlt, if_neg (by rwa [apply_pos])]
    exact .error hs _

/-- A bit-reading operation at `cur` goes as it does at its position. -/
theorem readStream_follows {r r' : Source → BitReader α} (hs : k.Fits s)
    (hr : Follows k.stops id (8 * k.first ≤ ·) (r s.source s.position) (r' (k.apply s).source s.position)) :
    Follows k.stops k.apply k.Fits (readStream r s) (readStream r' (k.apply s)) := by
  simp only [readStream, apply_position]
  cases h : r s.source s.position with
  | ok a p =>
    rw [h] at hr
    obtain ⟨hr', hp⟩ := hr
    rw [hr']
    exact .ok (hs.moveTo hp) a
  | error e p =>
    rw [h] at hr
    intro hstops
    obtain ⟨hr', hp⟩ := hr hstops
    rw [hr']
    exact ⟨rfl, hs.moveTo hp⟩

/-! ### Header and options -/

theorem Alike.checkMagic {a : Nat} {ms : List Byte} (h : a + ms.length ≤ 0x10) : k.Alike (checkMagic a ms) := by
  induction ms generalizing a with
  | nil => exact .pure ()
  | cons m ms ih =>
    rw [List.length_cons] at h
    exact .bind (.memReadIn (Or.inl (by omega))) fun b => .ite (.raise _) (ih (by omega))

theorem Alike.readLE32 {a : Nat} (h : 0x20 ≤ a) (h' : a + 3 < 0x2C) : k.Alike (readLE32 a) :=
  .bind (.memReadIn (Or.inr (Or.inl (by omega)))) fun _ =>
    .bind (.memReadIn (Or.inr (Or.inl (by omega)))) fun _ =>
      .bind (.memReadIn (Or.inr (Or.inl (by omega)))) fun _ =>
        .bind (.memReadIn (Or.inr (Or.inl (by omega)))) fun _ => .pure _

/-- `ReadHeader` behind its check of the length (41_header_options.md R121). -/
def readHeaderFields (maxOutput : Option Nat) : Engine Unit := do
  Machine.checkMagic 0 magic
  let declen ← Machine.readLE32 declenOffset
  let hi ← Machine.readLE32 csumHighOffset
  let lo ← Machine.readLE32 csumLowOffset
  Machine.update (fun s => s.withHeader declen (hi ++ lo))
  if overBudget maxOutput declen then Machine.raise (.budget declen)
  else Machine.update (fun s => s.withPhase .readOptions)

theorem readHeader_run (s : State) :
    readHeader s =
      if s.inLen < minStreamLength then .error (.raised (.headerShort s.inLen)) s
      else readHeaderFields s.maxOutput s := by
  rw [readHeader, get_bind_run, ite_run]
  rfl

theorem Alike.readHeaderFields (maxOutput : Option Nat) : k.Alike (readHeaderFields maxOutput) :=
  .bind (.checkMagic (by decide)) fun _ => .bind (.readLE32 (by decide) (by decide)) fun _ =>
    .bind (.readLE32 (by decide) (by decide)) fun _ => .bind (.readLE32 (by decide) (by decide)) fun _ =>
      .bind (.update_registers (fun _ => rfl) fun _ => ⟨rfl, rfl, rfl, rfl⟩) fun _ =>
        .ite (.raise _) (.update_registers (fun _ => rfl) fun _ => ⟨rfl, rfl, rfl, rfl⟩)

theorem Alike.readHeader : k.Alike readHeader := by
  intro s hs
  have hle := hs.len_le
  rw [readHeader_run, readHeader_run, apply_inLen]
  by_cases hshort : s.inLen < minStreamLength
  · rw [if_pos hshort]
    intro hstops
    rw [hs.len_eq hstops, if_pos hshort]
    exact ⟨rfl, hs⟩
  · rw [if_neg hshort, if_neg (by omega)]
    exact Alike.readHeaderFields s.maxOutput s hs

theorem Fits.reads_option (h : k.Fits s) {a : Nat}
    (ha : a ∈ [s.cfg.optionOffsets.raw, s.cfg.optionOffsets.min, s.cfg.optionOffsets.ub, s.cfg.optionOffsets.lbc,
      s.cfg.optionOffsets.base]) : k.Reads a :=
  Or.inr (Or.inr (Or.inl (by rwa [← h.cfg])))

theorem Alike.readOptions : k.Alike readOptions :=
  .get_bind (fun _ => rfl) fun s hs =>
    .bind (.memReadIn (hs.reads_option (by simp))) fun _ => .bind (.memReadIn (hs.reads_option (by simp))) fun _ =>
      .bind (.memReadIn (hs.reads_option (by simp))) fun _ => .bind (.memReadIn (hs.reads_option (by simp))) fun _ =>
        .bind (.memReadIn (hs.reads_option (by simp))) fun _ =>
          .bind (.update_registers (fun _ => rfl) fun _ => ⟨rfl, rfl, rfl, rfl⟩) fun _ =>
            .ite (.update_registers (fun _ => rfl) fun _ => ⟨rfl, rfl, rfl, rfl⟩) (.raise _)

/-! ### The table -/

theorem Alike.readPreamble (w : FieldWidth) : k.Alike (readPreamble w) :=
  fun _ hs => readStream_follows hs (hs.source.readField _ w _ hs.cursor)

theorem Alike.readIndex (indexed : Bool) (bw i : Nat) : k.Alike (readIndex indexed bw i) := by
  cases indexed
  · exact .pure i
  · exact .readPreamble _

theorem Alike.fillLoop (f bw : Nat) (indexed : Bool) (i n : Nat) : k.Alike (fillLoop f bw indexed i n) := by
  induction n generalizing i with
  | zero => exact .pure ()
  | succ n ih =>
    exact .bind (.readIndex indexed bw i) fun idx => .ite (.raise _) <| .bind (.readPreamble .w32) fun w =>
      .bind (.update_registers (fun _ => rfl) fun _ => ⟨rfl, rfl, rfl, rfl⟩) fun _ => ih (i + 1)

theorem Alike.buildTable : k.Alike buildTable :=
  .bind (.readReg fun _ => rfl) fun _ => .bind (.readPreamble _) fun _ => .bind (.readReg fun _ => rfl) fun _ =>
    .bind (.update_registers (fun _ => rfl) fun _ => ⟨rfl, rfl, rfl, rfl⟩) fun _ =>
      .ite (.raise _) <| .bind (.fillLoop _ _ _ _ _) fun _ =>
        .update_registers (fun _ => rfl) fun _ => ⟨rfl, rfl, rfl, rfl⟩

/-! ### The instructions -/

theorem Alike.copyBytes (dist n : Nat) : k.Alike (copyBytes dist n) := by
  induction n with
  | zero => exact .pure ()
  | succ n ih =>
    exact .get_bind (fun _ => rfl) fun _ _ => .bind (.memReadOut _) fun b =>
      .bind (.update (fun _ => rfl) fun _ hu => hu.pushByte b) fun _ => ih

theorem Alike.backrefCopy (x high low : Nat) : k.Alike (backrefCopy x high low) :=
  .bind (.readReg fun _ => rfl) fun _ => .bind (.readReg fun _ => rfl) fun _ =>
    .get_bind (fun _ => rfl) fun _ _ =>
      .ite (.raise _) <| .bind (.readReg fun _ => rfl) fun _ => .ite (.raise _) (.copyBytes _ _)

theorem Fits.putLiteral (h : k.Fits s) (b : Byte) : k.Fits (s.putLiteral b) :=
  (h.moveTo (Nat.le_trans h.cursor (Nat.le_add_right _ 8))).pushByte b

theorem Alike.putLiterals (n : Nat) (bytes : List Byte) : k.Alike (putLiterals n bytes) := by
  induction n generalizing bytes with
  | zero => exact .pure ()
  | succ n ih =>
    cases bytes with
    | nil => exact fun s hs => .error hs _
    | cons b bytes => exact .bind (.update (fun _ => rfl) fun _ hu => hu.putLiteral b) fun _ => ih bytes

theorem Alike.literalRun (x : Nat) (bytes : List Byte) : k.Alike (literalRun x bytes) :=
  .bind (.readReg fun _ => rfl) fun _ => .get_bind (fun _ => rfl) fun _ _ => .ite (.raise _) (.putLiterals _ _)

/-! ### The checksum -/

theorem Alike.verifyChecksum : k.Alike verifyChecksum := by
  refine .bind (fun s hs => ?_) fun _ => .bind (.readReg fun _ => rfl) fun _ =>
    .ite (.update_registers (fun _ => rfl) fun _ => ⟨rfl, rfl, rfl, rfl⟩) (.raise _)
  simp only [readProduced, apply]
  cases s.out.readRange 0 s.pos with
  | ok bs => exact .ok hs bs
  | error a => exact .error hs _

end InputChange

end Sys2Proof.Machine
end

section
/-! PROOFS. The statements of 30_encoding.md about the input a step depends on: the bytes no rule reads (R72, R75, R76)
and the bytes behind the end (R92, with 70_reset_and_hazards.md R243). -/

namespace Sys2Proof.Machine

/-! ### The step as one computation -/

/-- What an instruction means, as a computation (44_decode_loop.md R183, R185). -/
def instrMeaning : Instr → Engine Unit
  | .lit x bytes => literalRun x bytes
  | .bref x high low => backrefCopy x high low

theorem exec_eq_settle (i : Instr) (s : State) : exec i s = settle (instrMeaning i s) := by
  cases i <;> rfl

/-- The step of the loop as a computation (44_decode_loop.md R180): the exit test, then one instruction. -/
def loopMeaning : Engine Unit := do
  let done ← loopExit
  if done then update (fun s => s.withPhase .verifyChecksum)
  else do
    let i ← fetch
    instrMeaning i

theorem decodeLoopStep_eq_settle (s : State) : decodeLoopStep s = settle (loopMeaning s) := by
  rw [decodeLoopStep, loopMeaning]
  cases hexit : loopExit s with
  | error e u =>
    rw [bind_of_error hexit]
    cases e <;> rfl
  | ok done u =>
    rw [bind_of_ok hexit]
    cases done with
    | true => rfl
    | false =>
      simp only [runInstr, Bool.false_eq_true, if_false]
      cases hfetch : fetch u with
      | error e v =>
        rw [bind_of_error hfetch]
        cases e <;> rfl
      | ok i v =>
        rw [bind_of_ok hfetch]
        exact exec_eq_settle i v

/-- The computation of each phase (10_state.md R21); in `Idle` and the final phases there is none. -/
def phaseMeaning : Phase → Engine Unit
  | .readHeader => readHeader
  | .readOptions => readOptions
  | .buildTable => buildTable
  | .decodeLoop => loopMeaning
  | .verifyChecksum => verifyChecksum
  | .idle | .done | .failed => pure ()

theorem step_eq_settle (s : State) : step s = settle (phaseMeaning s.phase s) := by
  rw [step]
  cases s.phase with
  | decodeLoop => exact decodeLoopStep_eq_settle s
  | idle | readHeader | readOptions | buildTable | verifyChecksum | done | failed => rfl

/-! ### The loop over a changed input -/

/-- A `LIT` that is fetched has at most its `X + 1` bytes. -/
theorem fetch_lit_length_le {x : Nat} {bytes : List Byte} {s t : State} (h : fetch s = .ok (.lit x bytes) t) :
    bytes.length ≤ x + 1 := by
  obtain ⟨st, s1, _, h⟩ := bind_eq_ok.1 h
  obtain ⟨f, s2, _, h⟩ := bind_eq_ok.1 h
  rw [get_bind_run] at h
  obtain ⟨p, hdec, _⟩ := readStream_eq_ok.1 h
  obtain ⟨_, hbytes⟩ := decodeInstr_ok_bounds hdec
  exact (hbytes x bytes rfl).1

/-- A `LIT` without all its bytes stops, whether there is room for it or not (44_decode_loop.md R183). -/
theorem literalRun_short_ne_ok {x : Nat} {bytes : List Byte} {s t : State} (h : bytes.length < x + 1) :
    literalRun x bytes s ≠ .ok () t := by
  intro hok
  obtain ⟨d, u, hd, hrun⟩ := bind_eq_ok.1 hok
  rw [get_bind_run] at hrun
  split at hrun
  · cases hrun
  · rw [literalLength, putLiterals_short _ _ _ h] at hrun
    cases hrun

namespace InputChange

variable {k : InputChange} {s : State}

theorem Alike.instrMeaning (i : Instr) : k.Alike (instrMeaning i) := by
  cases i with
  | lit x bytes => exact .literalRun x bytes
  | bref x high low => exact .backrefCopy x high low

/-- The fetch goes the same way, but for a `LIT` that the end of `IN` cuts off. -/
theorem fetch_follows (hs : k.Fits s)
    (hfull : k.stops ∨ ∀ x bytes u, fetch s = .ok (.lit x bytes) u → bytes.length = x + 1) :
    Follows k.stops k.apply k.Fits (fetch s) (fetch (k.apply s)) := by
  rcases Option.eq_none_or_eq_some s.start with hstart | ⟨st, hstart⟩
  · have herr (u : State) (hu : u.start = none) : fetch u = .error (.halted (.unwritten .start)) u := by
      rw [fetch]
      exact bind_of_error (readReg_eq_error.2 ⟨hu, rfl, rfl⟩)
    rw [herr s hstart, herr (k.apply s) hstart]
    exact .error hs _
  rcases Option.eq_none_or_eq_some s.firstReal with hfirst | ⟨f, hfirst⟩
  · have herr (u : State) (hst : u.start = some st) (hu : u.firstReal = none) :
        fetch u = .error (.halted (.unwritten .firstReal)) u := by
      rw [fetch, bind_of_ok (show readStart u = .ok st u from readReg_some hst)]
      exact bind_of_error (readReg_eq_error.2 ⟨hu, rfl, rfl⟩)
    rw [herr s hstart hfirst, herr (k.apply s) hstart hfirst]
    exact .error hs _
  rw [fetch_run hstart hfirst] at hfull
  rw [fetch_run hstart hfirst, fetch_run (s := k.apply s) hstart hfirst]
  refine readStream_follows hs (hs.source.decodeInstr _ _ hs.cursor (hfull.imp_right fun hlen x bytes q hdec => ?_))
  exact hlen x bytes (s.moveTo q) (readStream_eq_ok.2 ⟨q, hdec, rfl⟩)

/-- One instruction goes the same way: a `LIT` that the end of `IN` cuts off does not complete. -/
theorem fetchInstr_follows (hs : k.Fits s) :
    Follows k.stops k.apply k.Fits ((fetch >>= Machine.instrMeaning) s)
      ((fetch >>= Machine.instrMeaning) (k.apply s)) := by
  by_cases hfull : k.stops ∨ ∀ x bytes u, fetch s = .ok (.lit x bytes) u → bytes.length = x + 1
  · exact (fetch_follows hs hfull).bind fun i u _ hu => Alike.instrMeaning i u hu
  · obtain ⟨hstops, hcut⟩ := not_or.1 hfull
    simp only [Classical.not_forall] at hcut
    obtain ⟨x, bytes, u, hfetch, hlen⟩ := hcut
    have hshort : bytes.length < x + 1 := Nat.lt_of_le_of_ne (fetch_lit_length_le hfetch) hlen
    rw [bind_of_ok hfetch]
    cases hrun : Machine.instrMeaning (.lit x bytes) u with
    | ok _ v => exact absurd hrun (literalRun_short_ne_ok hshort)
    | error e v => exact fun h => absurd h hstops

/-- The loop's step goes the same way, where the exit test does: at `declen`, or with a bit left in the shorter
input. -/
theorem loopMeaning_follows (hs : k.Fits s)
    (hexit : k.stops ∨ s.position < 8 * s.inLen ∨ ∃ d, s.declen = some d ∧ s.pos = d.toNat) :
    Follows k.stops k.apply k.Fits (loopMeaning s) (loopMeaning (k.apply s)) := by
  rw [loopMeaning]
  rcases Option.eq_none_or_eq_some s.declen with hd | ⟨d, hd⟩
  · rw [bind_of_error (loopExit_unwritten hd), bind_of_error (loopExit_unwritten (s := k.apply s) hd)]
    exact .error hs _
  have htest : (s.pos == d.toNat || (k.apply s).source.exhausted s.position) =
      (s.pos == d.toNat || s.source.exhausted s.position) := by
    simp only [Source.exhausted, Source.remaining, State.source, apply_inLen]
    have hle := hs.len_le
    rcases hexit with hstops | hbit | ⟨d', hd', hpos⟩
    · rw [hs.len_eq hstops]
    · rw [beq_false_of_ne (show 8 * k.len - s.position ≠ 0 by omega),
        beq_false_of_ne (show 8 * s.inLen - s.position ≠ 0 by omega)]
    · cases hd.symm.trans hd'
      rw [beq_iff_eq.2 hpos, Bool.true_or, Bool.true_or]
  rw [bind_of_ok (loopExit_run hd), bind_of_ok (loopExit_run (s := k.apply s) hd), apply_pos, apply_position, htest]
  cases s.pos == d.toNat || s.source.exhausted s.position with
  | true => exact .ok (c := k.apply) (u := s.withPhase .verifyChecksum) (hs.of_frame rfl rfl rfl (Nat.le_refl _)) ()
  | false => exact fetchInstr_follows hs

/-- Every step goes the same way over either input; in the loop, where the exit test does. -/
theorem phaseMeaning_follows (hs : k.Fits s)
    (hexit : k.stops ∨
      (s.phase = .decodeLoop → s.position < 8 * s.inLen ∨ ∃ d, s.declen = some d ∧ s.pos = d.toNat)) :
    Follows k.stops k.apply k.Fits (phaseMeaning s.phase s) (phaseMeaning s.phase (k.apply s)) := by
  cases hphase : s.phase with
  | idle | done | failed => exact .ok hs ()
  | readHeader => exact Alike.readHeader s hs
  | readOptions => exact Alike.readOptions s hs
  | buildTable => exact Alike.buildTable s hs
  | decodeLoop => exact loopMeaning_follows hs (hexit.imp_right fun h => h hphase)
  | verifyChecksum => exact Alike.verifyChecksum s hs

/-- With stops compared, the two steps have the same outcome but for the input. -/
theorem settle_follows {α : Type} {r r' : EStateM.Result Stop State α} (hstops : k.stops)
    (h : Follows k.stops k.apply k.Fits r r') :
    (∀ t, settle r = .next t → settle r' = .next (k.apply t) ∧ k.Fits t) ∧
      ∀ f, settle r = .fault f → settle r' = .fault f := by
  cases r with
  | ok a u =>
    obtain ⟨rfl, hu⟩ := h
    rw [settle_ok, settle_ok]
    refine ⟨fun t ht => ?_, nofun⟩
    cases ht
    exact ⟨rfl, hu⟩
  | error e u =>
    obtain ⟨rfl, hu⟩ := h hstops
    cases e with
    | raised i =>
      rw [settle_raised, settle_raised]
      refine ⟨fun t ht => ?_, nofun⟩
      cases ht
      exact ⟨rfl, hu.takeFault i⟩
    | halted f =>
      rw [settle_halted, settle_halted]
      exact ⟨fun _ ht => (nomatch ht), fun _ hf => hf⟩

end InputChange

/-! ### The statements -/

/-- The engine with another memory of the same length, from the stream's first byte on (30_encoding.md R78). -/
def sameLengthChange (s : State) (m : Memory) : InputChange :=
  { stops := True, cfg := defaultConfig, first := 0x37, memory := m, len := s.inLen }

/-- Where a rule reads at the default offsets, the byte is not an ignored one. -/
theorem sameLengthChange_not_ignored {s : State} {m : Memory} {a : Nat} (h : (sameLengthChange s m).Reads a) :
    ¬ ignoredAddress a := by
  simp only [sameLengthChange, InputChange.Reads, defaultConfig, List.mem_cons, List.not_mem_nil, or_false] at h
  simp only [ignoredAddress]
  omega

/-- Settles O53: the magic, the header's fields, the default options and the stream are all the bytes that a step reads,
so the step over the other input has the same result, also where it fails or stops. -/
theorem ignoredHeaderBytesHaveNoEffect : Obligations.IgnoredHeaderBytesHaveNoEffect := by
  intro s m hcfg hcur hread
  have hfits : (sameLengthChange s m).Fits s :=
    ⟨hcfg, Nat.le_refl _, fun _ => rfl, fun a ha _ => hread a (sameLengthChange_not_ignored ha), hcur⟩
  have hfollows := InputChange.phaseMeaning_follows hfits (Or.inl trivial)
  have hstep : step { s with input := m } = settle (phaseMeaning s.phase ((sameLengthChange s m).apply s)) :=
    step_eq_settle _
  obtain ⟨hnext, hfault⟩ := InputChange.settle_follows trivial hfollows
  rw [step_eq_settle, hstep]
  refine ⟨fun t ht => ?_, hfault⟩
  obtain ⟨ht', hfits'⟩ := hnext t ht
  have hlen : s.inLen = t.inLen := hfits'.len_eq trivial
  refine ⟨ht'.trans ?_, hfits'.cursor⟩
  rw [InputChange.apply, sameLengthChange, hlen]

/-- The engine with bytes appended to its input. -/
def appendChange (s : State) (m : Memory) (n : Nat) : InputChange :=
  { stops := False, cfg := s.cfg, first := 0, memory := m, len := n }

/-- Settles O54: a step that does not fail completes its computation, and so does the step over the longer input, in the
same way. -/
theorem appendedBytesMatterOnlyAtTheEnd : Obligations.AppendedBytesMatterOnlyAtTheEnd := by
  intro s t m n hlen hread hnext hlive hexit
  have hfits : (appendChange s m n).Fits s := ⟨rfl, hlen, nofun, fun a _ ha => hread a ha, Nat.zero_le _⟩
  have hfollows := InputChange.phaseMeaning_follows hfits (Or.inr hexit)
  have hstep : step { s with input := m, inLen := n } =
      settle (phaseMeaning s.phase ((appendChange s m n).apply s)) :=
    step_eq_settle _
  rw [step_eq_settle] at hnext
  rcases settle_eq_next.1 hnext with ⟨_, hok⟩ | ⟨i, u, _, rfl⟩
  · rw [hok] at hfollows
    rw [hstep, hfollows.1]
    rfl
  · exact absurd rfl hlive

end Sys2Proof.Machine
end

section
/-! PROOFS. The bit cursor (40_bitcursor.md R102 to R107): which number a read and a preamble field take from the bits
that the buffer holds, and how a complete buffer answers each read: whole, or with a fault at its end. -/

namespace Sys2Proof.Machine

/-! ### Single reads -/

/-- A read past the end consumes no bit (R103). -/
theorem readBits_of_short {src : Source} {n p : Nat} (hn : 0 < n) (hp : 8 * src.len < p + n) :
    readBits src n p = .error (.raised (.bits p n)) p := by
  rw [readBits, if_neg (Nat.ne_of_gt hn), if_pos hp]

theorem peekBit_of_short {src : Source} {p : Nat} (hp : 8 * src.len < p + 1) :
    peekBit src p = .error (.raised (.bits p 1)) p := by
  rw [peekBit, if_pos hp]

theorem consumeBit_of_short {src : Source} {p : Nat} (hp : 8 * src.len < p + 1) :
    consumeBit src p = .error (.raised (.bits p 1)) p := by
  rw [consumeBit, bind_of_error (readBits_of_short Nat.one_pos hp)]

/-- Settles O2: both operations test the same end and take the one bit at the position. -/
theorem peekBitShowsTheBitConsumeBitTakes : Obligations.PeekBitShowsTheBitConsumeBitTakes := by
  intro src p hsrc
  refine ⟨fun hshort => ⟨peekBit_of_short hshort, consumeBit_of_short hshort⟩, fun hp => ?_⟩
  obtain ⟨b, hb⟩ := hsrc.bit hp
  exact ⟨b, hb, peekBit_of_bit hp hb, consumeBit_of_bit hp hb⟩

/-- `ReadBits` answers exactly the number whose bits the buffer holds at the position. -/
theorem readBits_eq_ok {src : Source} {n p v q : Nat} (hn : n ≠ 0) :
    readBits src n p = .ok v q ↔ q = p + n ∧ v < 2 ^ n ∧ src.Holds p (natBits n v) := by
  constructor
  · intro h
    obtain ⟨_, hq, hend⟩ := readBits_ok_bounds hn h
    exact readBits_ok_holds h (by omega)
  · rintro ⟨rfl, hv, hbits⟩
    exact readBits_of_holds hbits hv

/-! ### The bytes of `IN` under a read -/

/-- The bits held at a byte's first bit are the byte's own. -/
theorem Source.holds_byte {src : Source} {b : Nat} {x : Byte} (hb : b < src.len) (hx : src.memory.read b = some x) :
    src.Holds (8 * b) (natBits 8 x.toNat) := by
  refine ⟨by rw [natBits_length]; omega, fun k hk => ?_⟩
  rw [natBits_length] at hk
  rw [natBits_get 8 _ k hk, Source.bit, show (8 * b + k) / 8 = b by omega, hx, show (8 * b + k) % 8 = k by omega]
  rfl

/-- Two bytes side by side are one number of 16 bits, the first the more significant. -/
theorem Source.holds_two_bytes {src : Source} {b : Nat} {x y : Byte} (hb : b + 1 < src.len)
    (hx : src.memory.read b = some x) (hy : src.memory.read (b + 1) = some y) :
    src.Holds (8 * b) (natBits 16 (x.toNat * 256 + y.toNat)) := by
  have hy8 : y.toNat < 2 ^ 8 := y.isLt
  have hhigh : (x.toNat * 256 + y.toNat) >>> 8 = x.toNat := by rw [Nat.shiftRight_eq_div_pow]; omega
  have hlow : (x.toNat * 256 + y.toNat) % 2 ^ 8 = y.toNat := by omega
  rw [natBits_add 8 8, natBits_mod 8 (_ + _), hhigh, hlow, Source.holds_append, natBits_length]
  exact ⟨Source.holds_byte (by omega) hx, Source.holds_byte hb hy⟩

/-- Inside the bits of a number, with `a` of them in front and `c` behind, stands a shorter number. -/
theorem Source.Holds.natBits_middle {src : Source} {p a n c v : Nat} (h : src.Holds p (natBits (a + n + c) v)) :
    src.Holds (p + a) (natBits n (v >>> c % 2 ^ n)) := by
  rw [natBits_add, Source.holds_append, natBits_add, Source.holds_append, natBits_length] at h
  obtain ⟨⟨_, hmiddle⟩, _⟩ := h
  rwa [← natBits_mod]

/-- Eight bits from inside two bytes: the low bits of the first, then the high bits of the second. -/
theorem two_bytes_middle {x y r : Nat} (hy : y < 256) (hr : r < 8) :
    (x * 256 + y) >>> (8 - r) % 2 ^ 8 = x % 2 ^ (8 - r) * 2 ^ r + y / 2 ^ (8 - r) := by
  have hbyte : 2 ^ 8 = 256 := rfl
  have hsplit : 256 = 2 ^ r * 2 ^ (8 - r) := by rw [← Nat.pow_add, Nat.add_sub_cancel' (Nat.le_of_lt hr)]
  have hhigh : y / 2 ^ (8 - r) < 2 ^ r := Nat.div_lt_of_lt_mul (by rwa [Nat.mul_comm, ← hsplit])
  have hdiv : (x * 256 + y) / 2 ^ (8 - r) = y / 2 ^ (8 - r) + x * 2 ^ r := by
    rw [hsplit, ← Nat.mul_assoc, Nat.add_comm, Nat.add_mul_div_right _ _ (Nat.two_pow_pos _)]
  calc (x * 256 + y) >>> (8 - r) % 2 ^ 8
      = (y / 2 ^ (8 - r) + x * 2 ^ r) % 256 := by rw [Nat.shiftRight_eq_div_pow, hdiv, hbyte]
    _ = y / 2 ^ (8 - r) + 2 ^ r * (x % 2 ^ (8 - r)) := by
      rw [hsplit, Nat.mod_mul, Nat.add_mul_mod_self_right, Nat.mod_eq_of_lt hhigh,
        Nat.add_mul_div_right _ _ (Nat.two_pow_pos _), Nat.div_eq_of_lt hhigh, Nat.zero_add]
    _ = x % 2 ^ (8 - r) * 2 ^ r + y / 2 ^ (8 - r) := by rw [Nat.add_comm, Nat.mul_comm]

/-- Settles O1: a read that completes takes the number whose bits the buffer holds, and these bits are the bytes'. -/
theorem readBitsTakesMostSignificantBitFirst : Obligations.ReadBitsTakesMostSignificantBitFirst := by
  intro src n p hsrc
  refine ⟨?_, readBits_of_short, fun hp => ?_, fun b x hb hx => ⟨?_, fun y hb' hy => ⟨?_, fun r _ hr => ?_⟩⟩⟩
  · rintro rfl
    rfl
  · obtain ⟨v, hv⟩ := readBits_complete hsrc hp
    obtain ⟨_, hlt, _, hbits⟩ := readBits_ok_holds hv (by omega)
    rw [natBits_length] at hbits
    exact ⟨v, hv, hlt, fun k hk => (hbits k hk).trans (natBits_get n v k hk)⟩
  · exact readBits_of_holds (Source.holds_byte hb hx) x.isLt
  · have hx8 := x.isLt
    have hy8 := y.isLt
    exact readBits_of_holds (Source.holds_two_bytes hb' hx hy) (by omega)
  · have hholds := Source.holds_two_bytes hb' hx hy
    rw [show 16 = r + 8 + (8 - r) by omega] at hholds
    rw [← two_bytes_middle y.isLt hr]
    exact readBits_of_holds hholds.natBits_middle (Nat.mod_lt _ (by decide))

/-! ### Which number a preamble field is (R107) -/

/-- A number's low bytes, up to a byte `b` at place `k` and what stands below it, give both back. -/
theorem mod_and_byte_of_mod {w k b v : Nat} (hv : v < 2 ^ (8 * k)) (h : w % 2 ^ (8 * (k + 1)) = b * 2 ^ (8 * k) + v) :
    w % 2 ^ (8 * k) = v ∧ w >>> (8 * k) % 2 ^ 8 = b := by
  have hpos := Nat.two_pow_pos (8 * k)
  rw [Nat.mul_succ, Nat.pow_add, Nat.mod_mul] at h
  obtain ⟨hdiv, hmod⟩ := (Nat.div_mod_unique hpos).2 ⟨h, Nat.mod_lt w hpos⟩
  have hsum : v + 2 ^ (8 * k) * b = b * 2 ^ (8 * k) + v := by rw [Nat.add_comm, Nat.mul_comm]
  obtain ⟨hdiv', hmod'⟩ := (Nat.div_mod_unique hpos).2 ⟨hsum, hv⟩
  rw [Nat.shiftRight_eq_div_pow]
  exact ⟨hmod.symm.trans hmod', hdiv.symm.trans hdiv'⟩

/-- The byte loop keeps the low bytes it starts with, and the buffer holds the bytes it adds. -/
theorem readBytesLow_ok_holds {src : Source} {k n v p w q : Nat} (hp : p ≤ 8 * src.len) (hv : v < 2 ^ (8 * k))
    (h : readBytesLow src k n v p = .ok w q) : w % 2 ^ (8 * k) = v ∧ src.Holds p (lowByteBits k n w) := by
  induction n generalizing k v p with
  | zero =>
    cases h
    exact ⟨Nat.mod_eq_of_lt hv, hp, fun _ hk => absurd hk (Nat.not_lt_zero _)⟩
  | succ n ih =>
    obtain ⟨b, p', hread, hrest⟩ := bind_eq_ok.1 h
    obtain ⟨_, _, hend⟩ := readBits_ok_bounds (by omega) hread
    obtain ⟨rfl, hb, hbyte⟩ := readBits_ok_holds hread hp
    rw [Nat.or_comm, shiftLeft_or_eq_mul_add b hv] at hrest
    have hwide : b * 2 ^ (8 * k) + v < 2 ^ (8 * (k + 1)) :=
      calc b * 2 ^ (8 * k) + v
          < (b + 1) * 2 ^ (8 * k) := by rw [Nat.add_one_mul b]; exact Nat.add_lt_add_left hv _
        _ ≤ 2 ^ 8 * 2 ^ (8 * k) := Nat.mul_le_mul_right _ hb
        _ = 2 ^ (8 * (k + 1)) := by rw [← Nat.pow_add, Nat.mul_succ, Nat.add_comm]
    obtain ⟨hkept, hholds⟩ := ih hend hwide hrest
    obtain ⟨hlow, rfl⟩ := mod_and_byte_of_mod hv hkept
    rw [lowByteBits_succ, Source.holds_append, natBits_length]
    exact ⟨hlow, hbyte, hholds⟩

/-- A field that completes is the number whose bits, in the field order, the buffer holds at the position. -/
theorem readField_ok_holds {src : Source} {order : FieldOrder} {w : FieldWidth} {p v q : Nat}
    (h : readField src order w p = .ok v q) : src.Holds p (fieldBits order (w.bits / 8) v) := by
  obtain ⟨_, hq, hend⟩ := readField_ok_bounds h
  have hp : p ≤ 8 * src.len := by omega
  have whole {n : Nat} (h : readBits src n p = .ok v q) : src.Holds p (natBits n v) := (readBits_ok_holds h hp).2.2
  have low {n : Nat} (h : readBytesLow src 0 n 0 p = .ok v q) : src.Holds p (fieldBits .lsbByteFirst n v) := by
    rw [fieldBits_lsbByteFirst]
    exact (readBytesLow_ok_holds hp (by decide) h).2
  cases w with
  | w8 =>
    cases order with
    | msbFirst => exact whole h
    | lsbByteFirst => simpa [fieldBits, FieldWidth.bits] using whole h
  | w16 =>
    cases order with
    | msbFirst => exact whole h
    | lsbByteFirst => exact low h
  | w32 =>
    cases order with
    | msbFirst =>
      obtain ⟨hi, p1, hhi, hrest⟩ := bind_eq_ok.1 h
      obtain ⟨lo, p2, hlo, hpure⟩ := bind_eq_ok.1 hrest
      cases hpure
      obtain ⟨_, _, hend1⟩ := readBits_ok_bounds (by decide) hhi
      obtain ⟨rfl, _, hhigh⟩ := readBits_ok_holds hhi hp
      obtain ⟨_, hlt, hlow⟩ := readBits_ok_holds hlo hend1
      have hshift : (hi <<< 16 ||| lo) >>> 16 = hi := by
        rw [shiftLeft_or_eq_mul_add hi hlt, Nat.shiftRight_eq_div_pow]; omega
      have hmod : (hi <<< 16 ||| lo) % 2 ^ 16 = lo := by
        rw [shiftLeft_or_eq_mul_add hi hlt]; omega
      change src.Holds p (natBits (16 + 16) _)
      rw [natBits_add, natBits_mod 16 (_ ||| _), hshift, hmod, Source.holds_append, natBits_length]
      exact ⟨hhigh, hlow⟩
    | lsbByteFirst => exact low h

/-- `ReadField` answers exactly the number whose bits, in the field order, the buffer holds at the position. -/
theorem readField_eq_ok {src : Source} {order : FieldOrder} {w : FieldWidth} {p v q : Nat} :
    readField src order w p = .ok v q ↔
      q = p + w.bits ∧ v < 2 ^ w.bits ∧ src.Holds p (fieldBits order (w.bits / 8) v) := by
  constructor
  · intro h
    obtain ⟨hv, hq, _⟩ := readField_ok_bounds h
    exact ⟨hq, hv, readField_ok_holds h⟩
  · rintro ⟨rfl, hv, hbits⟩
    have hbytes : w.bits = 8 * (w.bits / 8) := by cases w <;> rfl
    rw [hbytes] at hv ⊢
    exact readField_of_holds hbytes hv hbits

/-- Settles O4: both answer the number whose 32 bits the buffer holds. -/
theorem wideFieldIsOneMsbFirstRead : Obligations.WideFieldIsOneMsbFirstRead := by
  intro src p v q
  rw [readField_eq_ok, readBits_eq_ok (by decide)]
  rfl

/-! ### A field is read whole or the run faults (R107) -/

/-- The operation takes `n` bits: all of them where the buffer has them, and otherwise it faults `TruncatedStream` at
the position it has reached. -/
def Source.Takes {α : Type} (src : Source) (n : Nat) (r : BitReader α) : Prop :=
  ∀ p, (p + n ≤ 8 * src.len → ∃ v, r p = .ok v (p + n)) ∧
    (0 < n → 8 * src.len < p + n → ∃ q k, r p = .error (.raised (.bits q k)) q)

theorem Source.Takes.pure {α : Type} (src : Source) (a : α) : src.Takes 0 (pure a : BitReader α) :=
  fun _ => ⟨fun _ => ⟨a, rfl⟩, fun h => absurd h (Nat.lt_irrefl 0)⟩

theorem Source.Takes.bind {α β : Type} {src : Source} {m n : Nat} {r : BitReader α} {f : α → BitReader β} (hm : 0 < m)
    (hr : src.Takes m r) (hf : ∀ a, src.Takes n (f a)) : src.Takes (m + n) (r >>= f) := by
  intro p
  by_cases hp : p + m ≤ 8 * src.len
  · obtain ⟨a, ha⟩ := (hr p).1 hp
    obtain ⟨hwhole, hshort⟩ := hf a (p + m)
    rw [bind_of_ok ha, ← Nat.add_assoc]
    exact ⟨hwhole, fun _ hlt => hshort (by omega) hlt⟩
  · obtain ⟨q, k, hfault⟩ := (hr p).2 hm (by omega)
    rw [bind_of_error hfault]
    exact ⟨fun hle => by omega, fun _ _ => ⟨q, k, rfl⟩⟩

section Complete

variable {src : Source}

theorem Source.Complete.takes_readBits (hsrc : src.Complete) (n : Nat) : src.Takes n (readBits src n) :=
  fun p => ⟨readBits_complete hsrc, fun hn hp => ⟨p, n, readBits_of_short hn hp⟩⟩

theorem Source.Complete.takes_readBytesLow (hsrc : src.Complete) (k n v : Nat) :
    src.Takes (8 * n) (readBytesLow src k n v) := by
  induction n generalizing k v with
  | zero => exact .pure src v
  | succ n ih =>
    rw [Nat.mul_succ, Nat.add_comm]
    exact .bind (by decide) (hsrc.takes_readBits 8) fun _ => ih _ _

theorem Source.Complete.takes_readField (hsrc : src.Complete) (order : FieldOrder) (w : FieldWidth) :
    src.Takes w.bits (readField src order w) := by
  cases w with
  | w8 => exact hsrc.takes_readBits 8
  | w16 =>
    cases order with
    | msbFirst => exact hsrc.takes_readBits 16
    | lsbByteFirst => exact hsrc.takes_readBytesLow 0 2 0
  | w32 =>
    cases order with
    | msbFirst =>
      exact .bind (by decide) (hsrc.takes_readBits 16) fun _ =>
        .bind (n := 0) (by decide) (hsrc.takes_readBits 16) fun _ => .pure src _
    | lsbByteFirst => exact hsrc.takes_readBytesLow 0 4 0

end Complete

/-- The bits of a number's low bytes, in the stream's order: byte by byte upwards, each from its top bit down. -/
theorem Source.Holds.bit_lowByteBits {src : Source} {p k n v j i : Nat} (h : src.Holds p (lowByteBits k n v))
    (hj : j < n) (hi : i < 8) : src.bit (p + 8 * j + i) = some (v.testBit (8 * (k + j) + (7 - i))) := by
  induction n generalizing p k j with
  | zero => exact absurd hj (Nat.not_lt_zero j)
  | succ n ih =>
    rw [lowByteBits_succ, ← natBits_mod, Source.holds_append, natBits_length] at h
    obtain ⟨⟨_, hbyte⟩, hrest⟩ := h
    cases j with
    | zero =>
      rw [natBits_length] at hbyte
      exact (hbyte i hi).trans ((natBits_get 8 _ i hi).trans (by rw [Nat.testBit_shiftRight]; rfl))
    | succ j =>
      have hbit := ih hrest (Nat.lt_of_succ_lt_succ hj)
      rwa [Nat.add_right_comm p, Nat.add_assoc p, ← Nat.mul_succ, Nat.succ_add_eq_add_succ] at hbit

/-- Settles O3: a field takes its bits or faults at the end, and the number it answers has the bits that the buffer
holds, in the field order. -/
theorem readFieldAssemblesByFieldOrder : Obligations.ReadFieldAssemblesByFieldOrder := by
  intro src order w p hsrc
  obtain ⟨hwhole, hshort⟩ := hsrc.takes_readField order w p
  refine ⟨hshort (by cases w <;> decide), fun hp => ?_⟩
  obtain ⟨v, hread⟩ := hwhole hp
  obtain ⟨_, hv, hholds⟩ := readField_eq_ok.1 hread
  refine ⟨v, hread, hv, ?_, ?_⟩
  · rintro rfl k hk
    have hbits : 8 * (w.bits / 8) = w.bits := by cases w <;> rfl
    rw [fieldBits, hbits] at hholds
    obtain ⟨_, hbit⟩ := hholds
    rw [natBits_length] at hbit
    exact (hbit k hk).trans (natBits_get _ v k hk)
  · rintro rfl j i hj hi
    rw [fieldBits_lsbByteFirst] at hholds
    simpa using hholds.bit_lowByteBits hj hi

end Sys2Proof.Machine
end

section
/-! PROOFS. The statements of 41_header_options.md: the steps `ReadHeader` (R121, R122) and `ReadOptions` (R125, R126)
as computations with a known outcome. -/

namespace Sys2Proof.Machine

/-! ### The steps of the two phases and the byte they read -/

theorem step_of_readHeader {s : State} (hphase : s.phase = .readHeader) : step s = settle (readHeader s) := by
  rw [step_eq_settle, hphase]
  rfl

theorem step_of_readOptions {s : State} (hphase : s.phase = .readOptions) : step s = settle (readOptions s) := by
  rw [step_eq_settle, hphase]
  rfl

theorem memReadIn_of_read {a : Nat} {s : State} {b : Byte} (ha : a < s.inLen) (hb : s.input.read a = some b) :
    memReadIn a s = .ok b s :=
  memReadIn_eq_ok.2 ⟨ha, hb, rfl⟩

/-! ### The magic -/

/-- The bytes that match are passed over, each once (41_header_options.md R122). -/
theorem checkMagic_skip {a k : Nat} {ms : List Byte} {s : State} (hk : k ≤ ms.length) (hlen : a + k ≤ s.inLen)
    (hmatch : ∀ j < k, s.input.read (a + j) = ms[j]?) : checkMagic a ms s = checkMagic (a + k) (ms.drop k) s := by
  induction k generalizing a ms with
  | zero => rfl
  | succ k ih =>
    cases ms with
    | nil => exact absurd hk (Nat.not_succ_le_zero k)
    | cons m ms =>
      have hread : memReadIn a s = .ok m s := memReadIn_of_read (by omega) (hmatch 0 (Nat.succ_pos k))
      have hrest : ∀ j < k, s.input.read (a + 1 + j) = ms[j]? := fun j hj => by
        rw [Nat.add_right_comm]
        exact hmatch (j + 1) (Nat.succ_lt_succ hj)
      rw [checkMagic, bind_of_ok hread, if_neg (not_not_intro rfl), ih (Nat.le_of_succ_le_succ hk) (by omega) hrest,
        Nat.add_right_comm, List.drop_succ_cons, Nat.add_assoc]

theorem checkMagic_of_match {a : Nat} {ms : List Byte} {s : State} (hlen : a + ms.length ≤ s.inLen)
    (hmatch : ∀ j < ms.length, s.input.read (a + j) = ms[j]?) : checkMagic a ms s = .ok () s := by
  rw [checkMagic_skip (Nat.le_refl _) hlen hmatch, List.drop_length]
  rfl

theorem checkMagic_of_first_mismatch {a k : Nat} {ms : List Byte} {s : State} {b : Byte} (hk : k < ms.length)
    (hlen : a + k < s.inLen) (hmatch : ∀ j < k, s.input.read (a + j) = ms[j]?)
    (hread : s.input.read (a + k) = some b) (hdiffer : some b ≠ ms[k]?) :
    checkMagic a ms s = .error (.raised (.headerMagic (a + k))) s := by
  rw [List.getElem?_eq_getElem hk] at hdiffer
  rw [checkMagic_skip (Nat.le_of_lt hk) (Nat.le_of_lt hlen) hmatch, List.drop_eq_getElem_cons hk, checkMagic,
    bind_of_ok (memReadIn_of_read hlen hread), if_pos fun heq => hdiffer (congrArg some heq)]
  rfl

/-! ### The words of the header -/

/-- Four bytes fill a word without a wrap, so its number is theirs (20_memory.md R50). -/
theorem le32_toNat (b0 b1 b2 b3 : Byte) :
    (le32 b0 b1 b2 b3).toNat = b0.toNat + 256 * b1.toNat + 65536 * b2.toNat + 16777216 * b3.toNat := by
  rw [le32, BitVec.toNat_ofNat, Nat.mod_eq_of_lt]
  omega

/-- The high half of the checksum counts `2^32` (30_encoding.md R74). -/
theorem toNat_append_word32 (hi lo : Word32) : (hi ++ lo).toNat = 2 ^ 32 * hi.toNat + lo.toNat := by
  rw [BitVec.toNat_append, shiftLeft_or_eq_mul_add hi.toNat lo.isLt, Nat.mul_comm]

theorem memReadIn_inputByte {s : State} (hinput : s.InputComplete) {a : Nat} (ha : a < s.inLen) :
    ∃ b, memReadIn a s = .ok b s ∧ b.toNat = s.inputByte a := by
  obtain ⟨b, hb⟩ := hinput.read_of_lt ha
  exact ⟨b, memReadIn_of_read ha hb, by rw [State.inputByte, show s.input.read a = some b from hb]⟩

theorem readLE32_inputLE32 {s : State} (hinput : s.InputComplete) {a : Nat} (ha : a + 3 < s.inLen) :
    ∃ w, readLE32 a s = .ok w s ∧ w.toNat = s.inputLE32 a := by
  obtain ⟨b0, h0, hv0⟩ := memReadIn_inputByte hinput (a := a) (by omega)
  obtain ⟨b1, h1, hv1⟩ := memReadIn_inputByte hinput (a := a + 1) (by omega)
  obtain ⟨b2, h2, hv2⟩ := memReadIn_inputByte hinput (a := a + 2) (by omega)
  obtain ⟨b3, h3, hv3⟩ := memReadIn_inputByte hinput ha
  refine ⟨le32 b0 b1 b2 b3, ?_, ?_⟩
  · rw [readLE32, bind_of_ok h0, bind_of_ok h1, bind_of_ok h2, bind_of_ok h3, pure_run]
  · rw [le32_toNat, hv0, hv1, hv2, hv3, State.inputLE32]

/-! ### The header -/

theorem overBudget_iff {maxOutput : Option Nat} {declen : Word32} :
    overBudget maxOutput declen = true ↔ ∃ m, maxOutput = some m ∧ m < declen.toNat := by
  cases maxOutput <;> simp [overBudget]

theorem readHeader_of_short {s : State} (hlen : s.inLen < minStreamLength) :
    readHeader s = .error (.raised (.headerShort s.inLen)) s := by
  rw [InputChange.readHeader_run, if_pos hlen]

theorem readHeader_of_magic_error {s : State} (hlen : minStreamLength ≤ s.inLen) {e : Stop}
    (hmagic : checkMagic 0 magic s = .error e s) : readHeader s = .error e s := by
  rw [InputChange.readHeader_run, if_neg (Nat.not_lt.2 hlen), InputChange.readHeaderFields, bind_of_error hmagic]

/-- Behind the magic the header registers are written first and the budget checked last (41_header_options.md R121). -/
theorem readHeader_of_magic_ok {s : State} (hinput : s.InputComplete) (hlen : minStreamLength ≤ s.inLen)
    (hmagic : checkMagic 0 magic s = .ok () s) :
    ∃ (d : Word32) (c : Word64), d.toNat = s.inputLE32 declenOffset ∧
      c.toNat = 2 ^ 32 * s.inputLE32 csumHighOffset + s.inputLE32 csumLowOffset ∧
      readHeader s =
        if overBudget s.maxOutput d then .error (.raised (.budget d)) (s.withHeader d c)
        else .ok () ((s.withHeader d c).withPhase .readOptions) := by
  have hwords : declenOffset + 3 < s.inLen ∧ csumHighOffset + 3 < s.inLen ∧ csumLowOffset + 3 < s.inLen := by
    rw [minStreamLength] at hlen
    rw [declenOffset, csumHighOffset, csumLowOffset]
    omega
  obtain ⟨hdLt, hhiLt, hloLt⟩ := hwords
  obtain ⟨d, hd, hdval⟩ := readLE32_inputLE32 hinput hdLt
  obtain ⟨hi, hhi, hhival⟩ := readLE32_inputLE32 hinput hhiLt
  obtain ⟨lo, hlo, hloval⟩ := readLE32_inputLE32 hinput hloLt
  refine ⟨d, hi ++ lo, hdval, by rw [toNat_append_word32, hhival, hloval], ?_⟩
  rw [InputChange.readHeader_run, if_neg (Nat.not_lt.2 hlen), InputChange.readHeaderFields, bind_of_ok hmagic,
    bind_of_ok hd, bind_of_ok hhi, bind_of_ok hlo, update_bind_run, ite_run, raise_run, update_run]

/-- Settles O6: a buffer of `0x37` bytes holds the magic's 16 and the header's three words, so each check decides the
step where its turn comes. -/
theorem readHeaderChecksThenLoads : Obligations.ReadHeaderChecksThenLoads := by
  refine ⟨rfl, fun s hphase hinput => ?_⟩
  rw [step_of_readHeader hphase]
  refine ⟨fun hshort => ?_, fun hlen a ha hmatch hdiffer => ?_, fun hlen hmatch => ?_⟩
  · rw [readHeader_of_short hshort, settle_raised]
  · obtain ⟨b, hb⟩ : ∃ b, s.input.read a = some b := hinput.read_of_lt (show a < s.inLen by omega)
    rw [hb] at hdiffer
    have hmagic : checkMagic 0 magic s = .error (.raised (.headerMagic (0 + a))) s :=
      checkMagic_of_first_mismatch ha (by omega) (by simpa using hmatch) (by rwa [Nat.zero_add]) hdiffer
    rw [readHeader_of_magic_error hlen hmagic, settle_raised, Nat.zero_add]
  · have hmagic : checkMagic 0 magic s = .ok () s :=
      checkMagic_of_match (show 0 + 16 ≤ s.inLen by omega) fun j hj => by
        rw [Nat.zero_add]
        exact hmatch j hj
    obtain ⟨d, c, hd, hc, hrun⟩ := readHeader_of_magic_ok hinput hlen hmagic
    refine ⟨d, c, hd, hc, fun hover => ?_, fun hwithin => ?_⟩
    · rw [hrun, if_pos (overBudget_iff.2 hover)]
      rfl
    · have hnot : ¬ overBudget s.maxOutput d = true := fun hover => by
        obtain ⟨m, hm, hlt⟩ := overBudget_iff.1 hover
        exact absurd (hwithin m hm) (Nat.not_le.2 hlt)
      rw [hrun, if_neg hnot]
      rfl

/-! ### The options -/

/-- The options are stored as they are read, whether the check that follows passes or not (41_header_options.md R125). -/
theorem readOptions_of_reads {s : State} {raw min ub lbc base : Byte}
    (hraw : memReadIn s.cfg.optionOffsets.raw s = .ok raw s) (hmin : memReadIn s.cfg.optionOffsets.min s = .ok min s)
    (hub : memReadIn s.cfg.optionOffsets.ub s = .ok ub s) (hlbc : memReadIn s.cfg.optionOffsets.lbc s = .ok lbc s)
    (hbase : memReadIn s.cfg.optionOffsets.base s = .ok base s) :
    readOptions s =
      if optionsValid raw min ub lbc base then
        .ok () (((s.withOptions raw min ub lbc base).withDerived (huffBitCount raw min)).withPhase .buildTable)
      else .error (.raised (.options raw min ub lbc base)) (s.withOptions raw min ub lbc base) := by
  rw [readOptions, get_bind_run, bind_of_ok hraw, bind_of_ok hmin, bind_of_ok hub, bind_of_ok hlbc, bind_of_ok hbase,
    update_bind_run, ite_run, raise_run, update_run]

/-- Settles O7: the five bytes are stored, and the statement's conjunction is the check on them. -/
theorem readOptionsAcceptsExactlyValidOptions : Obligations.ReadOptionsAcceptsExactlyValidOptions := by
  intro s raw min ub lbc base hphase hrawLt hraw hminLt hmin hubLt hub hlbcLt hlbc hbaseLt hbase
  have hrun := readOptions_of_reads (memReadIn_of_read hrawLt hraw) (memReadIn_of_read hminLt hmin)
    (memReadIn_of_read hubLt hub) (memReadIn_of_read hlbcLt hlbc) (memReadIn_of_read hbaseLt hbase)
  have hcheck := optionsValid_iff raw min ub lbc base
  simp only [and_assoc, huffBitCount] at hcheck
  rw [step_of_readOptions hphase, hrun, ← hcheck]
  refine ⟨fun hvalid => ?_, fun hinvalid => ?_⟩
  · rw [if_pos hvalid]
    rfl
  · rw [if_neg hinvalid]
    rfl

end Sys2Proof.Machine
end

section
/-! PROOFS. The scan of 42_table_builder.md R149: among the eligible slots below `current` it finds the least by weight,
then index, and the least of the rest. -/

namespace Sys2Proof.Machine

/-! ### The order of the slots -/

/-- Slot `i` stands before slot `j` by weight, then index (42_table_builder.md R149). -/
def Arena.Before (t : Arena) (i j : Nat) : Prop :=
  t.ov i < t.ov j ∨ (t.ov i = t.ov j ∧ i < j)

/-- The first of the slots in `P`. -/
def Arena.Least (t : Arena) (P : Nat → Prop) (a : Nat) : Prop :=
  P a ∧ ∀ j, P j → j ≠ a → t.Before a j

section Order

variable {t u : Arena} {P Q : Nat → Prop} {a i j k n : Nat}

theorem Arena.Before.trans (h : t.Before i j) (h' : t.Before j k) : t.Before i k := by
  unfold Arena.Before at *
  bv_omega

theorem Arena.Before.asymm (h : t.Before i j) : ¬ t.Before j i := by
  unfold Arena.Before at *
  bv_omega

/-- The scan's strict comparison with a slot to the left. -/
theorem Arena.before_of_lt (h : t.ov n < t.ov a) : t.Before n a :=
  Or.inl h

theorem Arena.before_of_not_lt (hlt : a < n) (h : ¬ t.ov n < t.ov a) : t.Before a n := by
  unfold Arena.Before
  bv_omega

/-- A lone slot is the least one. -/
theorem Arena.Least.of_lone (h : ∀ i, P i ↔ i = a) : t.Least P a :=
  ⟨(h a).2 rfl, fun j hj hne => absurd ((h j).1 hj) hne⟩

/-- There is at most one least slot. -/
theorem Arena.Least.eq_iff (h : t.Least P a) : a = i ↔ t.Least P i := by
  refine ⟨fun hi => hi ▸ h, fun hi => Decidable.byContradiction fun hne => ?_⟩
  exact (h.2 i hi.1 (Ne.symm hne)).asymm (hi.2 a h.1 hne)

/-- Whether a slot is the least depends on the slots compared and their weights alone. -/
theorem Arena.Least.congr (h : t.Least P a) (hP : ∀ j, P j ↔ Q j) (hov : ∀ j, P j → u.ov j = t.ov j) :
    u.Least Q a := by
  refine ⟨(hP a).1 h.1, fun j hj hne => ?_⟩
  have hj' := (hP j).2 hj
  rw [Arena.Before, hov a h.1, hov j hj']
  exact h.2 j hj' hne

/-- A slot added behind the least one. -/
theorem Arena.Least.insert_after (h : t.Least P a) (hQ : ∀ j, Q j ↔ P j ∨ j = n) (hn : t.Before a n) :
    t.Least Q a := by
  refine ⟨(hQ a).2 (Or.inl h.1), fun j hj hne => ?_⟩
  rcases (hQ j).1 hj with hj | rfl
  · exact h.2 j hj hne
  · exact hn

/-- A slot added before the least one. -/
theorem Arena.Least.insert_before (h : t.Least P a) (hQ : ∀ j, Q j ↔ P j ∨ j = n) (hn : t.Before n a) :
    t.Least Q n := by
  refine ⟨(hQ n).2 (Or.inr rfl), fun j hj hne => ?_⟩
  rcases (hQ j).1 hj with hj | rfl
  · by_cases hja : j = a
    · exact hja ▸ hn
    · exact hn.trans (h.2 j hj hja)
  · exact absurd rfl hne

end Order

/-! ### The scan -/

/-- A slot the scan below `n` may choose (42_table_builder.md R146). -/
def Arena.Candidate (t : Arena) (n i : Nat) : Prop :=
  i < n ∧ t.ov i ≠ 0 ∧ t.bv i = none

theorem Arena.candidate_iff {t : Arena} {n i : Nat} : t.Candidate n i ↔ i < n ∧ t.eligible i = true := by
  rw [Arena.Candidate, Arena.eligible_iff]

theorem Arena.candidate_succ {t : Arena} {n i : Nat} :
    t.Candidate (n + 1) i ↔ t.Candidate n i ∨ i = n ∧ t.eligible n = true := by
  rw [Arena.candidate_iff, Arena.candidate_iff, Nat.lt_succ_iff_lt_or_eq, or_and_right]
  exact or_congr_right (and_congr_right fun h => by rw [h])

/-- What the scan below `n` answers: how many candidates there are, up to two, and the least ones. -/
inductive Scanned (t : Arena) (n : Nat) : Option Nat × Option Nat → Prop
  | none (h : ∀ i, ¬ t.Candidate n i) : Scanned t n (none, none)
  | one {a : Nat} (h : ∀ i, t.Candidate n i ↔ i = a) : Scanned t n (some a, none)
  | two {a b : Nat} (first : t.Least (t.Candidate n) a) (second : t.Least (fun i => t.Candidate n i ∧ i ≠ a) b) :
      Scanned t n (some a, some b)

/-- One more slot scanned: not eligible, it changes nothing; eligible, it takes its place in the order. -/
theorem Scanned.step {t : Arena} {n : Nat} {best : Option Nat × Option Nat} (h : Scanned t n best) :
    Scanned t (n + 1) (scanSlot t best n) := by
  by_cases he : t.eligible n = true
  · have hsucc (i : Nat) : t.Candidate (n + 1) i ↔ t.Candidate n i ∨ i = n := by
      rw [Arena.candidate_succ, and_iff_left he]
    have hrest {a : Nat} (ha : a < n) (i : Nat) :
        t.Candidate (n + 1) i ∧ i ≠ a ↔ (t.Candidate n i ∧ i ≠ a) ∨ i = n := by
      rw [hsucc, or_and_right]
      exact or_congr_right (and_iff_left_of_imp fun h => by omega)
    have hold (i : Nat) : t.Candidate n i ↔ t.Candidate (n + 1) i ∧ i ≠ n := by
      rw [hsucc, or_and_right, and_iff_left_of_imp fun h : t.Candidate n i => Nat.ne_of_lt h.1]
      simp
    cases h with
    | none h =>
      simp only [scanSlot, he, if_true]
      exact .one fun i => by rw [hsucc, or_iff_right (h i)]
    | @one a h =>
      have hlone : t.Least (t.Candidate n) a := .of_lone h
      have ha : a < n := hlone.1.1
      simp only [scanSlot, he, if_true]
      split
      · rename_i hlt
        exact .two (hlone.insert_before hsucc (Arena.before_of_lt hlt)) (hlone.congr hold fun _ _ => rfl)
      · rename_i hlt
        refine .two (hlone.insert_after hsucc (Arena.before_of_not_lt ha hlt)) (.of_lone fun i => ?_)
        rw [hrest ha, h, and_not_self_iff, false_or]
    | @two a b first second =>
      have ha : a < n := first.1.1
      have hb : b < n := second.1.1.1
      simp only [scanSlot, he, if_true]
      split
      · rename_i hlt
        exact .two (first.insert_before hsucc (Arena.before_of_lt hlt)) (first.congr hold fun _ _ => rfl)
      · rename_i hlt
        have first' := first.insert_after hsucc (Arena.before_of_not_lt ha hlt)
        split
        · rename_i hlt'
          exact .two first' (second.insert_before (hrest ha) (Arena.before_of_lt hlt'))
        · rename_i hlt'
          exact .two first' (second.insert_after (hrest ha) (Arena.before_of_not_lt hb hlt'))
  · have hsame : t.Candidate (n + 1) = t.Candidate n := by
      funext i
      rw [Arena.candidate_succ, eq_false he, and_false, or_false]
    rw [scanSlot_of_not_eligible he]
    cases h with
    | none h => exact .none (hsame ▸ h)
    | one h => exact .one (hsame ▸ h)
    | two first second => exact .two (hsame ▸ first) (hsame ▸ second)

theorem twoSmallest_scanned (t : Arena) (n : Nat) : Scanned t n (twoSmallest t n) := by
  induction n with
  | zero => exact .none fun i h => Nat.not_lt_zero i h.1
  | succ n ih =>
    rw [twoSmallest_succ]
    exact ih.step

/-- Settles O9, by what the scan answers: the least slot and the least of the rest are unique. -/
theorem twoSmallestAreLexicographicallyLeast : Obligations.TwoSmallestAreLexicographicallyLeast := by
  intro t n e before
  have hscan := twoSmallest_scanned t n
  generalize twoSmallest t n = best at hscan
  cases hscan with
  | none h =>
    refine ⟨iff_of_true rfl h, fun a => iff_of_false nofun fun ha => h a ha.1, fun b => iff_of_false nofun ?_⟩
    rintro ⟨_, ⟨⟩, _⟩
  | @one a h =>
    have hlone : t.Least (t.Candidate n) a := .of_lone h
    refine ⟨iff_of_false nofun fun hnone => hnone a hlone.1, fun i => ?_, fun b => iff_of_false nofun ?_⟩
    · exact Option.some_inj.trans hlone.eq_iff
    · rintro ⟨_, ⟨⟩, hb, hne, _⟩
      exact hne ((h b).1 hb)
  | @two a b first second =>
    refine ⟨iff_of_false nofun fun hnone => hnone a first.1, fun i => ?_, fun i => ?_⟩
    · exact Option.some_inj.trans first.eq_iff
    · refine Option.some_inj.trans (second.eq_iff.trans ⟨?_, ?_⟩)
      · rintro ⟨⟨hi, hne⟩, hleast⟩
        exact ⟨a, rfl, hi, hne, fun j hj hja => hleast j ⟨hj, hja⟩⟩
      · rintro ⟨_, ⟨⟩, hi, hne, hleast⟩
        exact ⟨⟨hi, hne⟩, fun j ⟨hj, hja⟩ => hleast j hj hja⟩

end Sys2Proof.Machine
end

section
/-! PROOFS. The merge stage of 42_table_builder.md R147, R148, R150: what one merge writes, what stands before every
round, and how the stage ends. -/

namespace Sys2Proof.Machine

/-! ### One merge -/

section Merge

variable {t : Arena} {c a b i : Nat}

theorem mergeNode_ov_new (hac : c ≠ a) (hbc : c ≠ b) : (mergeNode t c a b).ov c = t.ov a + t.ov b := by
  rw [Arena.ov, mergeNode_get_new hac hbc]

theorem mergeNode_bv_eq_none : (mergeNode t c a b).bv i = none ↔ t.bv i = none ∧ i ≠ a ∧ i ≠ b := by
  rw [mergeNode_bv]
  by_cases hb : i = b
  · rw [if_pos hb]
    exact iff_of_false nofun fun h => h.2.2 hb
  · rw [if_neg hb]
    by_cases ha : i = a
    · rw [if_pos ha]
      exact iff_of_false nofun fun h => h.2.1 ha
    · rw [if_neg ha, and_iff_left ⟨ha, hb⟩]

/-- A merge takes exactly two of the eligible slots below the new node. -/
theorem eligibleCount_mergeNode_old (hab : a ≠ b) (hac : a < c) (hbc : b < c) (ha : t.eligible a = true)
    (hb : t.eligible b = true) : eligibleCount (mergeNode t c a b) c + 2 = eligibleCount t c := by
  have hb' : (t.setBv a true).eligible b = true := (eligible_setBv_other (Ne.symm hab)).trans hb
  rw [eligibleCount_congr fun i hi => eligible_mergeNode_old (t := t) (a := a) (b := b) (Nat.ne_of_lt hi),
    ← eligibleCount_setBv (x := true) hac ha, ← eligibleCount_setBv (x := false) hbc hb']

end Merge

/-- Settles O10: each field is read off the entries that a merge leaves. -/
theorem mergeWritesTwoBitsAndOneNode : Obligations.MergeWritesTwoBitsAndOneNode := by
  intro t c a b hab hac hbc
  refine ⟨?_, ?_, ?_, mergeNode_cl_new, mergeNode_ch_new, fun i hia hib => ?_, fun i hic => ?_⟩
  · rw [mergeNode_bv, if_neg hab, if_pos rfl]
  · rw [mergeNode_bv, if_pos rfl]
  · rw [mergeNode_ov_new (Nat.ne_of_gt hac) (Nat.ne_of_gt hbc), BitVec.toNat_add]
  · rw [mergeNode_bv, if_neg hib, if_neg hia]
  · exact ⟨mergeNode_ov_other hic, mergeNode_cl_other hic, mergeNode_ch_other hic⟩

/-! ### How the stage ends -/

/-- Settles O11: what stands before every round of the stage stands at its end. -/
theorem mergeStageBuildsFullTree : Obligations.MergeStageBuildsFullTree := by
  intro f t hf
  obtain ⟨hfirst, hlast, _, htree, hframe⟩ := mergeStage_mergeInv hf t
  exact ⟨hfirst, hlast, htree, fun i hi => hframe i (Nat.le_trans hlast hi)⟩

theorem eligibleCount_eq_zero_iff {t : Arena} {n : Nat} : eligibleCount t n = 0 ↔ ∀ i, ¬ t.Candidate n i := by
  simp only [eligibleCount, List.countP_eq_zero, List.mem_range, Arena.candidate_iff, not_and]

/-- A lone candidate is the one eligible slot. -/
theorem eligibleCount_of_lone {t : Arena} {n a : Nat} (h : ∀ i, t.Candidate n i ↔ i = a) : eligibleCount t n = 1 := by
  obtain ⟨ha, he⟩ := Arena.candidate_iff.1 ((h a).2 rfl)
  rw [← eligibleCount_setBv (x := true) ha he, eligibleCount_eq_zero_iff.2]
  intro i hi
  obtain ⟨hin, hie⟩ := Arena.candidate_iff.1 hi
  by_cases hia : i = a
  · rw [hia, eligible_setBv_same] at hie
    cases hie
  · rw [eligible_setBv_other hia] at hie
    exact hia ((h i).1 (Arena.candidate_iff.2 ⟨hin, hie⟩))

/-- Two candidates are two eligible slots. -/
theorem two_le_eligibleCount {t : Arena} {n a b : Nat} (ha : t.Candidate n a) (hb : t.Candidate n b) (hab : a ≠ b) :
    2 ≤ eligibleCount t n := by
  obtain ⟨han, hae⟩ := Arena.candidate_iff.1 ha
  obtain ⟨hbn, hbe⟩ := Arena.candidate_iff.1 hb
  exact (eligibleCount_mergeNode hab han hbn hae hbe).2

/-- How the stage ends over the arena `u` with `d` next: no candidate, one that is the root, or one that is a lone
terminal and gets bit value 1 (42_table_builder.md R150). -/
inductive MergeEnd (f : Nat) (u : Arena) (d : Nat) : Arena × Nat → Prop
  | none (h : ∀ i, ¬ u.Candidate d i) : MergeEnd f u d (u, d)
  | root {a : Nat} (h : ∀ i, u.Candidate d i ↔ i = a) (hd : f < d) : MergeEnd f u d (u, d)
  | lone {a : Nat} (h : ∀ i, u.Candidate d i ↔ i = a) (hd : d ≤ f) : MergeEnd f u d (u.setBv a true, d)

/-- One round of the loop: the stage ends, or the two least candidates are joined. -/
theorem mergeLoop_round (f n : Nat) (t : Arena) (c : Nat) :
    MergeEnd f t c (mergeLoop f (n + 1) t c) ∨
      ∃ a b, twoSmallest t c = (some a, some b) ∧ t.Least (t.Candidate c) a ∧
        t.Least (fun i => t.Candidate c i ∧ i ≠ a) b ∧
        mergeLoop f (n + 1) t c = mergeLoop f n (mergeNode t c a b) (c + 1) := by
  have hscan := twoSmallest_scanned t c
  rw [mergeLoop]
  generalize twoSmallest t c = best at hscan
  cases hscan with
  | none h => exact Or.inl (.none h)
  | one h =>
    dsimp only
    split
    · rename_i hc
      exact Or.inl (.lone h hc)
    · rename_i hc
      exact Or.inl (.root h (Nat.lt_of_not_le hc))
  | two first second => exact Or.inr ⟨_, _, rfl, first, second, rfl⟩

/-- What every merge of two least candidates keeps stands where the stage ends, which it does with a round for each
eligible slot and one more. -/
theorem mergeLoop_ends {f : Nat} {P : Arena → Nat → Prop}
    (hmerge : ∀ t c a b, P t c → twoSmallest t c = (some a, some b) → t.Least (t.Candidate c) a →
      t.Least (fun i => t.Candidate c i ∧ i ≠ a) b → P (mergeNode t c a b) (c + 1))
    {n : Nat} {t : Arena} {c : Nat} (h : P t c) (hn : eligibleCount t c < n) :
    ∃ u d, P u d ∧ MergeEnd f u d (mergeLoop f n t c) := by
  induction n generalizing t c with
  | zero => exact absurd hn (Nat.not_lt_zero _)
  | succ n ih =>
    rcases mergeLoop_round f n t c with hend | ⟨a, b, hs, first, second, heq⟩
    · exact ⟨t, c, h, hend⟩
    · obtain ⟨hac, hae⟩ := Arena.candidate_iff.1 first.1
      obtain ⟨hbc, hbe⟩ := Arena.candidate_iff.1 second.1.1
      have hless := (eligibleCount_mergeNode (Ne.symm second.1.2) hac hbc hae hbe).1
      rw [heq]
      exact ih (hmerge t c a b h hs first second) (by omega)

/-! ### The greedy choice -/

/-- No node before `n` has slot `i` for a child. -/
def Arena.NoParent (t : Arena) (f n i : Nat) : Prop :=
  ∀ m, f ≤ m → m < n → t.cl m ≠ some i ∧ t.ch m ≠ some i

/-- Slot `i` stands free for the node `n`: below it, of a weight other than 0, and no child of an earlier node. -/
def Arena.Free (t : Arena) (f n i : Nat) : Prop :=
  i < n ∧ t.ov i ≠ 0 ∧ t.NoParent f n i

/-- Node `n` joins the two least of the slots that stand free for it. -/
def Arena.JoinsLeast (t : Arena) (f n : Nat) : Prop :=
  ∃ a b, t.cl n = some a ∧ t.ch n = some b ∧ t.Least (t.Free f n) a ∧
    t.Least (fun i => t.Free f n i ∧ i ≠ a) b ∧ t.bv a = some true ∧ t.bv b = some false ∧
    t.ov n = t.ov a + t.ov b

/-- The weights and children below `n` say which slots stand free for it. -/
theorem Arena.free_congr {t u : Arena} {f n i : Nat}
    (h : ∀ m < n, u.ov m = t.ov m ∧ u.cl m = t.cl m ∧ u.ch m = t.ch m) : t.Free f n i ↔ u.Free f n i := by
  refine and_congr_right fun hi => and_congr (by rw [(h i hi).1]) ?_
  refine forall_congr' fun m => imp_congr_right fun _ => imp_congr_right fun hm => ?_
  obtain ⟨_, hcl, hch⟩ := h m hm
  rw [hcl, hch]

theorem Arena.JoinsLeast.congr {t u : Arena} {f n : Nat} (hjoin : t.JoinsLeast f n)
    (h : ∀ m ≤ n, u.ov m = t.ov m ∧ u.cl m = t.cl m ∧ u.ch m = t.ch m)
    (hbv : ∀ i x, t.bv i = some x → u.bv i = some x) : u.JoinsLeast f n := by
  obtain ⟨a, b, hcl, hch, first, second, hlow, hhigh, hsum⟩ := hjoin
  obtain ⟨hov, hcl', hch'⟩ := h n (Nat.le_refl n)
  have hfree (i : Nat) : t.Free f n i ↔ u.Free f n i := Arena.free_congr fun m hm => h m (Nat.le_of_lt hm)
  have hweight (i : Nat) (hi : t.Free f n i) : u.ov i = t.ov i := (h i (Nat.le_of_lt hi.1)).1
  refine ⟨a, b, hcl'.trans hcl, hch'.trans hch, first.congr hfree hweight,
    second.congr (fun i => and_congr_left fun _ => hfree i) fun i hi => hweight i hi.1, hbv a _ hlow, hbv b _ hhigh, ?_⟩
  rw [hov, hweight a first.1, hweight b second.1.1, hsum]

/-- A merge gives a parent to the two slots it joins. -/
theorem Arena.noParent_mergeNode {t : Arena} {f c a b i : Nat} (hc : f ≤ c) :
    (mergeNode t c a b).NoParent f (c + 1) i ↔ t.NoParent f c i ∧ i ≠ a ∧ i ≠ b := by
  have hold {m : Nat} (hm : m < c) : (mergeNode t c a b).cl m = t.cl m ∧ (mergeNode t c a b).ch m = t.ch m :=
    ⟨mergeNode_cl_other (Nat.ne_of_lt hm), mergeNode_ch_other (Nat.ne_of_lt hm)⟩
  have hnew : (mergeNode t c a b).cl c ≠ some i ∧ (mergeNode t c a b).ch c ≠ some i ↔ i ≠ a ∧ i ≠ b := by
    rw [mergeNode_cl_new, mergeNode_ch_new, ne_eq, ne_eq, Option.some_inj, Option.some_inj, eq_comm, eq_comm (a := b)]
  rw [← hnew]
  constructor
  · intro h
    refine ⟨fun m h1 h2 => ?_, h c hc (Nat.lt_succ_self c)⟩
    rw [← (hold h2).1, ← (hold h2).2]
    exact h m h1 (Nat.lt_succ_of_lt h2)
  · rintro ⟨h, hlast⟩ m h1 h2
    rcases Nat.lt_succ_iff_lt_or_eq.1 h2 with h2 | rfl
    · rw [(hold h2).1, (hold h2).2]
      exact h m h1 h2
    · exact hlast

/-- What holds before every round of a merge stage that began with the arena `t0` and no bit value set: the slots with
no bit value are those that no node has for a child, and every node made so far was the greedy choice. -/
structure GreedyInv (f : Nat) (t0 t : Arena) (c : Nat) : Prop where
  base : MergeInv f t0 t c
  terminals : ∀ i < f, t.ov i = t0.ov i
  unset : ∀ i, t.bv i = none ↔ t.NoParent f c i
  joins : ∀ n, f ≤ n → n < c → t.JoinsLeast f n

theorem bv_eq_none_of_terminals {f : Nat} {t : Arena} (hfresh : ∀ i, f ≤ i → Arena.get t i = freshEntry)
    (hbv : ∀ i < f, t.bv i = none) (i : Nat) : t.bv i = none := by
  by_cases hi : i < f
  · exact hbv i hi
  · rw [Arena.bv, hfresh i (Nat.le_of_not_lt hi)]
    rfl

theorem GreedyInv.init {f : Nat} {t : Arena} (hf : 1 ≤ f) (hbv : ∀ i, t.bv i = none) : GreedyInv f t t f where
  base := .init hf t
  terminals _ _ := rfl
  unset i := iff_of_true (hbv i) fun m h1 h2 => by omega
  joins n h1 h2 := by omega

theorem GreedyInv.candidate_iff_free {f c i : Nat} {t0 t : Arena} (h : GreedyInv f t0 t c) :
    t.Candidate c i ↔ t.Free f c i := by
  rw [Arena.Candidate, Arena.Free, h.unset]

/-- Joining the two least candidates keeps it. -/
theorem GreedyInv.merge {f c a b : Nat} {t0 t : Arena} (h : GreedyInv f t0 t c)
    (hs : twoSmallest t c = (some a, some b)) (first : t.Least (t.Candidate c) a)
    (second : t.Least (fun i => t.Candidate c i ∧ i ≠ a) b) : GreedyInv f t0 (mergeNode t c a b) (c + 1) := by
  obtain ⟨hac, _, ha⟩ := first.1
  obtain ⟨⟨hbc, _, hb⟩, hba⟩ := second.1
  have hfc := h.base.first
  have hold (m : Nat) (hm : m ≠ c) : (mergeNode t c a b).ov m = t.ov m ∧ (mergeNode t c a b).cl m = t.cl m ∧
      (mergeNode t c a b).ch m = t.ch m := ⟨mergeNode_ov_other hm, mergeNode_cl_other hm, mergeNode_ch_other hm⟩
  refine { base := h.base.merge hs, terminals := fun i hi => ?_, unset := fun i => ?_, joins := fun n h1 h2 => ?_ }
  · rw [mergeNode_ov_other (by omega), h.terminals i hi]
  · rw [mergeNode_bv_eq_none, Arena.noParent_mergeNode hfc, h.unset]
  · by_cases hn : n = c
    · subst hn
      have hfree (i : Nat) : t.Candidate n i ↔ (mergeNode t n a b).Free f n i :=
        h.candidate_iff_free.trans (Arena.free_congr fun m hm => hold m (Nat.ne_of_lt hm))
      have hweight (i : Nat) (hi : t.Candidate n i) : (mergeNode t n a b).ov i = t.ov i :=
        mergeNode_ov_other (Nat.ne_of_lt hi.1)
      refine ⟨a, b, mergeNode_cl_new, mergeNode_ch_new, first.congr hfree hweight,
        second.congr (fun i => and_congr_left fun _ => hfree i) fun i hi => hweight i hi.1, ?_, ?_, ?_⟩
      · rw [mergeNode_bv, if_neg (Ne.symm hba), if_pos rfl]
      · rw [mergeNode_bv, if_pos rfl]
      · rw [mergeNode_ov_new (Nat.ne_of_gt hac) (Nat.ne_of_gt hbc), hweight a first.1, hweight b second.1.1]
    · exact (h.joins n h1 (by omega)).congr (fun m hm => hold m (by omega)) fun i x => mergeNode_bv_of_some ha hb

/-- The root has no bit value, since no node has it for a child. -/
theorem GreedyInv.bv_root {f c : Nat} {t0 t : Arena} (h : GreedyInv f t0 t c) : t.bv (c - 1) = none := by
  refine (h.unset _).2 fun m h1 h2 => ?_
  obtain ⟨lo, hi, hlo, hhi, llo, lhi, _⟩ := h.base.tree.links m h1 h2
  change t.cl m = some lo at hlo
  change t.ch m = some hi at hhi
  rw [hlo, hhi, ne_eq, ne_eq, Option.some_inj, Option.some_inj]
  omega

/-- The greedy choice stands where the stage ends. -/
theorem mergeStage_greedy {f : Nat} {t : Arena} (hf : 1 ≤ f) (hbv : ∀ i, t.bv i = none) :
    ∃ u d, GreedyInv f t u d ∧ MergeEnd f u d (mergeStage f t) :=
  mergeLoop_ends (fun _ _ _ _ h hs first second => h.merge hs first second) (.init hf hbv)
    (Nat.lt_succ_of_le (eligibleCount_le t f))

/-- The end of the stage sets no bit value but a lone terminal's. -/
theorem MergeEnd.fields {f d : Nat} {u : Arena} {r : Arena × Nat} (h : MergeEnd f u d r) :
    r.2 = d ∧ (f < d → r.1 = u) ∧ ∀ i, r.1.ov i = u.ov i ∧ r.1.cl i = u.cl i ∧ r.1.ch i = u.ch i := by
  cases h with
  | none => exact ⟨rfl, fun _ => rfl, fun _ => ⟨rfl, rfl, rfl⟩⟩
  | root => exact ⟨rfl, fun _ => rfl, fun _ => ⟨rfl, rfl, rfl⟩⟩
  | lone _ hd =>
    exact ⟨rfl, fun h => absurd h (Nat.not_lt.2 hd), fun i =>
      ⟨Arena.ov_setBv .., Arena.cl_setBv .., Arena.ch_setBv ..⟩⟩

/-- At most one candidate is left. -/
theorem MergeEnd.candidate_unique {f d i j : Nat} {u : Arena} {r : Arena × Nat} (h : MergeEnd f u d r)
    (hi : u.Candidate d i) (hj : u.Candidate d j) : i = j := by
  cases h with
  | none h => exact absurd hi (h i)
  | root h => exact ((h i).1 hi).trans ((h j).1 hj).symm
  | lone h => exact ((h i).1 hi).trans ((h j).1 hj).symm

/-- Settles O60: every node was the greedy choice when it was made, and the fields that say so stay. -/
theorem mergeStageJoinsTheTwoSmallest : Obligations.MergeStageJoinsTheTwoSmallest := by
  intro f t hf hfresh hbv r start free before
  obtain ⟨u, d, hinv, hend⟩ := mergeStage_greedy hf (bv_eq_none_of_terminals hfresh hbv)
  obtain ⟨hstart, hsame, hfields⟩ := hend.fields
  change start = d at hstart
  refine ⟨fun i hi => ((hfields i).1).trans (hinv.terminals i hi), fun n h1 h2 => ?_, fun i j hi hj => ?_⟩
  · have hjoin := hinv.joins n h1 (by omega)
    rw [← hsame (by omega)] at hjoin
    obtain ⟨a, b, hcl, hch, ⟨ha, first⟩, ⟨⟨hb, hba⟩, second⟩, hlow, hhigh, hsum⟩ := hjoin
    exact ⟨a, b, hcl, hch, Ne.symm hba, ha, hb, first, fun j hj hja => second j ⟨hj, hja⟩, hlow, hhigh,
      (congrArg BitVec.toNat hsum).trans (BitVec.toNat_add ..)⟩
  · have hcandidate {i : Nat} (hi : free start i) : u.Candidate d i := by
      rw [hinv.candidate_iff_free, ← hstart]
      exact (Arena.free_congr fun m _ => hfields m).2 hi
    exact hend.candidate_unique (hcandidate hi) (hcandidate hj)

/-! ### How many merges there are -/

/-- While no sum has wrapped to 0, every merge costs one of the slots that were eligible at first. -/
structure CountInv (f : Nat) (t0 t : Arena) (c : Nat) : Prop where
  greedy : GreedyInv f t0 t c
  count : (∀ n, f ≤ n → n < c → t.ov n ≠ 0) → eligibleCount t c + c = eligibleCount t0 f + f

theorem CountInv.init {f : Nat} {t : Arena} (hf : 1 ≤ f) (hbv : ∀ i, t.bv i = none) : CountInv f t t f where
  greedy := .init hf hbv
  count _ := rfl

theorem CountInv.merge {f c a b : Nat} {t0 t : Arena} (h : CountInv f t0 t c)
    (hs : twoSmallest t c = (some a, some b)) (first : t.Least (t.Candidate c) a)
    (second : t.Least (fun i => t.Candidate c i ∧ i ≠ a) b) : CountInv f t0 (mergeNode t c a b) (c + 1) where
  greedy := h.greedy.merge hs first second
  count hov := by
    have hfc := h.greedy.base.first
    obtain ⟨hac, hae⟩ := Arena.candidate_iff.1 first.1
    obtain ⟨hbc, hbe⟩ := Arena.candidate_iff.1 second.1.1
    have hold := h.count fun n h1 h2 => by
      rw [← mergeNode_ov_other (t := t) (a := a) (b := b) (Nat.ne_of_lt h2)]
      exact hov n h1 (by omega)
    have htwo := eligibleCount_mergeNode_old (Ne.symm second.1.2) hac hbc hae hbe
    have hnew : (mergeNode t c a b).eligible c = true :=
      (Arena.eligible_iff ..).2 ⟨hov c hfc (Nat.lt_succ_self c), (h.greedy.merge hs first second).bv_root⟩
    rw [eligibleCount_succ, if_pos hnew]
    omega

theorem mergeStage_count {f : Nat} {t : Arena} (hf : 1 ≤ f) (hbv : ∀ i, t.bv i = none) :
    ∃ u d, CountInv f t u d ∧ MergeEnd f u d (mergeStage f t) :=
  mergeLoop_ends (fun _ _ _ _ h hs first second => h.merge hs first second) (.init hf hbv)
    (Nat.lt_succ_of_le (eligibleCount_le t f))

/-- With two eligible slots at first and no sum wrapped to 0, one slot is left at the end, the root. -/
theorem CountInv.one_left {f d : Nat} {t0 u : Arena} {r : Arena × Nat} (h : CountInv f t0 u d)
    (hend : MergeEnd f u d r) (htwo : 2 ≤ eligibleCount t0 f) (hov : ∀ n, f ≤ n → n < d → u.ov n ≠ 0) :
    1 + d = eligibleCount t0 f + f := by
  have hcount := h.count hov
  have hfirst := h.greedy.base.first
  cases hend with
  | none hnone =>
    have hzero := eligibleCount_eq_zero_iff.2 hnone
    exact absurd ⟨by omega, hov (d - 1) (by omega) (by omega), h.greedy.bv_root⟩ (hnone (d - 1))
  | root hroot => rw [← hcount, eligibleCount_of_lone hroot]
  | lone hlone => rw [← hcount, eligibleCount_of_lone hlone]

/-- With at most one candidate the stage ends in its first round. -/
theorem mergeStage_ends_at_once {f : Nat} {t : Arena} (hk : eligibleCount t f ≤ 1) :
    MergeEnd f t f (mergeStage f t) := by
  rcases mergeLoop_round f f t f with hend | ⟨a, b, _, first, second, _⟩
  · exact hend
  · have := two_le_eligibleCount first.1 second.1.1 (Ne.symm second.1.2)
    omega

/-- With no bit value set, the eligible terminals are those of a weight other than 0. -/
theorem length_filter_ov_eq {f : Nat} {t : Arena} (hbv : ∀ i < f, t.bv i = none) :
    ((List.range f).filter fun i => t.ov i != 0).length = eligibleCount t f := by
  rw [← List.countP_eq_length_filter]
  refine List.countP_congr fun i hi => ?_
  rw [Arena.eligible_iff, and_iff_left (hbv i (List.mem_range.1 hi)), bne_iff_ne]

/-- Settles O12: with fewer than two candidates the first round ends the stage; with more, each merge costs one, and the
root is the one left. -/
theorem mergeCountFollowsEligibleSlots : Obligations.MergeCountFollowsEligibleSlots := by
  intro f t hf hfresh hbv k
  have hk : k = eligibleCount t f := length_filter_ov_eq hbv
  refine ⟨fun h0 => ?_, fun h1 => ?_, fun h2 hov => ?_, fun hlt => ?_⟩
  · have hend := mergeStage_ends_at_once (f := f) (t := t) (by omega)
    have hnone := eligibleCount_eq_zero_iff.1 (hk.symm.trans h0)
    generalize mergeStage f t = r at hend
    cases hend with
    | none => rfl
    | root h => exact absurd ((h _).2 rfl) (hnone _)
    | lone h => exact absurd ((h _).2 rfl) (hnone _)
  · have hend := mergeStage_ends_at_once (f := f) (t := t) (by omega)
    generalize mergeStage f t = r at hend
    cases hend with
    | none h => rw [hk, eligibleCount_eq_zero_iff.2 h] at h1; cases h1
    | root _ hd => exact absurd hd (Nat.lt_irrefl f)
    | @lone a h =>
      obtain ⟨ha, hov, _⟩ := (h a).2 rfl
      exact ⟨a, ha, hov, rfl⟩
  · obtain ⟨u, d, hinv, hend⟩ := mergeStage_count hf (bv_eq_none_of_terminals hfresh hbv)
    obtain ⟨hstart, _, hfields⟩ := hend.fields
    have hnodes (n : Nat) (h1 : f ≤ n) (h2 : n < d) : u.ov n ≠ 0 := by
      rw [← (hfields n).1]
      exact hov n h1 (by omega)
    have hone := hinv.one_left hend (by omega) hnodes
    omega
  · obtain ⟨u, d, hinv, hend⟩ := mergeStage_greedy hf (bv_eq_none_of_terminals hfresh hbv)
    obtain ⟨hstart, hsame, _⟩ := hend.fields
    rw [hsame (by omega), hstart]
    exact hinv.bv_root

end Sys2Proof.Machine
end

section
/-! PROOFS. The preambles of 42_table_builder.md R141 to R144 that end a run: an index out of range, and a count, an
index or a weight that the end of `IN` cuts off (40_bitcursor.md R103, R107). -/

namespace Sys2Proof.Machine

/-! ### Fields cut off -/

/-- Where the buffer does not have the operation's `n` bits, it faults `TruncatedStream` at a read that begins among
them and needs more bits than remain. -/
def Source.FaultsWithin {α : Type} (src : Source) (n : Nat) (r : BitReader α) : Prop :=
  ∀ p, 8 * src.len < p + n →
    ∃ q k, p ≤ q ∧ q < p + n ∧ 8 * src.len < q + k ∧ r p = .error (.raised (.bits q k)) q

theorem Source.faultsWithin_readBits {src : Source} {n : Nat} (hn : 0 < n) : src.FaultsWithin n (readBits src n) :=
  fun p hp => ⟨p, n, Nat.le_refl p, Nat.lt_add_of_pos_right hn, hp, readBits_of_short hn hp⟩

/-- A fault in the first part of a sequence, or in the rest behind the bits that the first part took. -/
theorem Source.FaultsWithin.bind {α β : Type} {src : Source} {m n : Nat} {r : BitReader α} {f : α → BitReader β}
    (htakes : src.Takes m r) (hr : src.FaultsWithin m r) (hf : ∀ a, src.FaultsWithin n (f a)) :
    src.FaultsWithin (m + n) (r >>= f) := by
  intro p hp
  by_cases hm : p + m ≤ 8 * src.len
  · obtain ⟨a, ha⟩ := (htakes p).1 hm
    obtain ⟨q, k, hpq, hq, hk, hfault⟩ := hf a (p + m) (by omega)
    exact ⟨q, k, by omega, by omega, hk, (bind_of_ok ha).trans hfault⟩
  · obtain ⟨q, k, hpq, hq, hk, hfault⟩ := hr p (by omega)
    exact ⟨q, k, hpq, by omega, hk, bind_of_error hfault⟩

/-- What follows the last read cannot fault. -/
theorem Source.FaultsWithin.bind_last {α β : Type} {src : Source} {n : Nat} {r : BitReader α} {f : α → BitReader β}
    (hr : src.FaultsWithin n r) : src.FaultsWithin n (r >>= f) := by
  intro p hp
  obtain ⟨q, k, hpq, hq, hk, hfault⟩ := hr p hp
  exact ⟨q, k, hpq, hq, hk, bind_of_error hfault⟩

section Complete

variable {src : Source}

theorem Source.Complete.faultsWithin_readBytesLow (hsrc : src.Complete) (k n v : Nat) :
    src.FaultsWithin (8 * (n + 1)) (readBytesLow src k (n + 1) v) := by
  induction n generalizing k v with
  | zero => exact .bind_last (Source.faultsWithin_readBits (by decide))
  | succ n ih =>
    rw [Nat.mul_succ, Nat.add_comm]
    exact .bind (hsrc.takes_readBits 8) (Source.faultsWithin_readBits (by decide)) fun _ => ih _ _

theorem Source.Complete.faultsWithin_readField (hsrc : src.Complete) (order : FieldOrder) (w : FieldWidth) :
    src.FaultsWithin w.bits (readField src order w) := by
  cases w with
  | w8 => exact Source.faultsWithin_readBits (by decide)
  | w16 =>
    cases order with
    | msbFirst => exact Source.faultsWithin_readBits (by decide)
    | lsbByteFirst => exact hsrc.faultsWithin_readBytesLow 0 1 0
  | w32 =>
    cases order with
    | msbFirst =>
      exact .bind (hsrc.takes_readBits 16) (Source.faultsWithin_readBits (by decide)) fun _ =>
        .bind_last (Source.faultsWithin_readBits (n := 16) (by decide))
    | lsbByteFirst => exact hsrc.faultsWithin_readBytesLow 0 3 0

end Complete

/-- A preamble field cut off by the end of `IN`: the fault, at a read inside the field. -/
theorem readPreamble_of_cutOff {s : State} {w : FieldWidth} {p : Nat} (hsrc : s.InputComplete)
    (hp : 8 * s.inLen < p + w.bits) :
    ∃ q k, p ≤ q ∧ q < p + w.bits ∧ 8 * s.inLen < q + k ∧
      readPreamble w (s.moveTo p) = .error (.raised (.bits q k)) (s.moveTo q) := by
  obtain ⟨q, k, hpq, hq, hk, hfault⟩ := Source.Complete.faultsWithin_readField hsrc s.cfg.fieldOrder w p hp
  refine ⟨q, k, hpq, hq, hk, readStream_eq_error.2 ⟨q, ?_, rfl⟩⟩
  rwa [State.position_moveTo]

/-! ### The step up to an entry -/

/-- The registers that `BuildTable` reads (42_table_builder.md R140), in the ranges of 00_scope.md R7. -/
structure PreambleRegs (s : State) (f bw : Nat) : Prop where
  firstReal : s.firstReal = some f
  byteWidth : s.byteWidth = some bw
  width : bw = 1 ∨ bw = 2
  range : f ≤ 2 ^ (8 * bw)

section Stops

variable {s u : State} {f bw c n : Nat} {indexed : Bool} {ws : List (Nat × Word32)} {e : Stop}

theorem step_of_buildTable_raised {i : FaultInfo} (hphase : s.phase = .buildTable)
    (h : buildTable s = .error (.raised i) u) : step s = .next (u.takeFault i) := by
  rw [step, hphase]
  exact congrArg settle h

/-- The count cut off. -/
theorem buildTable_of_count_error (hs : PreambleRegs s f bw) (h : readPreamble (indexWidth bw) s = .error e u) :
    buildTable s = .error e u := by
  rw [buildTable, bind_of_ok (show readByteWidth s = .ok bw s from readReg_some hs.byteWidth), bind_of_error h]

/-- The count read and stored with the form it selects: too many entries for the identity form fault, and otherwise the
entries are filled in. -/
theorem buildTable_of_count (hs : PreambleRegs s f bw) (hc : c < 2 ^ (8 * bw)) (hn : entriesToFill f c = n)
    (hform : isIndexed f bw n = indexed) (h : s.source.Holds s.position (fieldBits s.cfg.fieldOrder bw c)) :
    buildTable s =
      (if indexed = false ∧ f < n then raise (.tableIndex n)
        else fillLoop f bw indexed 0 n >>= fun _ => update fun t => t.mergeTable f)
      ((s.withPreamble n indexed).moveTo (s.position + 8 * bw)) := by
  rw [buildTable, bind_of_ok (show readByteWidth s = .ok bw s from readReg_some hs.byteWidth),
    bind_of_ok (readPreamble_of_holds (indexWidth_bits hs.width) hc h),
    bind_of_ok (show readFirstReal (s.moveTo _) = .ok f (s.moveTo _) from readReg_some hs.firstReal), hn, hform,
    update_bind_run]
  rfl

/-- The fill loop goes on where its first rounds end. -/
theorem fillLoop_after {k m : Nat} (h : fillLoop f bw indexed k m s = .ok () u) :
    fillLoop f bw indexed k (m + n) s = fillLoop f bw indexed (k + m) n u := by
  induction m generalizing k s with
  | zero =>
    cases h
    rw [Nat.zero_add, Nat.add_zero]
  | succ m ih =>
    obtain ⟨idx, s1, hidx, hrest⟩ := bind_eq_ok.1 h
    split at hrest
    · cases hrest
    · rename_i hlt
      obtain ⟨w, s2, hw, hrest⟩ := bind_eq_ok.1 hrest
      rw [update_bind_run] at hrest
      rw [Nat.add_right_comm, fillLoop, bind_of_ok hidx, if_neg hlt, bind_of_ok hw, update_bind_run, ih hrest,
        Nat.add_right_comm, Nat.add_assoc]

/-- The state in which the entry behind these is next. -/
def State.afterEntries (s : State) (n : Nat) (indexed : Bool) (ws : List (Nat × Word32)) (bits : List Bool) : State :=
  ((s.withPreamble n indexed).withTable (s.table.store ws)).moveTo (s.position + bits.length)

@[simp] theorem State.position_afterEntries (bits : List Bool) :
    (s.afterEntries n indexed ws bits).position = s.position + bits.length :=
  State.position_moveTo _ _

/-- The whole entries in front are stored, so the step stops where the fill loop stops behind them. -/
theorem buildTable_of_fill_error (hs : PreambleRegs s f bw) (hc : c < 2 ^ (8 * bw)) (hn : entriesToFill f c = n)
    (hform : isIndexed f bw n = indexed) (hroom : indexed = false → n ≤ f) (hlen : ws.length ≤ n)
    (hlt : ∀ e ∈ ws, e.1 < f) (hids : indexed = false → ws.map Prod.fst = List.range ws.length)
    (h : s.source.Holds s.position
      (fieldBits s.cfg.fieldOrder bw c ++ entriesBits s.cfg.fieldOrder bw indexed ws))
    (hfill : fillLoop f bw indexed ws.length (n - ws.length) (s.afterEntries n indexed ws
      (fieldBits s.cfg.fieldOrder bw c ++ entriesBits s.cfg.fieldOrder bw indexed ws)) = .error e u) :
    buildTable s = .error e u := by
  obtain ⟨hcount, hentries⟩ := Source.holds_append.1 h
  rw [fieldBits_length] at hentries
  have hfront := fillLoop_of_holds (k := 0) (s := (s.withPreamble n indexed).moveTo (s.position + 8 * bw)) hs.width
    hs.range hlt (fun hx => by rw [hids hx, List.range_eq_range']) (by rwa [State.position_moveTo])
  rw [State.position_moveTo] at hfront
  have hall := fillLoop_after (n := n - ws.length) hfront
  rw [Nat.add_sub_cancel' hlen, Nat.zero_add] at hall
  rw [State.afterEntries, List.length_append, fieldBits_length, ← Nat.add_assoc] at hfill
  rw [buildTable_of_count hs hc hn hform hcount, if_neg fun ⟨hx, hgt⟩ => absurd (hroom hx) (Nat.not_le.2 hgt)]
  exact bind_of_error (hall.trans hfill)

/-! ### The entry that stops the loop -/

theorem fillLoop_of_index_error {k : Nat} (hn : k < n) (h : readIndex indexed bw k s = .error e u) :
    fillLoop f bw indexed k (n - k) s = .error e u := by
  rw [show n - k = n - k - 1 + 1 by omega, fillLoop, bind_of_error h]

/-- An index out of range faults before its weight is read (42_table_builder.md R144). -/
theorem fillLoop_of_index_out_of_range {k idx : Nat} (hn : k < n) (h : readIndex indexed bw k s = .ok idx u)
    (hidx : f ≤ idx) : fillLoop f bw indexed k (n - k) s = .error (.raised (.tableIndex idx)) u := by
  rw [show n - k = n - k - 1 + 1 by omega, fillLoop, bind_of_ok h, if_pos hidx, raise_run]

theorem fillLoop_of_weight_error {k idx : Nat} {v : State} (hn : k < n) (h : readIndex indexed bw k s = .ok idx v)
    (hidx : idx < f) (hw : readPreamble .w32 v = .error e u) : fillLoop f bw indexed k (n - k) s = .error e u := by
  rw [show n - k = n - k - 1 + 1 by omega, fillLoop, bind_of_ok h, if_neg (Nat.not_le.2 hidx), bind_of_error hw]

end Stops

/-- The preamble of a form that a test on the count selects. -/
theorem preambleBits_ite (order : FieldOrder) (bw c : Nat) (identity : Prop) [Decidable identity]
    (ws : List (Nat × Word32)) :
    preambleBits order bw c (ws.map fun e => (if identity then none else some e.1, e.2)) =
      fieldBits order bw c ++ entriesBits order bw (!decide identity) ws := by
  rw [← preambleBits_eq]
  congr 1
  refine List.map_congr_left fun e _ => ?_
  by_cases h : identity <;> simp [h, writtenIndex]

/-- The index of an entry whose form a test on the count selects: the entry's number, or the index written. -/
theorem readIndex_ite {s : State} {bw k idx : Nat} {identity : Prop} [Decidable identity] (hbw : bw = 1 ∨ bw = 2)
    (hidx : idx < 2 ^ (8 * bw))
    (h : s.source.Holds s.position (if identity then [] else fieldBits s.cfg.fieldOrder bw idx)) :
    readIndex (!decide identity) bw k s = .ok (if identity then k else idx)
      (s.moveTo (s.position + (if identity then [] else fieldBits s.cfg.fieldOrder bw idx).length)) := by
  by_cases hid : identity
  · rw [if_pos hid, if_pos hid, decide_eq_true hid, List.length_nil, Nat.add_zero, State.moveTo_position_self]
    rfl
  · rw [if_neg hid] at h
    rw [if_neg hid, if_neg hid, decide_eq_false hid, fieldBits_length]
    exact readPreamble_of_holds (indexWidth_bits hbw) hidx h

/-! ### The statements -/

/-- Settles O14: too many entries fault behind the count, and an index out of range behind the whole entries and
itself. -/
theorem preambleIndexOutOfRangeFaults : Obligations.PreambleIndexOutOfRangeFaults := by
  intro s f bw c hphase hf hwidth hbw hfle hc n
  have hs : PreambleRegs s f bw := ⟨hf, hwidth, hbw, hfle⟩
  refine ⟨fun hid hgt hcount => ?_, fun hid ws idx hlen hlt hidx hwide hholds => ?_⟩
  · have hform : isIndexed f bw n = false := by simp [isIndexed, hid]
    have hrun := buildTable_of_count hs hc rfl hform hcount
    rw [if_pos ⟨rfl, hgt⟩, raise_run] at hrun
    exact step_of_buildTable_raised hphase hrun
  · have hform : isIndexed f bw n = true := by simp [isIndexed, hid]
    obtain ⟨hfront, hindex⟩ := Source.holds_append.1 hholds
    rw [show preambleBits s.cfg.fieldOrder bw c (ws.map fun e => (some e.1, e.2)) = _ from
      preambleBits_eq s.cfg.fieldOrder bw c true ws] at hfront hindex
    have hread := readPreamble_of_holds (s := s.afterEntries n true ws
      (fieldBits s.cfg.fieldOrder bw c ++ entriesBits s.cfg.fieldOrder bw true ws)) (indexWidth_bits hbw) hwide
      (by rwa [State.position_afterEntries])
    have hrun := buildTable_of_fill_error hs hc rfl hform nofun (Nat.le_of_lt hlen) hlt nofun hfront
      (fillLoop_of_index_out_of_range hlen hread hidx)
    have hcur : (s.afterEntries n true ws
        (fieldBits s.cfg.fieldOrder bw c ++ entriesBits s.cfg.fieldOrder bw true ws)).position + 8 * bw =
        s.position + (bw * 8 + ws.length * (bw * 8 + 32) + bw * 8) := by
      rw [State.position_afterEntries, List.length_append, fieldBits_length, entriesBits_length, if_pos rfl,
        Nat.mul_comm 8 bw]
      omega
    rw [hcur] at hrun
    exact step_of_buildTable_raised hphase hrun

/-- Settles O55: the whole entries in front of the cut are stored, and the read of the field that is cut off faults. -/
theorem cutOffPreambleFaultsTruncated : Obligations.CutOffPreambleFaultsTruncated := by
  intro s f bw hphase hsrc hf hwidth hbw hfle
  have hs : PreambleRegs s f bw := ⟨hf, hwidth, hbw, hfle⟩
  have hbits : (indexWidth bw).bits = bw * 8 := (indexWidth_bits hbw).trans (Nat.mul_comm 8 bw)
  refine ⟨fun hcut => ?_, ?_⟩
  · obtain ⟨q, k, hpq, hq, hk, hfault⟩ := readPreamble_of_cutOff (w := indexWidth bw) hsrc (by rwa [hbits])
    rw [State.moveTo_position_self] at hfault
    exact ⟨q, k, hpq, hbits ▸ hq, hk, step_of_buildTable_raised hphase (buildTable_of_count_error hs hfault)⟩
  intro c ws hc n identity entries head stored hlen hlt hids
  have hform : (!decide identity) = false → identity := by simp
  have hhead : head = fieldBits s.cfg.fieldOrder bw c ++ entriesBits s.cfg.fieldOrder bw (!decide identity) ws :=
    preambleBits_ite s.cfg.fieldOrder bw c identity ws
  have hentry (hfront : s.source.Holds s.position head) {i : FaultInfo} {u : State}
      (hfill : fillLoop f bw (!decide identity) ws.length (n - ws.length)
        (s.afterEntries n (!decide identity) ws head) = .error (.raised i) u) : step s = .next (u.takeFault i) := by
    rw [hhead] at hfront hfill
    exact step_of_buildTable_raised hphase (buildTable_of_fill_error hs hc rfl rfl
      (fun hx => (hids (hform hx)).1) (Nat.le_of_lt hlen) hlt (fun hx => (hids (hform hx)).2) hfront hfill)
  refine ⟨fun hindexed hfront hcut => ?_, ?_⟩
  · obtain ⟨q, k, hpq, hq, hk, hfault⟩ := readPreamble_of_cutOff (s := stored) (w := indexWidth bw) hsrc
      (by rwa [hbits])
    refine ⟨q, k, hpq, hbits ▸ hq, hk, hentry hfront (fillLoop_of_index_error hlen ?_)⟩
    rw [readIndex, if_pos (by simpa using hindexed)]
    exact hfault
  · intro idx hidx upTo hholds hcut
    obtain ⟨hfront, hindex⟩ := Source.holds_append.1 hholds
    have hread := readIndex_ite (s := s.afterEntries n (!decide identity) ws head) (k := ws.length) hbw
      (Nat.lt_of_lt_of_le hidx hfle) (by rwa [State.position_afterEntries])
    have hi : (if identity then ws.length else idx) < f := by
      split
      · rename_i hid
        exact Nat.lt_of_lt_of_le hlen (hids hid).1
      · exact hidx
    rw [State.position_afterEntries, Nat.add_assoc, ← List.length_append] at hread
    obtain ⟨q, k, hpq, hq, hk, hfault⟩ := readPreamble_of_cutOff (s := stored) (w := .w32) hsrc hcut
    exact ⟨q, k, hpq, hq, hk, hentry hfront (fillLoop_of_weight_error hlen hread hi hfault)⟩

end Sys2Proof.Machine
end

section
/-! PROOFS. The symbol decoder (43_symbol_decoder.md R170 to R172): a degenerate table and the step it faults in, a
codeword and its length, and the two outcomes of a decode on a tree and a complete buffer. -/

namespace Sys2Proof.Machine

/-! ### A degenerate table -/

/-- A degenerate table faults and consumes no bit (R170). -/
theorem CodeTable.decodeSymbol_of_degenerate {t : CodeTable} {src : Source} {p : Nat} (h : t.start ≤ t.firstReal) :
    t.decodeSymbol src p = .error (.raised (.degenerate t.start)) p := by
  rw [CodeTable.decodeSymbol, if_pos h]

/-- Where the length symbol stops, the instruction stops there, its selector consumed (44_decode_loop.md R181, R182). -/
theorem decodeInstr_of_symbol_error {t : CodeTable} {lbc : Nat} {src : Source} {p q : Nat} {sel : Bool} {e : Stop}
    (hp : p < 8 * src.len) (hsel : src.bit p = some sel) (hx : t.decodeSymbol src (p + 1) = .error e q) :
    decodeInstr t lbc src p = .error e q := by
  rw [decodeInstr_eq, bind_of_ok (peekBit_of_bit hp hsel), bind_of_ok (consumeBit_of_bit hp hsel), bind_of_error hx]

/-! ### The step of the loop -/

section LoopStep

variable {s : State} {d : Word32}

theorem step_of_decodeLoop (hphase : s.phase = .decodeLoop) : step s = decodeLoopStep s := by
  rw [step, hphase]

/-- With everything produced the loop is left, whatever the table (44_decode_loop.md R180). -/
theorem decodeLoopStep_of_produced (hd : s.declen = some d) (hpos : s.pos = d.toNat) :
    decodeLoopStep s = .next (s.withPhase .verifyChecksum) := by
  have hexit : loopExit s = .ok true s := by
    rw [loopExit_run hd, beq_iff_eq.2 hpos, Bool.true_or]
  rw [decodeLoopStep, hexit]

/-- With output missing and a bit unread the loop goes on to an instruction (44_decode_loop.md R180). -/
theorem decodeLoopStep_of_running (hd : s.declen = some d) (hpos : s.pos ≠ d.toNat)
    (hunread : s.position < 8 * s.inLen) : decodeLoopStep s = runInstr s := by
  have hleft : s.source.remaining s.position ≠ 0 := Nat.sub_ne_zero_of_lt hunread
  have hexit : loopExit s = .ok false s := by
    rw [loopExit_run hd, beq_eq_false_iff_ne.2 hpos, Source.exhausted, beq_eq_false_iff_ne.2 hleft, Bool.or_false]
  rw [decodeLoopStep, hexit]

/-- A fault of the decoder is taken where it arises. -/
theorem runInstr_of_decode_raised {st f q : Nat} {i : FaultInfo} (hstart : s.start = some st)
    (hf : s.firstReal = some f)
    (h : decodeInstr { arena := s.table, start := st, firstReal := f } s.lowWidth s.source s.position =
      .error (.raised i) q) : runInstr s = .next ((s.moveTo q).takeFault i) := by
  have hfetch : fetch s = .error (.raised i) (s.moveTo q) := by
    rw [fetch_run hstart hf]
    exact readStream_eq_error.2 ⟨q, h, rfl⟩
  rw [runInstr, hfetch]
  rfl

end LoopStep

/-- Settles O15: the exit test comes before the fetch, and in the fetch the selector before the symbol that faults. -/
theorem degenerateTableFaultsAtFirstSymbol : Obligations.DegenerateTableFaultsAtFirstSymbol := by
  refine ⟨fun t src p h => CodeTable.decodeSymbol_of_degenerate h, ?_⟩
  intro s d st f hphase hsrc hd hstart hf hdeg
  refine ⟨fun hpos => ?_, fun hpos hunread => ?_⟩
  · rw [step_of_decodeLoop hphase, decodeLoopStep_of_produced hd hpos]
    rfl
  · obtain ⟨sel, hsel⟩ := Source.Complete.bit (src := s.source) hsrc hunread
    rw [step_of_decodeLoop hphase, decodeLoopStep_of_running hd hpos hunread]
    exact runInstr_of_decode_raised hstart hf
      (decodeInstr_of_symbol_error hunread hsel (CodeTable.decodeSymbol_of_degenerate hdeg))

/-! ### Symbols on a tree -/

section Symbols

variable {t : CodeTable}

/-- A path from an internal node down to a terminal has a link. -/
theorem CodeTable.Path.length_pos {n v : Nat} {w : List Bool} (h : t.Path n w v) (hn : t.firstReal ≤ n)
    (hv : v < t.firstReal) : 1 ≤ w.length := by
  cases h with
  | nil => exact absurd hv (Nat.not_lt.2 hn)
  | cons => exact Nat.succ_pos _

/-- A walk with at most as many steps as bits are left finds every bit it reads in a complete buffer. -/
theorem CodeTable.walk_ne_halted {src : Source} (hsrc : src.Complete) {m n p q : Nat} {f : Fault}
    (hp : p + m ≤ 8 * src.len) : t.walk src m n p ≠ .error (.halted f) q := by
  induction m generalizing n p with
  | zero =>
    rw [CodeTable.walk]
    split <;> exact nofun
  | succ m ih =>
    rw [CodeTable.walk]
    by_cases hterm : n < t.firstReal
    · rw [if_pos hterm]
      exact nofun
    · obtain ⟨b, hb⟩ := hsrc.bit (p := p) (by omega)
      rw [if_neg hterm, bind_of_ok (consumeBit_of_bit (by omega) hb)]
      cases t.child n b with
      | none => exact nofun
      | some c => exact ih (by omega)

theorem CodeTable.decodeSymbol_ne_halted {src : Source} (hsrc : src.Complete) {p q : Nat} {f : Fault}
    (hp : p ≤ 8 * src.len) : t.decodeSymbol src p ≠ .error (.halted f) q := by
  rw [CodeTable.decodeSymbol]
  split
  · exact nofun
  · exact CodeTable.walk_ne_halted hsrc (Nat.le_of_eq (Nat.add_sub_cancel' hp))

end Symbols

/-- Settles O16: the codeword is a path from the root `start - 1`, an internal node, down to the symbol. -/
theorem decodeSymbolInvertsCodeword : Obligations.DecodeSymbolInvertsCodeword := by
  intro t src v p w ht hw hholds
  obtain ⟨hroot, hv, hpath⟩ := (CodeTable.codeword_eq_some ht).1 hw
  have hlen : w.length ≤ t.start - 1 + 1 - t.firstReal := hpath.length_le ht hv
  exact ⟨CodeTable.decodeSymbol_of_codeword ht hw hholds, hv, hpath.length_pos (by omega) hv, by omega⟩

/-- Settles O19: a node without a child is none of the ways in which a decode on a tree ends. -/
theorem treeWalkNeverLacksAChild : Obligations.TreeWalkNeverLacksAChild := by
  intro t src p q n b ht h
  rcases CodeTable.decodeSymbol_cases ht src p with ⟨_, _, _, _, _, _, hdec⟩ | ⟨_, hdec⟩ | hdec | ⟨_, _, hdec⟩ <;>
    cases h.symm.trans hdec

/-- Settles O56: a table with a root is not degenerate and a complete buffer lacks no byte, so a decode can end in two
ways; where it faults no codeword stands, since one that stands is decoded. -/
theorem symbolDecodesOrFaultsTruncated : Obligations.SymbolDecodesOrFaultsTruncated := by
  intro t src p ht hroot hsrc hp
  rcases CodeTable.decodeSymbol_cases ht src p with ⟨_, hdecoded⟩ | ⟨hdeg, _⟩ | hcut | ⟨q, a, hhalted⟩
  · exact Or.inl hdecoded
  · exact absurd hroot (Nat.not_lt.2 hdeg)
  · rw [Nat.max_eq_right hp] at hcut
    refine Or.inr ⟨fun v w hw hholds => ?_, hcut⟩
    cases hcut.symm.trans (CodeTable.decodeSymbol_of_codeword ht hw hholds)
  · exact absurd hhalted (CodeTable.decodeSymbol_ne_halted hsrc hp)

end Sys2Proof.Machine
end

section
/-! PROOFS. What `LIT` and `BREF` do in every state (44_decode_loop.md R183 to R189): the checks in their order, the
bytes written, and what stays. -/

namespace Sys2Proof.Machine

/-! ### `LIT` -/

section Literal

variable {x : Nat} {bytes : List Byte} {s : State} {d : Word32}

theorem exec_lit (x : Nat) (bytes : List Byte) (s : State) : exec (.lit x bytes) s = execLit x bytes s :=
  rfl

/-- The overrun check comes before any byte is put (R188, R189). -/
theorem literalRun_of_written (hd : s.declen = some d) :
    literalRun x bytes s =
      if d.toNat < s.pos + (x + 1) then .error (.raised (.overrun s.pos (x + 1) d)) s
      else putLiterals (x + 1) bytes s := by
  rw [literalRun, bind_of_ok (show readDeclen s = .ok d s from readReg_some hd), get_bind_run, ite_run, raise_run,
    literalLength]

theorem exec_lit_of_overrun (hd : s.declen = some d) (hover : d.toNat < s.pos + (x + 1)) :
    exec (.lit x bytes) s = .next (s.takeFault (.overrun s.pos (x + 1) d)) := by
  rw [exec_lit, execLit, literalRun_of_written hd, if_pos hover, settle_raised]

theorem exec_lit_of_enough (hd : s.declen = some d) (hroom : s.pos + (x + 1) ≤ d.toNat)
    (hlen : x + 1 ≤ bytes.length) :
    exec (.lit x bytes) s = .next ((bytes.take (x + 1)).foldl State.putLiteral s) := by
  rw [exec_lit, execLit, literalRun_of_written hd, if_neg (Nat.not_lt.2 hroom), putLiterals_enough _ _ _ hlen,
    settle_ok]

/-- A run cut off puts the bytes it has and faults behind them (R183). -/
theorem exec_lit_of_short (hd : s.declen = some d) (hroom : s.pos + (x + 1) ≤ d.toNat) (hlen : bytes.length < x + 1) :
    exec (.lit x bytes) s =
      .next ((bytes.foldl State.putLiteral s).takeFault (.bits (s.position + 8 * bytes.length) 8)) := by
  have hcur : (bytes.foldl State.putLiteral s).position = s.position + 8 * bytes.length := by
    rw [foldl_putLiteral_eq]
    exact Cursor.position_ofPosition _
  rw [exec_lit, execLit, literalRun_of_written hd, if_neg (Nat.not_lt.2 hroom), putLiterals_short _ _ _ hlen,
    settle_raised, hcur]

/-- A `LIT` that goes on has put some bytes, `X + 1` of them unless it fails. -/
theorem exec_lit_next {t : State} (h : exec (.lit x bytes) s = .next t) :
    ∃ bs : List Byte, bs.length ≤ x + 1 ∧
      ((bs.length = x + 1 ∧ t = bs.foldl State.putLiteral s) ∨ ∃ i, t = (bs.foldl State.putLiteral s).takeFault i) := by
  obtain ⟨d, hd, _⟩ := settle_readReg_bind (show settle ((readDeclen >>= _) s) = .next t from h)
  by_cases hover : d.toNat < s.pos + (x + 1)
  · cases (exec_lit_of_overrun hd hover).symm.trans h
    exact ⟨[], Nat.zero_le _, Or.inr ⟨_, rfl⟩⟩
  · have hroom : s.pos + (x + 1) ≤ d.toNat := Nat.le_of_not_lt hover
    by_cases hlen : x + 1 ≤ bytes.length
    · cases (exec_lit_of_enough hd hroom hlen).symm.trans h
      have htake : (bytes.take (x + 1)).length = x + 1 := List.length_take_of_le hlen
      exact ⟨bytes.take (x + 1), Nat.le_of_eq htake, Or.inl ⟨htake, rfl⟩⟩
    · have hshort : bytes.length < x + 1 := Nat.lt_of_not_le hlen
      cases (exec_lit_of_short hd hroom hshort).symm.trans h
      exact ⟨bytes, Nat.le_of_lt hshort, Or.inr ⟨_, rfl⟩⟩

end Literal

/-- Settles O25: with as many bytes as asked for the loop puts them all. -/
theorem literalRunWritesItsBytes : Obligations.LiteralRunWritesItsBytes := by
  intro x bytes s d hd hlen hroom
  have hrun := exec_lit_of_enough hd hroom (Nat.le_of_eq hlen.symm)
  have hput := foldl_putLiteral_eq bytes s
  rw [List.take_of_length_le (Nat.le_of_eq hlen)] at hrun
  rw [hlen] at hput
  exact ⟨bytes.foldl State.putLiteral s, hrun, fun k hk => foldl_putLiteral_read bytes s k (by omega),
    fun a ha => foldl_putLiteral_read_other bytes s a (by rwa [hlen]), hput⟩

/-! ### `BREF` -/

section Backref

variable {x high low : Nat} {s : State} {base lbc : Byte} {d : Word32}

/-- The distance is checked before `declen` is read (R186, R188). -/
theorem exec_bref_of_before_output (hbase : s.optBase = some base) (hlbc : s.optLbc = some lbc)
    (hbefore : s.pos < backrefDistance high low lbc base) :
    exec (.bref x high low) s = .next (s.takeFault (.backref s.pos (backrefDistance high low lbc base))) := by
  rw [exec_bref, execBref, backrefCopy, bind_of_ok (show readOptBase s = .ok base s from readReg_some hbase),
    bind_of_ok (show readOptLbc s = .ok lbc s from readReg_some hlbc), get_bind_run, if_pos hbefore, raise_run,
    settle_raised]

theorem exec_bref_of_overrun (hbase : s.optBase = some base) (hlbc : s.optLbc = some lbc) (hd : s.declen = some d)
    (hsource : backrefDistance high low lbc base ≤ s.pos) (hover : d.toNat < s.pos + backrefCount x base) :
    exec (.bref x high low) s = .next (s.takeFault (.overrun s.pos (backrefCount x base) d)) := by
  rw [exec_bref, execBref, backrefCopy, bind_of_ok (show readOptBase s = .ok base s from readReg_some hbase),
    bind_of_ok (show readOptLbc s = .ok lbc s from readReg_some hlbc), get_bind_run, if_neg (Nat.not_lt.2 hsource),
    bind_of_ok (show readDeclen s = .ok d s from readReg_some hd), if_pos hover, raise_run, settle_raised]

theorem exec_bref_of_room (hbase : s.optBase = some base) (hlbc : s.optLbc = some lbc) (hd : s.declen = some d)
    (hsource : backrefDistance high low lbc base ≤ s.pos) (hroom : s.pos + backrefCount x base ≤ d.toNat) :
    exec (.bref x high low) s =
      settle (copyBytes (backrefDistance high low lbc base) (backrefCount x base) s) := by
  rw [exec_bref, execBref, backrefCopy_of_room hbase hlbc hd hsource hroom]

/-- A `BREF` that goes on fails with nothing copied, or has copied `X + opt_base` bytes from `pos` on. -/
theorem exec_bref_next {t : State} (h : exec (.bref x high low) s = .next t) :
    (∃ i, t = s.takeFault i) ∨
    ∃ base out, s.optBase = some base ∧ t = { s with out := out, pos := s.pos + backrefCount x base } ∧
      ∀ a, a < s.pos ∨ s.pos + backrefCount x base ≤ a → out.read a = s.out.read a := by
  obtain ⟨base, hbase, hrest⟩ := settle_readReg_bind (show settle ((readOptBase >>= _) s) = .next t from h)
  obtain ⟨lbc, hlbc, hrest⟩ := settle_readReg_bind hrest
  by_cases hbefore : s.pos < backrefDistance high low lbc base
  · cases (exec_bref_of_before_output hbase hlbc hbefore).symm.trans h
    exact Or.inl ⟨_, rfl⟩
  have hsource : backrefDistance high low lbc base ≤ s.pos := Nat.le_of_not_lt hbefore
  rw [get_bind_run, if_neg hbefore] at hrest
  obtain ⟨d, hd, _⟩ := settle_readReg_bind hrest
  by_cases hover : d.toNat < s.pos + backrefCount x base
  · cases (exec_bref_of_overrun hbase hlbc hd hsource hover).symm.trans h
    exact Or.inl ⟨_, rfl⟩
  rw [exec_bref_of_room hbase hlbc hd hsource (Nat.le_of_not_lt hover)] at h
  rcases copyBytes_cases (backrefDistance high low lbc base) (backrefCount x base) s with
    ⟨u, hcopy, hu, _, hother⟩ | ⟨a, u, hstop⟩
  · rw [hcopy] at h
    cases h
    exact Or.inr ⟨base, t.out, hbase, hu, hother⟩
  · rw [hstop] at h
    cases h

end Backref

/-! ### The statements about both -/

/-- Settles O28: the distance is the first check of `BREF`. -/
theorem backrefBeforeOutputFaults : Obligations.BackrefBeforeOutputFaults :=
  fun _ _ _ _ _ _ hbase hlbc hbefore => exec_bref_of_before_output hbase hlbc hbefore

/-- Settles O29, by the instruction: each checks the overrun before its loop. -/
theorem instructionPastDeclenFaultsOverrun : Obligations.InstructionPastDeclenFaultsOverrun :=
  ⟨fun _ _ _ _ hd hover => exec_lit_of_overrun hd hover,
    fun _ _ _ _ _ _ _ hbase hlbc hd hsource hover => exec_bref_of_overrun hbase hlbc hd hsource hover⟩

/-- Settles O30: a `LIT` changes what the bytes it put change, a `BREF` what its copy changes, and a fault the fault
registers and the phase. -/
theorem instructionsChangeOnlyOutputAndCursor : Obligations.InstructionsChangeOnlyOutputAndCursor := by
  refine ⟨fun x bytes s t h => ?_, fun x high low s t h => ?_⟩
  · obtain ⟨bs, hle, hform⟩ := exec_lit_next h
    have hput := foldl_putLiteral_eq bs s
    have hother := foldl_putLiteral_read_other bs s
    generalize bs.foldl State.putLiteral s = u at hput hother hform
    have hpos : u.pos = s.pos + bs.length := by rw [hput]
    rw [literalLength]
    rcases hform with ⟨_, rfl⟩ | ⟨i, rfl⟩
    · refine ⟨fun a ha => hother a (by omega), by omega, by omega, fun a ha => hother a (by omega), Or.inl ?_, ?_⟩
      · rw [hput]
        exact ⟨rfl, rfl, rfl⟩
      · rw [hput]
    · refine ⟨fun a ha => hother a (by omega), ?_, ?_, fun a ha => hother a ?_, Or.inr ⟨i, rfl, rfl, rfl⟩, ?_⟩
      · rw [State.takeFault_pos]
        omega
      · rw [State.takeFault_pos]
        omega
      · rw [State.takeFault_pos] at ha
        omega
      · rw [hput]
        rfl
  · rcases exec_bref_next h with ⟨i, rfl⟩ | ⟨base, out, hbase, rfl, hother⟩
    · exact ⟨fun base _ => ⟨fun _ _ => rfl, Nat.le_refl _, Nat.le_add_right ..⟩,
        Or.inr ⟨i, rfl, rfl, rfl, rfl, rfl⟩, rfl⟩
    · refine ⟨fun base' hbase' => ?_, Or.inl ⟨rfl, rfl, rfl⟩, rfl⟩
      cases hbase.symm.trans hbase'
      exact ⟨hother, Nat.le_add_right .., Nat.le_refl _⟩

end Sys2Proof.Machine
end

section
/-! PROOFS. The step of the decode loop (44_decode_loop.md R180 to R190): its two exits, the instruction it runs, an
instruction cut off by the end of `IN`, and an encoded instruction from its first bit to the bit behind it. -/

namespace Sys2Proof.Machine

/-! ### An instruction cut off -/

/-- A complete buffer answers the literal bytes asked for, or those before its end. -/
theorem Source.Complete.literalBytes {src : Source} (hsrc : src.Complete) (n p : Nat) :
    ∃ bytes, literalBytes src n p = .ok bytes ∧ (bytes.length = n ∨ 8 * src.len < p + 8 * (bytes.length + 1)) := by
  induction n generalizing p with
  | zero => exact ⟨[], rfl, Or.inl rfl⟩
  | succ n ih =>
    by_cases hp : p + 8 ≤ 8 * src.len
    · obtain ⟨v, hv⟩ := readBits_complete hsrc hp
      obtain ⟨bytes, hbytes, hlen⟩ := ih (p + 8)
      refine ⟨BitVec.ofNat 8 v :: bytes, by simp only [Sys2Proof.literalBytes, hv, hbytes], ?_⟩
      rw [List.length_cons]
      omega
    · have hshort := readBits_of_short (src := src) (n := 8) (p := p) (by decide) (by omega)
      exact ⟨[], by simp only [Sys2Proof.literalBytes, hshort], Or.inr (by rw [List.length_nil]; omega)⟩

section CutOff

variable {t : CodeTable} {lbc p x : Nat} {src : Source} {cx ch : List Bool}

/-- Where no codeword stands the decode of a symbol runs out of bits. -/
theorem CodeTable.decodeSymbol_of_no_codeword (ht : t.Tree) (hroot : t.firstReal < t.start) (hsrc : src.Complete)
    (hp : p ≤ 8 * src.len) (hnone : ∀ v w, t.codeword v = some w → ¬ src.Holds p w) :
    t.decodeSymbol src p = .error (.raised (.bits (8 * src.len) 1)) (8 * src.len) := by
  rcases symbolDecodesOrFaultsTruncated t src p ht hroot hsrc hp with ⟨v, w, _, hw, hholds, _⟩ | ⟨_, hcut⟩
  · exact absurd hholds (hnone v w hw)
  · exact hcut

/-- Behind a `BREF`'s selector and length symbol the high distance symbol is next (R182, R185). -/
theorem decodeInstr_bref_run (ht : t.Tree) (hx : t.codeword x = some cx) (hholds : src.Holds p (true :: cx)) :
    decodeInstr t lbc src p = decodeRest t lbc src true x (p + 1 + cx.length) := by
  obtain ⟨hp, hsel, hcx⟩ := Source.holds_cons.1 hholds
  exact decodeInstr_run hp hsel (CodeTable.decodeSymbol_of_codeword ht hx hcx)

/-- A `LIT` cut off in its bytes decodes with the whole bytes that are there. -/
theorem decodeInstr_lit_of_cutOff (ht : t.Tree) (hsrc : src.Complete) (hx : t.codeword x = some cx)
    (hholds : src.Holds p (false :: cx)) (hcut : 8 * src.len < p + 1 + cx.length + 8 * (x + 1)) :
    ∃ bytes, decodeInstr t lbc src p = .ok (.lit x bytes) (p + 1 + cx.length) ∧ bytes.length < x + 1 ∧
      src.Holds (p + 1 + cx.length) (bytesBits bytes) ∧
      8 * src.len < p + 1 + cx.length + 8 * (bytes.length + 1) := by
  obtain ⟨hp, hsel, hcx⟩ := Source.holds_cons.1 hholds
  obtain ⟨bytes, hread, hend⟩ := hsrc.literalBytes (x + 1) (p + 1 + cx.length)
  obtain ⟨hle, hbytes⟩ := literalBytes_ok hcx.1 hread
  have hfit := hbytes.1
  rw [bytesBits_length] at hfit
  refine ⟨bytes, ?_, by omega, hbytes, by omega⟩
  rw [decodeInstr_run hp hsel (CodeTable.decodeSymbol_of_codeword ht hx hcx), decodeRest, if_neg Bool.false_ne_true,
    decodeLiterals, hread]

end CutOff

/-- Settles O57, part by part: the length symbol, the distance symbol, the low bits, the literal bytes. -/
theorem cutOffInstructionFaultsTruncated : Obligations.CutOffInstructionFaultsTruncated := by
  intro t lbc src p ht hroot hsrc
  refine ⟨fun sel hholds hnone => ?_, fun x cx hx hholds => ⟨fun hnone => ?_, fun high ch hh hboth hcut => ?_⟩,
    fun x cx hx hholds hcut => decodeInstr_lit_of_cutOff ht hsrc hx hholds hcut⟩
  · obtain ⟨hp, hsel, _⟩ := Source.holds_cons.1 hholds
    exact decodeInstr_of_symbol_error hp hsel (CodeTable.decodeSymbol_of_no_codeword ht hroot hsrc hp hnone)
  · obtain ⟨_, _, hcx⟩ := Source.holds_cons.1 hholds
    rw [decodeInstr_bref_run ht hx hholds, decodeRest, if_pos rfl,
      bind_of_error (CodeTable.decodeSymbol_of_no_codeword ht hroot hsrc hcx.1 hnone)]
  · obtain ⟨_, _, hsymbols⟩ := Source.holds_cons.1 hboth
    obtain ⟨_, hch⟩ := Source.holds_append.1 hsymbols
    have hend : p + 1 + cx.length + ch.length ≤ 8 * src.len := hch.1
    rw [decodeInstr_bref_run ht hx hholds, decodeRest, if_pos rfl,
      bind_of_ok (CodeTable.decodeSymbol_of_codeword ht hh hch), bind_of_error (readBits_of_short (by omega) hcut)]

/-! ### The exits and the instruction run -/

section LoopStep

variable {s : State} {d : Word32} {st f : Nat} {l : Byte}

theorem decodeLoopStep_of_exhausted (hd : s.declen = some d) (hend : 8 * s.inLen ≤ s.position) :
    decodeLoopStep s = .next (s.withPhase .verifyChecksum) := by
  have hleft : s.source.remaining s.position = 0 := Nat.sub_eq_zero_of_le hend
  have hexit : loopExit s = .ok true s := by
    rw [loopExit_run hd, Source.exhausted, beq_iff_eq.2 hleft, Bool.or_true]
  rw [decodeLoopStep, hexit]

theorem runInstr_of_decode_ok {i : Instr} {p : Nat} (hstart : s.start = some st) (hf : s.firstReal = some f)
    (h : decodeInstr { arena := s.table, start := st, firstReal := f } s.lowWidth s.source s.position = .ok i p) :
    runInstr s = exec i (s.moveTo p) := by
  have hfetch : fetch s = .ok i (s.moveTo p) := by
    rw [fetch_run hstart hf]
    exact readStream_eq_ok.2 ⟨p, h, rfl⟩
  rw [runInstr, hfetch]

/-- In the loop, with output missing and a bit unread, the step is the instruction's (R180). -/
theorem step_of_running (hphase : s.phase = .decodeLoop) (hd : s.declen = some d) (hpos : s.pos ≠ d.toNat)
    (hunread : s.position < 8 * s.inLen) : step s = runInstr s := by
  rw [step_of_decodeLoop hphase, decodeLoopStep_of_running hd hpos hunread]

/-- The step over an instruction that stands in the stream: an encoding begins with the selector, so a bit is unread. -/
theorem step_of_encoded {i : Instr} {bits : List Bool} (hphase : s.phase = .decodeLoop) (hd : s.declen = some d)
    (hstart : s.start = some st) (hf : s.firstReal = some f) (hl : s.optLbc = some l)
    (ht : CodeTable.Tree { arena := s.table, start := st, firstReal := f })
    (hwf : i.wellFormed { arena := s.table, start := st, firstReal := f } l.toNat = true)
    (henc : encode { arena := s.table, start := st, firstReal := f } l.toNat i = some bits)
    (hholds : s.source.Holds s.position bits) (hpos : s.pos ≠ d.toNat) :
    ∃ q, step s = exec i (s.moveTo q) ∧ s.position + bits.length = q + (encodeTail i).length := by
  obtain ⟨h, _, rfl, hdec, _⟩ := decodeInvertsEncode _ _ i s.source s.position bits ht hwf henc hholds
  obtain ⟨_, _, _, hunread, _⟩ := decodeInstr_ok hdec
  refine ⟨_, ?_, by rw [List.length_append, Nat.add_assoc]⟩
  rw [step_of_running hphase hd hpos hunread]
  exact runInstr_of_decode_ok hstart hf (by rwa [State.lowWidth_some hl])

end LoopStep

/-- Settles O32, exit by exit. -/
theorem loopExitsAtDeclenOrExhaustion : Obligations.LoopExitsAtDeclenOrExhaustion := by
  intro s d hphase hd hexit
  rw [step_of_decodeLoop hphase]
  rcases hexit with hpos | hend
  · exact decodeLoopStep_of_produced hd hpos
  · exact decodeLoopStep_of_exhausted hd hend

/-- Settles O33: the low bits' width is `opt_lbc`. -/
theorem stepRunsTheDecodedInstruction : Obligations.StepRunsTheDecodedInstruction := by
  intro s d st f l hphase hd hstart hf hl hpos hunread
  rw [step_of_running hphase hd hpos hunread, ← State.lowWidth_some hl]
  exact ⟨fun i p hdec => runInstr_of_decode_ok hstart hf hdec,
    fun info p hdec => runInstr_of_decode_raised hstart hf hdec⟩

/-! ### Encoded instructions -/

/-- Settles O34: the cursor stands behind the head when `LIT` begins and passes its bytes, which are the rest of the
encoding. -/
theorem stepRunsEncodedLiteral : Obligations.StepRunsEncodedLiteral := by
  intro s d st f l x bytes bits hphase hd hstart hf hl ht hwf henc hholds hroom
  obtain ⟨_, hlen⟩ := wellFormed_lit_iff.1 hwf
  obtain ⟨q, hstep, hbits⟩ := step_of_encoded hphase hd hstart hf hl ht hwf henc hholds (by omega)
  obtain ⟨t, hexec, hbytes, hother, hframe⟩ := literalRunWritesItsBytes x bytes (s.moveTo q) d hd hlen hroom
  refine ⟨t, hstep.trans hexec, hbytes, hother, ?_⟩
  rw [encodeTail, bytesBits_length, hlen] at hbits
  rwa [State.position_moveTo, ← hbits] at hframe

/-- Settles O35: the cursor stands behind the whole encoding when `BREF` begins, and the copy leaves it. -/
theorem stepRunsEncodedBackref : Obligations.StepRunsEncodedBackref := by
  intro s d st f l base x high low bits hphase hd hstart hf hl hbase hout ht hwf henc hholds hdist hsource hpos hroom
  obtain ⟨_, _, hlow⟩ := wellFormed_bref_iff.1 hwf
  obtain ⟨q, hstep, hbits⟩ := step_of_encoded hphase hd hstart hf hl ht hwf henc hholds hpos
  rw [← backrefDistance_eq high base hlow] at hdist hsource ⊢
  obtain ⟨t, hexec, hcopy, _, hother, hframe⟩ :=
    backrefCopiesByteByByte x high low (s.moveTo q) base l d hbase hl hd hout hdist hsource hroom
  refine ⟨t, hstep.trans hexec, hcopy, hother, ?_⟩
  rw [show s.position + bits.length = q from hbits]
  exact hframe

/-! ### A `LIT` cut off -/

/-- Settles O26: the loop puts the bytes it has; the step decodes those bytes, and checks the overrun before it puts
them. -/
theorem cutOffLiteralRunFaultsTruncated : Obligations.CutOffLiteralRunFaultsTruncated := by
  refine ⟨fun x bytes s d hd hlen hroom => ⟨_, exec_lit_of_short hd hroom hlen, foldl_putLiteral_read bytes s,
      foldl_putLiteral_read_other bytes s, foldl_putLiteral_eq bytes s⟩,
    fun s d st f x cx hphase hsrc hd hstart hf ht hx hholds hcut hpos => ?_⟩
  obtain ⟨bytes, hdec, hlen, hbytes, hend⟩ :=
    decodeInstr_lit_of_cutOff (lbc := s.lowWidth) ht (src := s.source) hsrc hx hholds hcut
  obtain ⟨hunread, _⟩ := Source.holds_cons.1 hholds
  have hstep : step s = exec (.lit x bytes) (s.moveTo (s.position + 1 + cx.length)) := by
    rw [step_of_running hphase hd hpos hunread]
    exact runInstr_of_decode_ok hstart hf hdec
  refine ⟨fun hover => hstep.trans (exec_lit_of_overrun hd hover), fun hroom => ?_⟩
  have hexec := exec_lit_of_short (s := s.moveTo (s.position + 1 + cx.length)) hd hroom hlen
  have hframe := foldl_putLiteral_eq bytes (s.moveTo (s.position + 1 + cx.length))
  rw [State.position_moveTo] at hexec hframe
  exact ⟨bytes, _, hlen, hbytes, hend, hstep.trans hexec, foldl_putLiteral_read bytes (s.moveTo _),
    foldl_putLiteral_read_other bytes (s.moveTo _), hframe⟩

end Sys2Proof.Machine
end

section
/-! PROOFS. The checksum (44_decode_loop.md R191) and the step that compares it (R192). -/

namespace Sys2Proof.Machine

/-! ### The checksum -/

/-- The loop over a last byte: it stands as many places on as there are bytes before it. -/
theorem checksumFrom_concat (csum : Word64) (i : Nat) (bs : List Byte) (b : Byte) :
    checksumFrom csum i (bs ++ [b]) = checksumByte (checksumFrom csum i bs) (i + bs.length) b := by
  induction bs generalizing csum i with
  | nil => rfl
  | cons c bs ih =>
    rw [List.cons_append, checksumFrom, ih, checksumFrom, List.length_cons, Nat.add_right_comm, Nat.add_assoc i]

/-- `LUT` as R191 lists it. -/
theorem checksumFactor_toNat (i : Nat) :
    (checksumFactor i).toNat = [0xE9, 0x115, 0x137, 0x1B1].getD (i % 4) 0 := by
  unfold checksumFactor
  have hlt : i % 4 < 4 := Nat.mod_lt i (by decide)
  generalize i % 4 = k at hlt
  match k, hlt with
  | 0, _ | 1, _ | 2, _ | 3, _ => rfl

/-- One byte of the checksum as numbers: the sum wraps, and the product of what it leaves wraps alike. -/
theorem checksumByte_toNat (csum : Word64) (i : Nat) (b : Byte) :
    (checksumByte csum i b).toNat = (csum.toNat + b.toNat) * (checksumFactor i).toNat % 2 ^ 64 := by
  have hb : (b.setWidth 64).toNat = b.toNat := BitVec.toNat_setWidth_of_le (by decide)
  rw [checksumByte, BitVec.toNat_mul, BitVec.toNat_add, hb, Nat.mod_mul_mod]

/-- Settles O36: the last byte of a list is the last the loop takes. -/
theorem checksumFoldsOneByteAtATime : Obligations.ChecksumFoldsOneByteAtATime := by
  refine ⟨rfl, fun bs b => ?_⟩
  rw [checksum, checksumFrom_concat, checksumByte_toNat, checksumFactor_toNat, Nat.zero_add, checksum]

/-! ### The step -/

/-- A range that holds the given bytes reads out as them. -/
theorem Memory.readRange_of_reads {m : Memory} {a : Nat} {bs : List Byte}
    (h : ∀ k < bs.length, m.read (a + k) = bs[k]?) : m.readRange a bs.length = .ok bs := by
  obtain ⟨bs', hread⟩ := Memory.readRange_exists (m := m) (a := a) (n := bs.length) fun k hk =>
    ⟨bs[k], by rw [h k hk, List.getElem?_eq_getElem hk]⟩
  obtain ⟨hlen, hbytes⟩ := Memory.readRange_ok hread
  have heq : bs' = bs := by
    refine List.ext_getElem? fun k => ?_
    by_cases hk : k < bs.length
    · rw [← hbytes k hk, h k hk]
    · rw [List.getElem?_eq_none (by omega), List.getElem?_eq_none (by omega)]
  rw [hread, heq]

theorem verifyChecksum_of_written {s : State} {c : Word64} {bs : List Byte} (hc : s.hdrCsum = some c)
    (hread : s.out.readRange 0 s.pos = .ok bs) :
    verifyChecksum s =
      if checksum bs = c then .ok () (s.withPhase .done)
      else .error (.raised (.checksum (checksum bs) c)) s := by
  have hbytes : readProduced s = .ok bs s := by rw [readProduced, hread]
  rw [verifyChecksum, bind_of_ok hbytes, bind_of_ok (show readHdrCsum s = .ok c s from readReg_some hc), ite_run,
    update_run, raise_run]

theorem step_of_verifyChecksum {s : State} (hphase : s.phase = .verifyChecksum) :
    step s = settle (verifyChecksum s) := by
  rw [step, hphase]

/-- Settles O37: the bytes produced are read out whole, and their checksum decides. -/
theorem verifyChecksumDecidesTheRun : Obligations.VerifyChecksumDecidesTheRun := by
  intro s c bs hphase hc hlen hbytes
  have hread : s.out.readRange 0 s.pos = .ok bs := by
    rw [← hlen] at hbytes ⊢
    exact Memory.readRange_of_reads fun k hk => by rw [Nat.zero_add, hbytes k hk]
  rw [step_of_verifyChecksum hphase, verifyChecksum_of_written hc hread]
  refine ⟨fun heq => ?_, fun hne => ?_⟩
  · rw [if_pos heq]
    rfl
  · rw [if_neg hne]
    rfl

end Sys2Proof.Machine
end

section
/-! PROOFS. Every run ends (44_decode_loop.md R194). Under the invariant of a run no read stops the model
(70_reset_and_hazards.md R244), so every step goes on; and every step before a final phase lowers a bound on the steps
left. -/

namespace Sys2Proof.Machine

/-! ### Computations that do not stop the model -/

/-- A result that is no stop of the model: it completes, or the engine raises a fault. -/
def NeverHalts {σ α : Type} (r : EStateM.Result Stop σ α) : Prop :=
  ∀ f u, r ≠ .error (.halted f) u

section Sequencing

variable {σ α β : Type}

theorem NeverHalts.ok {a : α} {u : σ} : NeverHalts (.ok a u : EStateM.Result Stop σ α) :=
  nofun

theorem NeverHalts.raised {i : FaultInfo} {u : σ} : NeverHalts (.error (.raised i) u : EStateM.Result Stop σ α) :=
  nofun

theorem NeverHalts.bind {x : EStateM Stop σ α} {g : α → EStateM Stop σ β} {s : σ} (hx : NeverHalts (x s))
    (hg : ∀ a u, x s = .ok a u → NeverHalts (g a u)) : NeverHalts ((x >>= g) s) := by
  intro f u h
  rcases bind_eq_error.1 h with hfirst | ⟨a, v, hfirst, hsecond⟩
  · exact hx f u hfirst
  · exact hg a v hfirst f u hsecond

theorem NeverHalts.ite {c : Prop} [Decidable c] {r r' : EStateM.Result Stop σ α} (h : c → NeverHalts r)
    (h' : ¬ c → NeverHalts r') : NeverHalts (if c then r else r') := by
  split
  · exact h ‹c›
  · exact h' ‹¬ c›

theorem NeverHalts.exists_next {r : EStateM.Result Stop State α} (h : NeverHalts r) : ∃ t, settle r = .next t := by
  cases r with
  | ok a u => exact ⟨u, rfl⟩
  | error e u =>
    cases e with
    | raised i => exact ⟨u.takeFault i, rfl⟩
    | halted f => exact absurd rfl (h f u)

theorem NeverHalts.readStream {r : Source → BitReader α} {s : State} (h : NeverHalts (r s.source s.position)) :
    NeverHalts (readStream r s) := by
  intro f u hstop
  obtain ⟨p, hread, _⟩ := readStream_eq_error.1 hstop
  exact h f p hread

end Sequencing

/-! ### Reads of a complete buffer -/

section Complete

variable {src : Source}

theorem Source.Complete.readBits_neverHalts (hsrc : src.Complete) (n p : Nat) : NeverHalts (readBits src n p) := by
  rcases readBits_cases src n p with ⟨_, h⟩ | ⟨_, _, h⟩ | ⟨_, _, _, _, h⟩ | ⟨_, hp, a, hgather, _⟩
  · exact h ▸ .ok
  · exact h ▸ .raised
  · exact h ▸ .ok
  · obtain ⟨v, hv⟩ := hsrc.gather (v := 0) hp
    cases hgather.symm.trans hv

theorem Source.Complete.readField_neverHalts (hsrc : src.Complete) (order : FieldOrder) (w : FieldWidth) (p : Nat) :
    NeverHalts (readField src order w p) := by
  have hwidth : 0 < w.bits := by cases w <;> decide
  obtain ⟨hwhole, hshort⟩ := hsrc.takes_readField order w p
  by_cases hp : p + w.bits ≤ 8 * src.len
  · obtain ⟨v, hv⟩ := hwhole hp
    exact hv ▸ .ok
  · obtain ⟨q, k, hfault⟩ := hshort hwidth (Nat.lt_of_not_le hp)
    exact hfault ▸ .raised

theorem Source.Complete.decodeSymbol_neverHalts (hsrc : src.Complete) (t : CodeTable) {p : Nat}
    (hp : p ≤ 8 * src.len) : NeverHalts (t.decodeSymbol src p) :=
  fun _ _ => CodeTable.decodeSymbol_ne_halted hsrc hp

theorem Source.Complete.decodeRest_neverHalts (hsrc : src.Complete) (t : CodeTable) (lbc : Nat) (sel : Bool) (x : Nat)
    {p : Nat} (hp : p ≤ 8 * src.len) : NeverHalts (decodeRest t lbc src sel x p) := by
  cases sel with
  | true =>
    rw [decodeRest, if_pos rfl]
    exact .bind (hsrc.decodeSymbol_neverHalts t hp) fun _ _ _ =>
      .bind (hsrc.readBits_neverHalts lbc _) fun _ _ _ => .ok
  | false =>
    obtain ⟨bytes, hbytes, _⟩ := hsrc.literalBytes (x + 1) p
    rw [decodeRest, if_neg Bool.false_ne_true, decodeLiterals, hbytes]
    exact .ok

theorem Source.Complete.decodeInstr_neverHalts (hsrc : src.Complete) (t : CodeTable) (lbc : Nat) {p : Nat}
    (hp : p < 8 * src.len) : NeverHalts (decodeInstr t lbc src p) := by
  obtain ⟨sel, hsel⟩ := hsrc.bit hp
  rw [decodeInstr_eq, bind_of_ok (peekBit_of_bit hp hsel), bind_of_ok (consumeBit_of_bit hp hsel)]
  exact .bind (hsrc.decodeSymbol_neverHalts t hp) fun x q hx =>
    hsrc.decodeRest_neverHalts t lbc sel x (CodeTable.decodeSymbol_ok_le hp hx)

end Complete

/-! ### The steps up to the loop -/

section Steps

variable {s : State}

theorem checkMagic_neverHalts (hinput : s.InputComplete) {a : Nat} {ms : List Byte} (hlen : a + ms.length ≤ s.inLen) :
    NeverHalts (checkMagic a ms s) := by
  induction ms generalizing a with
  | nil => exact .ok
  | cons m ms ih =>
    rw [List.length_cons] at hlen
    obtain ⟨b, hb, _⟩ := memReadIn_inputByte hinput (a := a) (by omega)
    rw [checkMagic, bind_of_ok hb, ite_run]
    exact .ite (fun _ => .raised) fun _ => ih (by omega)

theorem readHeader_neverHalts (hinput : s.InputComplete) : NeverHalts (readHeader s) := by
  by_cases hlen : minStreamLength ≤ s.inLen
  · have hmagic : NeverHalts (checkMagic 0 magic s) :=
      checkMagic_neverHalts hinput (Nat.le_trans (by decide) hlen)
    rcases checkMagic_cases 0 magic s with hok | ⟨e, herr⟩
    · obtain ⟨d, c, _, _, hrun⟩ := readHeader_of_magic_ok hinput hlen hok
      rw [hrun]
      exact .ite (fun _ => .raised) fun _ => .ok
    · rwa [readHeader_of_magic_error hlen herr, ← herr]
  · rw [readHeader_of_short (Nat.lt_of_not_le hlen)]
    exact .raised

theorem readOptions_neverHalts (hinput : s.InputComplete) (hoffsets : offsetsInHeader s.cfg)
    (hlen : minStreamLength ≤ s.inLen) : NeverHalts (readOptions s) := by
  obtain ⟨hraw, hmin, hub, hlbc, hbase⟩ := hoffsets
  have hread : ∀ {a}, a < minStreamLength → ∃ b, memReadIn a s = .ok b s := fun ha => by
    obtain ⟨b, hb, _⟩ := memReadIn_inputByte hinput (Nat.lt_of_lt_of_le ha hlen)
    exact ⟨b, hb⟩
  obtain ⟨raw, hraw⟩ := hread hraw
  obtain ⟨min, hmin⟩ := hread hmin
  obtain ⟨ub, hub⟩ := hread hub
  obtain ⟨lbc, hlbc⟩ := hread hlbc
  obtain ⟨base, hbase⟩ := hread hbase
  rw [readOptions_of_reads hraw hmin hub hlbc hbase]
  exact .ite (fun _ => .ok) fun _ => .raised

theorem readPreamble_neverHalts (hinput : s.InputComplete) (w : FieldWidth) : NeverHalts (readPreamble w s) :=
  .readStream (Source.Complete.readField_neverHalts hinput s.cfg.fieldOrder w s.position)

theorem readIndex_neverHalts (hinput : s.InputComplete) (indexed : Bool) (bw k : Nat) :
    NeverHalts (readIndex indexed bw k s) := by
  cases indexed with
  | false => exact .ok
  | true => exact readPreamble_neverHalts hinput (indexWidth bw)

theorem readIndex_ok_frame {indexed : Bool} {bw k v : Nat} {u : State} (h : readIndex indexed bw k s = .ok v u) :
    ∃ p, u = s.moveTo p := by
  cases indexed with
  | false =>
    cases h
    exact ⟨s.position, (State.moveTo_position_self s).symm⟩
  | true =>
    obtain ⟨_, p, hu, _⟩ := readPreamble_ok_bounds h
    exact ⟨p, hu⟩

theorem fillLoop_neverHalts (hinput : s.InputComplete) (f bw : Nat) (indexed : Bool) (k n : Nat) :
    NeverHalts (fillLoop f bw indexed k n s) := by
  induction n generalizing k s with
  | zero => exact .ok
  | succ n ih =>
    rw [fillLoop]
    refine .bind (readIndex_neverHalts hinput indexed bw k) fun idx u hidx => ?_
    obtain ⟨p, rfl⟩ := readIndex_ok_frame hidx
    rw [ite_run]
    refine .ite (fun _ => .raised) fun _ => ?_
    refine .bind (readPreamble_neverHalts (s := s.moveTo p) hinput .w32) fun w u hw => ?_
    obtain ⟨_, q, rfl, _⟩ := readPreamble_ok_bounds hw
    rw [update_bind_run]
    refine ih ?_ (k + 1)
    exact hinput

theorem buildTable_neverHalts (hinput : s.InputComplete) {f bw : Nat} (hf : s.firstReal = some f)
    (hbw : s.byteWidth = some bw) : NeverHalts (buildTable s) := by
  rw [buildTable, bind_of_ok (show readByteWidth s = .ok bw s from readReg_some hbw)]
  refine .bind (readPreamble_neverHalts hinput (indexWidth bw)) fun raw u hraw => ?_
  obtain ⟨_, p, rfl, _⟩ := readPreamble_ok_bounds hraw
  rw [bind_of_ok (show readFirstReal (s.moveTo p) = .ok f (s.moveTo p) from readReg_some hf), update_bind_run, ite_run]
  refine .ite (fun _ => .raised) fun _ => .bind (fillLoop_neverHalts ?_ _ _ _ _ _) fun _ _ _ => .ok
  exact hinput

end Steps

/-! ### The step of a run goes on -/

section Run

variable {s t : State} {d : Word32}

theorem exec_lit_exists_next (x : Nat) (bytes : List Byte) (hd : s.declen = some d) :
    ∃ t, exec (.lit x bytes) s = .next t := by
  by_cases hover : d.toNat < s.pos + (x + 1)
  · exact ⟨_, exec_lit_of_overrun hd hover⟩
  · have hroom : s.pos + (x + 1) ≤ d.toNat := Nat.le_of_not_lt hover
    by_cases hlen : x + 1 ≤ bytes.length
    · exact ⟨_, exec_lit_of_enough hd hroom hlen⟩
    · exact ⟨_, exec_lit_of_short hd hroom (Nat.lt_of_not_le hlen)⟩

/-- A distance is at least `opt_base`, so with that positive and the output exact the copy finds each byte it reads. -/
theorem exec_bref_exists_next (x high low : Nat) {base lbc : Byte} (hbase : s.optBase = some base)
    (hlbc : s.optLbc = some lbc) (hd : s.declen = some d) (hout : s.OutputExact) (hpos : 1 ≤ base.toNat) :
    ∃ t, exec (.bref x high low) s = .next t := by
  by_cases hbefore : s.pos < backrefDistance high low lbc base
  · exact ⟨_, exec_bref_of_before_output hbase hlbc hbefore⟩
  have hsource : backrefDistance high low lbc base ≤ s.pos := Nat.le_of_not_lt hbefore
  by_cases hover : d.toNat < s.pos + backrefCount x base
  · exact ⟨_, exec_bref_of_overrun hbase hlbc hd hsource hover⟩
  obtain ⟨t, hcopy, _⟩ := copyBytes_of_outputExact (dist := backrefDistance high low lbc base) (backrefCount x base)
    hout (Nat.le_trans hpos (Nat.le_add_left ..)) hsource
  refine ⟨t, ?_⟩
  rw [exec_bref_of_room hbase hlbc hd hsource (Nat.le_of_not_lt hover), hcopy, settle_ok]

/-- With the options written, `opt_base` is at least 2 (41_header_options.md R126). -/
theorem State.OptionsWritten.base_pos (h : s.OptionsWritten) :
    ∃ base lbc, s.optBase = some base ∧ s.optLbc = some lbc ∧ 1 ≤ base.toNat := by
  obtain ⟨raw, min, ub, lbc, base, _, _, _, hlbc, hbase, hvalid, _⟩ := h
  obtain ⟨_, _, _, _, ⟨hlow, _⟩, _⟩ := (optionsValid_iff ..).mp hvalid
  exact ⟨base, lbc, hbase, hlbc, by omega⟩

theorem State.Inv.exec_exists_next (h : s.Inv) (hphase : s.phase = .decodeLoop) (i : Instr) (p : Nat) :
    ∃ t, exec i (s.moveTo p) = .next t := by
  obtain ⟨_, d, _, hd, _⟩ := h.header (by rw [hphase]; rfl)
  cases i with
  | lit x bytes => exact exec_lit_exists_next x bytes hd
  | bref x high low =>
    obtain ⟨base, lbc, hbase, hlbc, hpos⟩ := (h.options (by rw [hphase]; rfl)).base_pos
    exact exec_bref_exists_next x high low hbase hlbc hd h.output hpos

theorem State.Inv.decodeLoopStep_exists_next (h : s.Inv) (hphase : s.phase = .decodeLoop) :
    ∃ t, decodeLoopStep s = .next t := by
  obtain ⟨_, d, _, hd, _⟩ := h.header (by rw [hphase]; rfl)
  obtain ⟨⟨f, _, _, st, hf, _, _, hstart, _⟩, _⟩ := h.table (by rw [hphase]; rfl)
  by_cases hpos : s.pos = d.toNat
  · exact ⟨_, decodeLoopStep_of_produced hd hpos⟩
  by_cases hend : 8 * s.inLen ≤ s.position
  · exact ⟨_, decodeLoopStep_of_exhausted hd hend⟩
  have hunread : s.position < 8 * s.inLen := Nat.lt_of_not_le hend
  rw [decodeLoopStep_of_running hd hpos hunread]
  have hgoes := Source.Complete.decodeInstr_neverHalts h.input
    { arena := s.table, start := st, firstReal := f } s.lowWidth hunread
  cases hdec : decodeInstr { arena := s.table, start := st, firstReal := f } s.lowWidth s.source s.position with
  | ok i p =>
    rw [runInstr_of_decode_ok hstart hf hdec]
    exact h.exec_exists_next hphase i p
  | error e p =>
    cases e with
    | raised i => exact ⟨_, runInstr_of_decode_raised hstart hf hdec⟩
    | halted g => exact absurd hdec (hgoes g p)

theorem State.Inv.verifyChecksum_neverHalts (h : s.Inv) (hphase : s.phase = .verifyChecksum) :
    NeverHalts (verifyChecksum s) := by
  obtain ⟨_, _, c, _, hc, _⟩ := h.header (by rw [hphase]; rfl)
  obtain ⟨bs, hread, _⟩ := h.output.readRange_zero
  rw [verifyChecksum_of_written hc hread]
  exact .ite (fun _ => .ok) fun _ => .raised

/-- Under the invariant every step goes on, phase by phase: the registers it reads are written and the bytes exist. -/
theorem State.Inv.exists_next (h : s.Inv) : ∃ t, step s = .next t := by
  cases hphase : s.phase with
  | idle => exact ⟨s, step_of_idle_or_final (Or.inl hphase)⟩
  | done | failed => exact ⟨s, step_of_idle_or_final (Or.inr (by rw [hphase]; rfl))⟩
  | readHeader =>
    rw [step_of_readHeader hphase]
    exact (readHeader_neverHalts h.input).exists_next
  | readOptions =>
    obtain ⟨hlen, _⟩ := h.header (by rw [hphase]; rfl)
    rw [step_of_readOptions hphase]
    exact (readOptions_neverHalts h.input h.offsets hlen).exists_next
  | buildTable =>
    obtain ⟨_, _, _, _, _, _, _, _, _, _, _, _, hf, hbw, _⟩ := h.options (by rw [hphase]; rfl)
    rw [step, hphase]
    exact (buildTable_neverHalts h.input hf hbw).exists_next
  | decodeLoop =>
    rw [step_of_decodeLoop hphase]
    exact h.decodeLoopStep_exists_next hphase
  | verifyChecksum =>
    rw [step_of_verifyChecksum hphase]
    exact (h.verifyChecksum_neverHalts hphase).exists_next

/-! ### Every step counts -/

theorem exec_lit_progress {x : Nat} {bytes : List Byte} (h : exec (.lit x bytes) s = .next t) :
    t.phase = .failed ∨ s.pos < t.pos := by
  obtain ⟨bs, _, ⟨hlen, rfl⟩ | ⟨i, rfl⟩⟩ := exec_lit_next h
  · rw [foldl_putLiteral_eq]
    exact Or.inr (by simp only; omega)
  · exact Or.inl rfl

theorem exec_bref_progress {x high low : Nat} (hpos : ∀ base, s.optBase = some base → 1 ≤ base.toNat)
    (h : exec (.bref x high low) s = .next t) : t.phase = .failed ∨ s.pos < t.pos := by
  rcases exec_bref_next h with ⟨i, rfl⟩ | ⟨base, out, hbase, rfl, _⟩
  · exact Or.inl rfl
  · have hbase' := hpos base hbase
    exact Or.inr (by simp only [backrefCount]; omega)

/-- A step that stays in the loop produces a byte (R194). -/
theorem State.Inv.loop_progress (h : s.Inv) (hphase : s.phase = .decodeLoop) (hstep : step s = .next t)
    (hstays : t.phase = .decodeLoop) : s.pos < t.pos := by
  rw [step_of_decodeLoop hphase] at hstep
  rcases decodeLoopStep_next hstep with ⟨_, _, rfl⟩ | ⟨_, _, _, _, _, _, _, _, ⟨i, p, _, hexec⟩ | ⟨i, p, _, rfl⟩⟩
  · cases hstays
  · have hprogress : t.phase = .failed ∨ s.pos < t.pos := by
      cases i with
      | lit x bytes => exact exec_lit_progress (s := s.moveTo p) hexec
      | bref x high low =>
        obtain ⟨base, _, hbase, _, hpos⟩ := (h.options (by rw [hphase]; rfl)).base_pos
        refine exec_bref_progress (s := s.moveTo p) (fun base' hbase' => ?_) hexec
        cases hbase.symm.trans hbase'
        exact hpos
    rcases hprogress with hfailed | hpos
    · cases hfailed.symm.trans hstays
    · exact hpos
  · cases hstays

/-- A bound on the steps a run still takes. In the loop: a byte for each instruction, then the step that leaves it and
the checksum. Before it: one step a phase, and a loop over the largest declared length. -/
def State.stepsLeft (s : State) : Nat :=
  match s.phase with
  | .readHeader => 2 ^ 32 + 4
  | .readOptions => 2 ^ 32 + 3
  | .buildTable => 2 ^ 32 + 2
  | .decodeLoop => (s.declen.elim 0 BitVec.toNat) - s.pos + 2
  | .verifyChecksum => 1
  | .idle | .done | .failed => 0

theorem State.stepsLeft_of_decodeLoop (hphase : s.phase = .decodeLoop) (hd : s.declen = some d) :
    s.stepsLeft = d.toNat - s.pos + 2 := by
  simp only [State.stepsLeft, hphase, hd, Option.elim_some]

theorem State.stepsLeft_of_final (hfinal : s.phase.isFinal = true) : s.stepsLeft = 0 := by
  rw [State.stepsLeft]
  cases hphase : s.phase with
  | idle | done | failed => rfl
  | readHeader | readOptions | buildTable | decodeLoop | verifyChecksum =>
    rw [hphase] at hfinal
    cases hfinal

theorem State.stepsLeft_pos (hidle : s.phase ≠ .idle) (hfinal : s.phase.isFinal = false) : 0 < s.stepsLeft := by
  rw [State.stepsLeft]
  cases hphase : s.phase with
  | idle => exact absurd hphase hidle
  | done | failed =>
    rw [hphase] at hfinal
    cases hfinal
  | readHeader | readOptions | buildTable | decodeLoop | verifyChecksum => exact Nat.succ_pos _

/-- Each step of a run that has not ended lowers the bound. -/
theorem State.Inv.stepsLeft_lt (h : s.Inv) (hidle : s.phase ≠ .idle) (hfinal : s.phase.isFinal = false)
    (hstep : step s = .next t) : t.stepsLeft < s.stepsLeft := by
  have hpos := State.stepsLeft_pos hidle hfinal
  have hprogress := fun hphase => h.loop_progress (t := t) hphase hstep
  have hleft : ∀ d, t.phase = .decodeLoop → t.declen = some d → t.stepsLeft = d.toNat - t.pos + 2 :=
    fun _ => State.stepsLeft_of_decodeLoop
  cases step_form hstep with
  | stays hphase =>
    rcases hphase with hp | hp
    · exact absurd hp hidle
    · cases hp.symm.trans hfinal
  | headerFails | budgetFails | optionsFail | tableFails | loopFails | checksumFails =>
    rwa [State.stepsLeft_of_final rfl]
  | headerRead hphase | optionsRead hphase | loopLeft hphase | checksumMatches hphase =>
    simp [State.stepsLeft, hphase]
  | tableBuilt hphase =>
    obtain ⟨_, d, _, hd, _⟩ := h.header (by rw [hphase]; rfl)
    rw [hleft d rfl hd, State.stepsLeft, hphase]
    have hlt := d.isLt
    simp only
    omega
  | instrRun hphase _ _ _ d hd _ hle _ =>
    have hmore := hprogress hphase hphase
    rw [hleft d hphase hd, State.stepsLeft_of_decodeLoop (s := s) hphase hd]
    simp only at hmore ⊢
    omega

/-! ### Runs -/

theorem run_succ_of_next {M : Host.Core} {s t : M.State} (hstep : M.step s = .next t) (n : Nat) :
    M.run (n + 1) s = M.run n t := by
  rw [Host.Core.run, hstep]

/-- No step goes back to `Idle`. -/
theorem phase_ne_idle_of_step (hidle : s.phase ≠ .idle) (hstep : step s = .next t) : t.phase ≠ .idle := by
  intro hp
  rcases phaseMovesForwardOnly s t hstep with hfailed | ⟨hsame, _⟩ | ⟨hrank, _⟩
  · cases hfailed.symm.trans hp
  · exact hidle (hsame.symm.trans hp)
  · rw [hp] at hrank
    cases hrank

/-- A run of at least as many steps as the bound ends in a final phase. -/
theorem State.Inv.run_ends (h : s.Inv) (hidle : s.phase ≠ .idle) {n : Nat} (hn : s.stepsLeft ≤ n) :
    ∃ t : State, Sys2Proof.core.run n s = .next t ∧ t.phase.isFinal = true := by
  induction n generalizing s with
  | zero =>
    cases hfinal : s.phase.isFinal with
    | true => exact ⟨s, rfl, hfinal⟩
    | false => exact absurd hn (Nat.not_le.2 (State.stepsLeft_pos hidle hfinal))
  | succ n ih =>
    obtain ⟨t, hstep⟩ := h.exists_next
    rw [run_succ_of_next (M := Sys2Proof.core) hstep]
    refine ih (stepKeepsInvariant s t h hstep) (phase_ne_idle_of_step hidle hstep) ?_
    cases hfinal : s.phase.isFinal with
    | true =>
      cases (step_of_idle_or_final (Or.inr hfinal)).symm.trans hstep
      rw [State.stepsLeft_of_final hfinal]
      exact Nat.zero_le n
    | false =>
      have hlt := h.stepsLeft_lt hidle hfinal hstep
      omega

end Run

/-- Settles O52: the bound is `declen - pos + 2` in the loop and `2^32 + 4` after Start. -/
theorem everyRunEnds : Obligations.EveryRunEnds := by
  refine ⟨fun s d hinv hphase hd => ?_, fun s bytes m hoffsets haccepts => ?_⟩
  · exact hinv.run_ends (by rw [hphase]; exact nofun) (Nat.le_of_eq (State.stepsLeft_of_decodeLoop hphase hd))
  · obtain ⟨hinv, _⟩ := startEstablishesInvariant s bytes m hoffsets haccepts
    rw [hostStart_of_accepts haccepts] at hinv ⊢
    exact hinv.run_ends nofun (Nat.le_refl _)

end Sys2Proof.Machine
end

section
/-! PROOFS. The statements of 60_exceptions.md: fault entry (R214), the kinds and codes of R210, Start (R226, with the
values of 10_state.md R43) and what the host reads (R227). -/

namespace Sys2Proof.Machine

/-! ### Faults -/

/-- A `raise` takes its fault in the state as it stands, with no other write. -/
theorem settle_raise (i : FaultInfo) (s : State) : settle ((raise i : Engine Unit) s) = .next (s.takeFault i) := by
  rw [raise_run, settle_raised]

/-- Settles O39: a `raise` answers the state of `State.takeFault`, which is in `Failed` and so delivers nothing. -/
theorem faultEntryWritesFaultAndPhaseOnly : Obligations.FaultEntryWritesFaultAndPhaseOnly := by
  refine fun s i => ⟨settle_raise i s, State.result_of_ne_done ?_⟩
  rw [State.takeFault_phase]
  exact nofun

/-- Settles O58: each row of R210 is one equation of `FaultInfo.kind` and one of `faultCode`. -/
theorem faultKindsAndCodesFollowTheTable : Obligations.FaultKindsAndCodesFollowTheTable := by
  refine ⟨fun _ => rfl, fun _ => rfl, fun _ _ _ _ _ => rfl, fun _ _ => rfl, fun _ => rfl, fun _ _ => rfl,
    fun _ _ => rfl, fun _ => rfl, fun _ => rfl, fun _ _ => rfl, fun _ _ _ => rfl, ?_⟩
  exact ⟨rfl, rfl, rfl, rfl, rfl, rfl, rfl, rfl, rfl, rfl⟩

/-! ### Start -/

theorem Phase.acceptsStart_iff {p : Phase} : p.acceptsStart = true ↔ p = .idle ∨ p = .done ∨ p = .failed := by
  cases p <;> simp [Phase.acceptsStart]

theorem hostStart_of_not_accepts {s : State} (h : ¬ s.phase.acceptsStart = true) (bytes : List Byte)
    (m : Option Nat) : s.hostStart bytes m = s :=
  if_neg h

/-- Every entry of the empty arena is the fresh one of R43. -/
theorem Arena.fields_nil (i : Nat) :
    Arena.ov [] i = 0 ∧ Arena.bv [] i = none ∧ Arena.cl [] i = none ∧ Arena.ch [] i = none :=
  ⟨rfl, rfl, rfl, rfl⟩

/-- Settles O45: an accepted Start answers `startState`, whose registers are those of R43, whose arena and `OUT` are
empty and whose `IN` is the host's buffer. -/
theorem startResetsTheRun : Obligations.StartResetsTheRun := by
  refine fun s bytes m => ⟨fun haccepts => ?_, fun hidle hdone hfailed => ?_⟩
  · refine ⟨startState s.cfg bytes m, hostStart_of_accepts (Phase.acceptsStart_iff.2 haccepts) bytes m, ?_⟩
    have hinput : ∀ a, (startState s.cfg bytes m).input.read a = bytes[a]? := Memory.read_ofBytes bytes
    exact ⟨rfl, rfl, rfl, rfl, rfl, hinput, rfl, rfl, rfl, rfl, rfl, rfl, rfl, rfl, rfl, rfl, rfl, rfl, rfl, rfl,
      Arena.fields_nil, rfl, rfl, fun _ => rfl⟩
  · refine hostStart_of_not_accepts (fun haccepts => ?_) bytes m
    exact (Phase.acceptsStart_iff.1 haccepts).elim hidle fun hfinal => hfinal.elim hdone hfailed

/-! ### What the host reads -/

theorem State.faultResult_of_failed {s : State} (h : s.phase = .failed) : s.faultResult = s.fault :=
  if_pos h

theorem State.faultResult_of_ne_failed {s : State} (h : s.phase ≠ .failed) : s.faultResult = none :=
  if_neg h

/-- Settles O59: `Failed` alone delivers the register `fault` as a result, and the status read copies every register. -/
theorem hostReadsRegistersAndFaultKind : Obligations.HostReadsRegistersAndFaultKind := by
  refine fun s => ⟨State.faultResult_of_failed, State.faultResult_of_ne_failed, fun i => ⟨?_, rfl, rfl⟩, ?_⟩
  · rw [State.faultResult_of_failed (s.takeFault_phase i), State.takeFault_fault]
  · exact ⟨rfl, rfl, rfl, rfl, rfl, rfl, rfl, rfl, rfl, rfl, rfl, rfl, rfl, rfl, rfl, rfl, rfl, rfl⟩

end Sys2Proof.Machine
end

section
/-! PROOFS. The statements of 70_reset_and_hazards.md: power-on reset (R240) and no read of an unwritten register
(R244). -/

namespace Sys2Proof.Machine

/-! ### A run goes on -/

/-- Settles O51: the invariant says for each phase that the registers its step reads are written and that the bytes of
`IN` and `OUT` it reads exist, which is `State.Inv.exists_next`. -/
theorem stepOfARunNeverStops : Obligations.StepOfARunNeverStops :=
  fun _ hinv => hinv.exists_next

/-! ### Unwritten registers -/

/-- The other half of `settle_readReg_bind`: a computation whose first read finds no value stops there, whatever would
have followed. -/
theorem settle_readReg_bind_of_unwritten {α β : Type} {r : RegName} {get : State → Option α} {f : α → Engine β}
    {s : State} (h : get s = none) : settle ((readReg r get >>= f) s) = .fault (.unwritten r) := by
  rw [bind_of_error (readReg_eq_error.2 ⟨h, rfl, rfl⟩), settle_halted]

section Unwritten

variable {s : State} {base lbc : Byte}

/-- The read of `declen` for the overrun check is the first of `LIT` (44_decode_loop.md R183). -/
theorem exec_lit_of_declen_unwritten (x : Nat) (bytes : List Byte) (hd : s.declen = none) :
    exec (.lit x bytes) s = .fault (.unwritten .declen) := by
  rw [exec_lit, execLit, literalRun, readDeclen, settle_readReg_bind_of_unwritten hd]

theorem exec_bref_of_optBase_unwritten (x high low : Nat) (hbase : s.optBase = none) :
    exec (.bref x high low) s = .fault (.unwritten .optBase) := by
  rw [exec_bref, execBref, backrefCopy, readOptBase, settle_readReg_bind_of_unwritten hbase]

theorem exec_bref_of_optLbc_unwritten (x high low : Nat) (hbase : s.optBase = some base) (hlbc : s.optLbc = none) :
    exec (.bref x high low) s = .fault (.unwritten .optLbc) := by
  rw [exec_bref, execBref, backrefCopy, bind_of_ok (show readOptBase s = .ok base s from readReg_some hbase),
    readOptLbc, settle_readReg_bind_of_unwritten hlbc]

/-- `BREF` reads `declen` only behind the distance check, which comes first (44_decode_loop.md R188). -/
theorem exec_bref_of_declen_unwritten (x : Nat) {high low : Nat} (hbase : s.optBase = some base)
    (hlbc : s.optLbc = some lbc) (hsource : backrefDistance high low lbc base ≤ s.pos) (hd : s.declen = none) :
    exec (.bref x high low) s = .fault (.unwritten .declen) := by
  rw [exec_bref, execBref, backrefCopy, bind_of_ok (show readOptBase s = .ok base s from readReg_some hbase),
    bind_of_ok (show readOptLbc s = .ok lbc s from readReg_some hlbc), get_bind_run, if_neg (Nat.not_lt.2 hsource),
    readDeclen, settle_readReg_bind_of_unwritten hd]

end Unwritten

/-- Settles O31, read by read in the order of each instruction: `declen` for `LIT`; `opt_base`, `opt_lbc` and, past the
distance check, `declen` for `BREF`. -/
theorem unwrittenRegisterStopsTheInstruction : Obligations.UnwrittenRegisterStopsTheInstruction := by
  refine ⟨fun x bytes _ hd => exec_lit_of_declen_unwritten x bytes hd, fun x high low _ => ⟨?_, ?_, ?_⟩⟩
  · exact exec_bref_of_optBase_unwritten x high low
  · exact fun _ => exec_bref_of_optLbc_unwritten x high low
  · exact fun _ _ => exec_bref_of_declen_unwritten x

/-! ### Power-on reset -/

/-- Settles O44: the registers are those of `State.reset`, and no step leaves `Idle`. -/
theorem resetIsIdleAndUnwritten : Obligations.ResetIsIdleAndUnwritten := by
  have hphase : State.reset.phase = .idle := rfl
  have hstays : step State.reset = .next State.reset := step_of_idle_or_final (Or.inl hphase)
  exact ⟨hphase, rfl, rfl, rfl, rfl, rfl, rfl, rfl, rfl, rfl, rfl, rfl, rfl, rfl, rfl, rfl, hstays⟩

/-- The option fields of R8's defaults stand at 0x31 to 0x35, below the 0x37 bytes that `ReadHeader` checks. -/
theorem defaultConfig_offsetsInHeader : offsetsInHeader defaultConfig := by
  unfold offsetsInHeader
  decide

/-- The buffers are empty, so each covers its length, and `Idle` is a phase that relies on no register. -/
theorem State.reset_inv : State.reset.Inv where
  offsets := defaultConfig_offsetsInHeader
  input := rfl
  output := rfl
  fault := by simp [State.reset]
  unbuilt := nofun
  header := nofun
  options := nofun
  table := nofun

theorem State.reset_canonical : State.reset.Canonical :=
  ⟨rfl, rfl, rfl⟩

/-- Settles O48: the invariant from the empty buffers and `Idle`, the canonical form from the three empty lists. -/
theorem invariantHoldsAtReset : Obligations.InvariantHoldsAtReset :=
  ⟨State.reset_inv, State.reset_canonical⟩

end Sys2Proof.Machine
end
